-- ==== Sys2Proof/Word.lean ====
section
/-! DEFINITION. The word types of the engine.
Only what the spec adds, shifts or masks as bits is a bit vector: fields of the stream, CRC registers, the bit
accumulator. Counters and indexes are natural numbers (00_scope.md R12: arithmetic on them is exact). -/

namespace Sys2Proof

/-- A byte of the source, of `BUF` and `RECON`, and of a READ response (20_memory.md R89). -/
abbrev Byte := BitVec 8

/-- A 32-bit register: `ACC` and the CRC registers (10_state.md R38, R39, R43, R62). -/
abbrev Word := BitVec 32

end Sys2Proof
end

