-- ==== Sys2Proof/Config.lean ====
section
/-! DEFINITION. What is fixed for the machine: the parameter values of 00_scope.md R7, and the shapes of the three
things that cross its layers whole: the source, a host command and a tree's decode tables. The one free value is that of
`EXP_PREV` while it is without value (93_implementation_defined.md K1-21: any value). -/

namespace Sys2Proof

namespace Config

/-- `BLOCK_UNIT` (00_scope.md R7): the bytes one unit of the block-size factor stands for. -/
def blockUnit : Nat := 100000

/-- `MIN_TREES` (00_scope.md R7). -/
def minTrees : Nat := 2

/-- `MAX_TREES` (00_scope.md R7). -/
def maxTrees : Nat := 6

/-- `GROUP_SIZE` (00_scope.md R7): symbols per selector. -/
def groupSize : Nat := 50

/-- `MIN_CODE_LEN` (00_scope.md R7). -/
def minCodeLen : Nat := 1

/-- `MAX_CODE_LEN` (00_scope.md R7). -/
def maxCodeLen : Nat := 20

/-- `MAX_ALPHA` (00_scope.md R7). -/
def maxAlpha : Nat := 258

/-- `MAX_BLOCK` (00_scope.md R7). -/
def maxBlock : Nat := 900000

/-- `MAX_EXPANDED` (00_scope.md R7). -/
def maxExpanded : Nat := 46620000

/-- `RNUMS_LEN` (00_scope.md R7). -/
def rnumsLen : Nat := 512

/-- What `EXP_PREV` reads as while it is without value (46_output_rle.md R265; 93_implementation_defined.md K1-21), for the
`k`-th time it is left so: a free value, which nothing constrains (assumption log 27). -/
opaque freePrev : (k : Nat) → Byte

/-- The block marker `BLKM` (30_encoding.md R100). -/
def blockMarker : Nat := 0x314159265359

/-- The end marker `ENDM` (30_encoding.md R100). -/
def endMarker : Nat := 0x177245385090

end Config

/-- The decode tables of one tree (10_state.md R52). Entry `L - 1` of `count`, `firstCode` and `firstIndex` is the
spec's entry `L`, for `L` = 1 to 20. -/
structure Tree where
  count      : List Nat
  firstCode  : List Nat
  firstIndex : List Nat
  perm       : List Nat
  maxLen     : Nat
  deriving DecidableEq, Repr

/-- Tables nothing has been written to. -/
def Tree.empty : Tree := ⟨[], [], [], [], 0⟩

/-- When a source answers (40_bit_reader.md R141, 47_stream_control.md R303). Requests at offsets below `ready` are answered
(`none`: every request is); a step that waits for another takes the next of `later` as its `ready`, and with none left the
source never answers (assumption log 16). -/
structure Pace where
  ready : Option Nat
  later : List (Option Nat)
  deriving DecidableEq, Repr

/-- The pace of a source that answers every request at once. -/
def Pace.prompt : Pace := ⟨none, []⟩

/-- A source as the host gives it to RESET (20_memory.md R84, R95): its bytes, and when it answers. -/
structure Source where
  bytes : List Byte
  pace  : Pace
  deriving DecidableEq, Repr

/-- The source of some bytes that answers every request at once. -/
def Source.prompt (bytes : List Byte) : Source := ⟨bytes, .prompt⟩

/-- A command as the host issues it (47_stream_control.md R280). `other` is any command that R280 does not name
(R302); its number and the operands of the unsupported commands are whatever the host gives. -/
inductive HostCmd where
  | reset (source : Source) (owns : Bool)
  | read (count : Nat)
  | close
  | getCaps
  | getLength (args : List Nat)
  | getPosition (args : List Nat)
  | setPosition (args : List Nat)
  | seek (args : List Nat)
  | setLength (args : List Nat)
  | write (args : List Nat)
  | other (number : Nat) (args : List Nat)
  deriving DecidableEq, Repr

end Sys2Proof
end

