-- ==== Sys2Proof/Syntax.lean ====
section
/-! DEFINITION. The instructions: one constructor per row of spec/opcode_table.json, in the table's order.
The stream's elements are the engine's program (30_encoding.md, 92_eei_decisions.md D1); the host's commands are the
rows of format host-command. An element coded by a per-block code book carries the code bits it was read from. -/

namespace Sys2Proof

/-- The elements of the compressed stream, the bytes of `RECON`, and the host commands (30_encoding.md R101). -/
inductive Instr where
  /-- HDR (30_encoding.md R102): `d` is the low nibble of the digit byte `0x30 + d`. -/
  | hdr (d : BitVec 4)
  /-- HDR_BAD_MAGIC (30_encoding.md R116): the three magic bytes; the digit is not read. -/
  | hdrBadMagic (m : BitVec 24)
  /-- HDR_BAD_SIZE (30_encoding.md R116): the digit byte. -/
  | hdrBadSize (d : Byte)
  /-- BLK (30_encoding.md R104). -/
  | blk (bcrc : Word) (rand : Bool) (origPtr : BitVec 24)
  /-- EOS (30_encoding.md R113). -/
  | eos (scrc : Word)
  /-- BADMARK (30_encoding.md R103, R116): the 48-bit marker. -/
  | badMark (m : BitVec 48)
  /-- INUSE (30_encoding.md R105, R106): groupMap, then one groupBits field per set bit of it. -/
  | inUse (groupMap : BitVec 16) (groupBits : List (BitVec 16))
  /-- NTREES (30_encoding.md R107). -/
  | nTrees (t : BitVec 3)
  /-- NSEL (30_encoding.md R108). -/
  | nSel (s : BitVec 15)
  /-- SEL (30_encoding.md R109): `j` one-bits and a zero-bit. -/
  | sel (j : Nat)
  /-- SEL_OVERRUN (30_encoding.md R109, R116): the one-bits read. -/
  | selOverrun (ones : Nat)
  /-- LBASE (30_encoding.md R110). -/
  | lBase (l : BitVec 5)
  /-- LEND (30_encoding.md R110). -/
  | lEnd
  /-- LINC (30_encoding.md R110). -/
  | lInc
  /-- LDEC (30_encoding.md R110). -/
  | lDec
  /-- RUNA (30_encoding.md R111). -/
  | runA (code : List Bool)
  /-- RUNB (30_encoding.md R111). -/
  | runB (code : List Bool)
  /-- MTF (30_encoding.md R111): the symbol value `v`, 2 to `NUM_IN_USE`. -/
  | mtf (v : Nat) (code : List Bool)
  /-- EOB (30_encoding.md R111). -/
  | eob (code : List Bool)
  /-- HUFF_NOMATCH (30_encoding.md R116): the `MAXLEN` bits read. -/
  | huffNoMatch (bits : List Bool)
  /-- INVALID_SYM (42_mtf_symbols.md R201): a symbol value above `NUM_IN_USE + 1`. -/
  | invalidSym (v : Nat) (code : List Bool)
  /-- LIT (46_output_rle.md R267). -/
  | lit (b : Byte)
  /-- COUNT (46_output_rle.md R268). -/
  | count (n : Byte)
  /-- RLE_TRUNC (46_output_rle.md R270). -/
  | rleTrunc
  /-- RESET (47_stream_control.md R298). -/
  | reset (source : Source) (owns : Bool)
  /-- READ (47_stream_control.md R287). -/
  | read (count : Nat)
  /-- CLOSE (47_stream_control.md R300). -/
  | close
  /-- GET_CAPS (47_stream_control.md R299). -/
  | getCaps
  /-- GET_LENGTH (47_stream_control.md R302), with whatever operands the host gives. -/
  | getLength (args : List Nat)
  /-- GET_POSITION (47_stream_control.md R302). -/
  | getPosition (args : List Nat)
  /-- SET_POSITION (47_stream_control.md R302). -/
  | setPosition (args : List Nat)
  /-- SEEK (47_stream_control.md R302). -/
  | seek (args : List Nat)
  /-- SET_LENGTH (47_stream_control.md R302). -/
  | setLength (args : List Nat)
  /-- WRITE (47_stream_control.md R302). -/
  | write (args : List Nat)
  deriving DecidableEq, Repr

end Sys2Proof
end

