-- ==== Sys2Proof/WellFormed.lean ====
section
/-! DEFINITION. Which instructions are terms of the format: the operand ranges the encoding of each element admits,
whatever the block. What depends on the block (the code book, `NUM_TREES`) is `Instr.fits` in Sys2Proof/Safety.lean. -/

namespace Sys2Proof

/-- A Huffman code has 1 to 20 bits (30_encoding.md R101). -/
def codeWf (code : List Bool) : Bool := decide (Config.minCodeLen ≤ code.length ∧ code.length ≤ Config.maxCodeLen)

/-- The number of groupBits fields that follow `groupMap`: one per set bit (30_encoding.md R106). -/
def groupCount (groupMap : BitVec 16) : Nat := (List.range 16).countP fun i => groupMap.getLsbD i

/-- The term is one the format has: each range is that of the rule named beside the constructor. -/
def Instr.wf : Instr → Bool
  | .hdr d => decide (1 ≤ d.toNat ∧ d.toNat ≤ 9)                         -- R102
  | .hdrBadMagic m => decide (m ≠ 0x425A68)                               -- R116
  | .hdrBadSize d => decide (d.toNat < 0x31 ∨ 0x39 < d.toNat)             -- R116
  | .blk _ _ _ => true                                                    -- R104
  | .eos _ => true                                                        -- R113
  | .badMark m => decide (m.toNat ≠ Config.blockMarker ∧ m.toNat ≠ Config.endMarker)   -- R116
  | .inUse g bits => decide (bits.length = groupCount g)                  -- R106
  | .nTrees _ => true                                                     -- R107
  | .nSel _ => true                                                       -- R108
  | .sel j => decide (j < Config.maxTrees)                                -- R109
  | .selOverrun ones => decide (Config.minTrees ≤ ones ∧ ones ≤ Config.maxTrees)       -- R109
  | .lBase _ => true                                                      -- R110
  | .lEnd => true                                                         -- R110
  | .lInc => true                                                         -- R110
  | .lDec => true                                                         -- R110
  | .runA code => codeWf code                                             -- R111
  | .runB code => codeWf code                                             -- R111
  | .mtf v code => decide (2 ≤ v ∧ v ≤ 256) && codeWf code                -- R111
  | .eob code => codeWf code                                              -- R111
  | .huffNoMatch bits => codeWf bits                                      -- R111
  | .invalidSym v code => decide (3 ≤ v) && codeWf code                   -- R201: above NUM_IN_USE + 1
  | .lit _ => true                                                        -- R267
  | .count _ => true                                                      -- R268
  | .rleTrunc => true                                                     -- R270
  | .reset _ _ => true                                                    -- R280
  | .read _ => true                                                       -- R280, R285
  | .close => true                                                        -- R280
  | .getCaps => true                                                      -- R280
  | .getLength _ => true                                                  -- R302
  | .getPosition _ => true                                                -- R302
  | .setPosition _ => true                                                -- R302
  | .seek _ => true                                                       -- R302
  | .setLength _ => true                                                  -- R302
  | .write _ => true                                                      -- R302

end Sys2Proof
end

