-- ==== Sys2Proof/Decode.lean ====
section
/-! DEFINITION. Bits to instructions and back.
A decoder "always knows which element comes next from the grammar position alone" (30_encoding.md R115), so `decode`
takes that position (`DecodeCtx`) and a list of bits, first stream bit first. It is total on any bits and rejects by
name. The encoder after it is written from the same encodings (30_encoding.md R100 to R113). -/

namespace Sys2Proof

/-! ### Bits and numbers (20_memory.md R85: the first bit is the most significant) -/

/-- The `n`-bit field of value `v mod 2^n`, most significant bit first. -/
def bitsOf : Nat → Nat → List Bool
  | 0, _ => []
  | n + 1, v => v.testBit n :: bitsOf n v

/-- The unsigned value of a field, most significant bit first. -/
def ofBits (bits : List Bool) : Nat := bits.foldl (fun acc b => 2 * acc + b.toNat) 0

/-! ### Canonical code tables (41_huffman.md R161, R162) -/

/-- The Kraft sum `Σ_s 2^(20 - len s)` (41_huffman.md R161). -/
def kraftSum (lens : List Nat) : Nat := (lens.map fun l => 2 ^ (20 - l)).sum

/-- `COUNT[1..20]`: how many symbols have each length (41_huffman.md R161). -/
def lengthCounts (lens : List Nat) : List Nat := (List.range 20).map fun k => lens.count (k + 1)

/-- `FIRST_CODE` from the counts of the lengths still to come: `code <- (code + COUNT[L]) << 1` (41_huffman.md R161). -/
def firstCodesFrom (code : Nat) : List Nat → List Nat
  | [] => []
  | c :: rest => code :: firstCodesFrom ((code + c) * 2) rest

/-- `FIRST_INDEX` from the counts: `idx <- idx + COUNT[L]` (41_huffman.md R161). -/
def firstIndexesFrom (idx : Nat) : List Nat → List Nat
  | [] => []
  | c :: rest => idx :: firstIndexesFrom (idx + c) rest

/-- The symbols with length `l`, in ascending order. -/
def symbolsOfLength (lens : List Nat) (l : Nat) : List Nat :=
  (List.range lens.length).filter fun s => lens.getD s 0 == l

/-- `PERM`: the symbols sorted by (length, symbol) ascending (41_huffman.md R161). -/
def permOf (lens : List Nat) : List Nat := (List.range 20).flatMap fun k => symbolsOfLength lens (k + 1)

/-- The decode tables of a list of lengths, each in 1 to 20 (41_huffman.md R161). -/
def buildTables (lens : List Nat) : Tree where
  count := lengthCounts lens
  firstCode := firstCodesFrom 0 (lengthCounts lens)
  firstIndex := firstIndexesFrom 0 (lengthCounts lens)
  perm := permOf lens
  maxLen := lens.foldl max 0

/-- `COUNT[L]`. -/
def Tree.countAt (t : Tree) (l : Nat) : Nat := t.count.getD (l - 1) 0

/-- `FIRST_CODE[L]`. -/
def Tree.firstCodeAt (t : Tree) (l : Nat) : Nat := t.firstCode.getD (l - 1) 0

/-- `FIRST_INDEX[L]`. -/
def Tree.firstIndexAt (t : Tree) (l : Nat) : Nat := t.firstIndex.getD (l - 1) 0

/-- The code of symbol `s` in the canonical code of `lens`: `FIRST_CODE[L] + k` in L bits, `k` the number of symbols of
length L below `s` (41_huffman.md R162). -/
def canonCode (lens : List Nat) (s : Nat) : List Bool :=
  let l := lens.getD s 0
  bitsOf l ((buildTables lens).firstCodeAt l + (lens.take s).count l)

/-! ### The decoder -/

/-- The grammar position, with what of the block's state selects the next element (30_encoding.md R115, R118). -/
inductive DecodeCtx where
  | header
  | marker
  | inUse
  | nTrees
  | nSel
  | sel (numTrees : Nat)
  | lBase
  | lCode
  | symbol (tree : Tree) (numInUse : Nat)
  | recon (run : Nat)
  deriving DecidableEq, Repr

/-- Why bits are no element. `truncated`: the list ends inside the element (the engine never sees this: its bit reader
fills with zeros, 40_bit_reader.md R148). `blockEnd`: `RECON` has ended and no count byte is due (46_output_rle.md R266). -/
inductive DecodeError where
  | truncated
  | blockEnd
  deriving DecidableEq, Repr

/-- An element and the bits after it, or the name of the rejection. -/
abbrev Decoded := Except DecodeError (Instr × List Bool)

/-- A field of `n` bits and the bits after it. -/
def takeField (n : Nat) (bits : List Bool) : Except DecodeError (Nat × List Bool) :=
  if bits.length < n then .error .truncated else .ok (ofBits (bits.take n), bits.drop n)

/-- HDR and its two illegal forms (30_encoding.md R102, R116; the digit is read only after a good magic, 47_stream_control.md R288). -/
def decodeHeader (bits : List Bool) : Decoded := do
  let (m, rest) ← takeField 24 bits
  if m ≠ 0x425A68 then return (.hdrBadMagic (BitVec.ofNat 24 m), rest)
  let (d, rest) ← takeField 8 rest
  if d < 0x31 ∨ 0x39 < d then return (.hdrBadSize (BitVec.ofNat 8 d), rest)
  return (.hdr (BitVec.ofNat 4 (d - 0x30)), rest)

/-- BLK, EOS and BADMARK, told apart by all 48 marker bits (30_encoding.md R103, R104, R113). -/
def decodeMarker (bits : List Bool) : Decoded := do
  let (m, rest) ← takeField 48 bits
  if m = Config.blockMarker then
    let (bcrc, rest) ← takeField 32 rest
    let (rand, rest) ← takeField 1 rest
    let (orig, rest) ← takeField 24 rest
    return (.blk (BitVec.ofNat 32 bcrc) (rand == 1) (BitVec.ofNat 24 orig), rest)
  if m = Config.endMarker then
    let (scrc, rest) ← takeField 32 rest
    return (.eos (BitVec.ofNat 32 scrc), rest)
  return (.badMark (BitVec.ofNat 48 m), rest)

/-- `n` groupBits fields of 16 bits (30_encoding.md R106). -/
def takeGroups : Nat → List Bool → Except DecodeError (List (BitVec 16) × List Bool)
  | 0, bits => .ok ([], bits)
  | n + 1, bits => do
    let (f, rest) ← takeField 16 bits
    let (fs, rest) ← takeGroups n rest
    return (BitVec.ofNat 16 f :: fs, rest)

/-- INUSE (30_encoding.md R105, R106). -/
def decodeInUse (bits : List Bool) : Decoded := do
  let (g, rest) ← takeField 16 bits
  let (fs, rest) ← takeGroups (groupCount (BitVec.ofNat 16 g)) rest
  return (.inUse (BitVec.ofNat 16 g) fs, rest)

/-- SEL and SEL_OVERRUN: count one-bits from `j`; a zero ends the code, and the `numTrees`-th one-bit is illegal with no
bit read after it (30_encoding.md R109, 41_huffman.md R173, R174). -/
def decodeSel (numTrees : Nat) : Nat → List Bool → Decoded
  | _, [] => .error .truncated
  | j, false :: rest => .ok (.sel j, rest)
  | j, true :: rest => if numTrees ≤ j + 1 then .ok (.selOverrun (j + 1), rest) else decodeSel numTrees (j + 1) rest

/-- LEND, LINC and LDEC (30_encoding.md R110). -/
def decodeLCode : List Bool → Decoded
  | false :: rest => .ok (.lEnd, rest)
  | true :: false :: rest => .ok (.lInc, rest)
  | true :: true :: rest => .ok (.lDec, rest)
  | _ => .error .truncated

/-- `NextSymbol` (41_huffman.md R164) with `fuel` bits still allowed: `l` bits of value `v` are read, and `code` lists
them. Answers the symbol, or none when `MAXLEN` bits match no code (R165), with the bits read and the bits after them. -/
def findCode (t : Tree) : (fuel l v : Nat) → (code bits : List Bool) → Except DecodeError (Option Nat × List Bool × List Bool)
  | 0, _, _, code, bits => .ok (none, code, bits)
  | _ + 1, _, _, _, [] => .error .truncated
  | fuel + 1, l, v, code, b :: rest =>
    let v' := 2 * v + b.toNat
    if t.firstCodeAt (l + 1) ≤ v' ∧ v' < t.firstCodeAt (l + 1) + t.countAt (l + 1) then
      .ok (some (t.perm.getD (t.firstIndexAt (l + 1) + (v' - t.firstCodeAt (l + 1))) 0), code ++ [b], rest)
    else findCode t fuel (l + 1) v' (code ++ [b]) rest

/-- The class of a decoded value (30_encoding.md R111, 42_mtf_symbols.md R194, R201). -/
def symbolInstr (numInUse v : Nat) (code : List Bool) : Instr :=
  if v = 0 then .runA code
  else if v = 1 then .runB code
  else if v ≤ numInUse then .mtf v code
  else if v = numInUse + 1 then .eob code
  else .invalidSym v code

/-- A Huffman-coded symbol (30_encoding.md R111, 41_huffman.md R164, R165). -/
def decodeSymbol (t : Tree) (numInUse : Nat) (bits : List Bool) : Decoded := do
  match ← findCode t t.maxLen 0 0 [] bits with
  | (some v, code, rest) => return (symbolInstr numInUse v code, rest)
  | (none, code, rest) => return (.huffNoMatch code, rest)

/-- LIT, COUNT and RLE_TRUNC: the expander's run counter selects, not the byte (30_encoding.md R115 item 5,
46_output_rle.md R266). No bits stand for the end of `RECON`. -/
def decodeRecon (run : Nat) (bits : List Bool) : Decoded :=
  if bits.isEmpty then
    if run = 4 then .ok (.rleTrunc, []) else .error .blockEnd
  else do
    let (b, rest) ← takeField 8 bits
    return (if run = 4 then .count (BitVec.ofNat 8 b) else .lit (BitVec.ofNat 8 b), rest)

/-- The element at a grammar position (30_encoding.md R115). -/
def decode : DecodeCtx → List Bool → Decoded
  | .header, bits => decodeHeader bits
  | .marker, bits => decodeMarker bits
  | .inUse, bits => decodeInUse bits
  | .nTrees, bits => do
    let (t, rest) ← takeField 3 bits
    return (.nTrees (BitVec.ofNat 3 t), rest)
  | .nSel, bits => do
    let (s, rest) ← takeField 15 bits
    return (.nSel (BitVec.ofNat 15 s), rest)
  | .sel numTrees, bits => decodeSel numTrees 0 bits
  | .lBase, bits => do
    let (l, rest) ← takeField 5 bits
    return (.lBase (BitVec.ofNat 5 l), rest)
  | .lCode, bits => decodeLCode bits
  | .symbol t numInUse, bits => decodeSymbol t numInUse bits
  | .recon run, bits => decodeRecon run bits

/-- How many bits the element at a position can take at most, so that this many bits are never `truncated`
(30_encoding.md R102 to R118; `MAXLEN` for a symbol, 41_huffman.md R164). -/
def DecodeCtx.window : DecodeCtx → Nat
  | .header => 32
  | .marker => 105
  | .inUse => 16 + 16 * 16
  | .nTrees => 3
  | .nSel => 15
  | .sel numTrees => max numTrees 1
  | .lBase => 5
  | .lCode => 2
  | .symbol t _ => t.maxLen
  | .recon _ => 8

/-- A host command as an instruction: the commands of 47_stream_control.md R280 by name. `none`: a command R280 does not
name, answered by R302. -/
def decodeCommand : HostCmd → Option Instr
  | .reset source owns => some (.reset source owns)
  | .read count => some (.read count)
  | .close => some .close
  | .getCaps => some .getCaps
  | .getLength args => some (.getLength args)
  | .getPosition args => some (.getPosition args)
  | .setPosition args => some (.setPosition args)
  | .seek args => some (.seek args)
  | .setLength args => some (.setLength args)
  | .write args => some (.write args)
  | .other _ _ => none

/-! ### The encoder -/

/-- The bits of an element, first stream bit first (30_encoding.md R100 to R113). A host command has none: it is encoded
as a command (47_stream_control.md R280, `encodeCommand`). RLE_TRUNC is the end of `RECON`: no bits. -/
def encode : Instr → List Bool
  | .hdr d => bitsOf 24 0x425A68 ++ bitsOf 8 (0x30 + d.toNat)
  | .hdrBadMagic m => bitsOf 24 m.toNat
  | .hdrBadSize d => bitsOf 24 0x425A68 ++ bitsOf 8 d.toNat
  | .blk bcrc rand orig =>
    bitsOf 48 Config.blockMarker ++ bitsOf 32 bcrc.toNat ++ bitsOf 1 rand.toNat ++ bitsOf 24 orig.toNat
  | .eos scrc => bitsOf 48 Config.endMarker ++ bitsOf 32 scrc.toNat
  | .badMark m => bitsOf 48 m.toNat
  | .inUse g bits => bitsOf 16 g.toNat ++ bits.flatMap fun f => bitsOf 16 f.toNat
  | .nTrees t => bitsOf 3 t.toNat
  | .nSel s => bitsOf 15 s.toNat
  | .sel j => List.replicate j true ++ [false]
  | .selOverrun ones => List.replicate ones true
  | .lBase l => bitsOf 5 l.toNat
  | .lEnd => [false]
  | .lInc => [true, false]
  | .lDec => [true, true]
  | .runA code => code
  | .runB code => code
  | .mtf _ code => code
  | .eob code => code
  | .huffNoMatch bits => bits
  | .invalidSym _ code => code
  | .lit b => bitsOf 8 b.toNat
  | .count n => bitsOf 8 n.toNat
  | .rleTrunc => []
  | .reset _ _ => []
  | .read _ => []
  | .close => []
  | .getCaps => []
  | .getLength _ => []
  | .getPosition _ => []
  | .setPosition _ => []
  | .seek _ => []
  | .setLength _ => []
  | .write _ => []

/-- The command an instruction of format host-command is issued as (47_stream_control.md R280). -/
def encodeCommand : Instr → Option HostCmd
  | .reset source owns => some (.reset source owns)
  | .read count => some (.read count)
  | .close => some .close
  | .getCaps => some .getCaps
  | .getLength args => some (.getLength args)
  | .getPosition args => some (.getPosition args)
  | .setPosition args => some (.setPosition args)
  | .seek args => some (.seek args)
  | .setLength args => some (.setLength args)
  | .write args => some (.write args)
  | _ => none

/-! ### Words of the opcode table -/

/-- The grammar position and the bits of a word of spec/opcode_table.json: the row's bit string read as one number, its
last bit bit 0. The width gives the position; where several positions share a width of 8 bits the value does
(assumption log 10: a bit string alone does not name a grammar position). -/
def tableWindow (nbits w : Nat) : Option (DecodeCtx × List Bool) :=
  match nbits with
  | 1 => some (.lCode, bitsOf 1 w)
  | 2 => some (.lCode, bitsOf 2 w)
  | 3 => some (.nTrees, bitsOf 3 w)
  | 5 => some (.lBase, bitsOf 5 w)
  | 8 =>
    if w = 0 then some (.lCode, bitsOf 1 0)
    else if w < 4 then some (.lCode, bitsOf 2 w)
    else if w < 8 then some (.nTrees, bitsOf 3 w)
    else if w < 32 then some (.lBase, bitsOf 5 w)
    else some (.recon 0, bitsOf 8 w)
  | 15 => some (.nSel, bitsOf 15 w)
  | 16 => some (.nSel, bitsOf 15 w)
  | 32 => some (.header, bitsOf 32 w)
  | 48 => some (.marker, bitsOf 48 w)
  | 80 => some (.marker, bitsOf 80 w)
  | 105 => some (.marker, bitsOf 105 w)
  | 112 => some (.marker, bitsOf 105 w)
  | _ => none

/-- The bits above the word are zero: as many as the position's longest element can still take. -/
def tableBits (ctx : DecodeCtx) (bits : List Bool) : List Bool := bits ++ List.replicate (ctx.window - bits.length) false

/-- The instruction the decoder reads from a word of the opcode table. -/
def decodeTableWord (nbits w : Nat) : Option Instr :=
  match tableWindow nbits w with
  | none => none
  | some (ctx, bits) =>
    match decode ctx (tableBits ctx bits) with
    | .ok (i, _) => some i
    | .error _ => none

end Sys2Proof
end

