-- ==== Sys2Proof/Machine/State.lean ====
section
/-! DEFINITION. The state of the engine, as plain data: every element of 10_state.md and 20_memory.md, the sequencing
the pseudocode of files 40 to 47 implies, and the host's side of the command interface. `State.reset` is the state of
70_reset_and_hazards.md R340. Where R340 says "no value" the reset value is the model's choice (assumption log 4). -/

namespace Sys2Proof.Machine

/-- `PHASE`, the stream state machine (10_state.md R33). -/
inductive Phase where
  | header
  | blockPending
  | blockActive
  | done
  | faulted
  deriving DecidableEq, Repr

/-- The faults of 60_exceptions.md R310, in the order of their codes. -/
inductive FaultKind where
  | badMagic
  | badBlockSize
  | badMarker
  | noSymbolsInUse
  | badTreeCount
  | badSelectorCount
  | selectorRunTooLong
  | badCodeLength
  | huffmanOversubscribed
  | huffmanNoMatch
  | selectorsExhausted
  | invalidSymbol
  | blockOverflow
  | badOrigPtr
  | rleCountMissing
  | blockCrcMismatch
  | streamCrcMismatch
  deriving DecidableEq, Repr

/-- The reason of a REFUSED response (47_stream_control.md R280). -/
inductive RefuseReason where
  | unsupported
  | badArgument
  | closed
  deriving DecidableEq, Repr

/-- The engine's answer to a host command (47_stream_control.md R280). -/
inductive Response where
  | ok
  | data (bytes : List Byte)
  | eof
  | fault (code : BitVec 5)
  | caps (canRead canSeek canWrite : Bool)
  | refused (reason : RefuseReason)
  deriving DecidableEq, Repr

/-- Where the engine stands in the pseudocode of files 41 to 47: between commands, before an element of the stream, or
before a stage that has no stream encoding (assumption log 7). -/
inductive Position where
  /-- Between commands (47_stream_control.md R282). -/
  | idle
  /-- ParseHeader (47_stream_control.md R288). -/
  | header
  /-- NextMarker (47_stream_control.md R289). -/
  | marker
  /-- INUSE (42_mtf_symbols.md R190). -/
  | inUse
  /-- NTREES (41_huffman.md R170). -/
  | nTrees
  /-- NSEL (41_huffman.md R171). -/
  | nSel
  /-- SEL number `i` (41_huffman.md R173). -/
  | sel
  /-- The base of tree `t` (41_huffman.md R175). -/
  | lBase
  /-- The length code of symbol `s` of tree `t` (41_huffman.md R175). -/
  | lCode
  /-- BuildTree(t) (41_huffman.md R182). -/
  | build
  /-- The start of DecodeSymbols (42_mtf_symbols.md R191, R195). -/
  | startSymbols
  /-- The next symbol (41_huffman.md R180). -/
  | symbol
  /-- The inverse BWT (43_inverse_bwt.md R220 to R224). -/
  | invBwt
  /-- The derandomiser (44_derandomizer.md R235). -/
  | derand
  /-- The start of the pre-pass (46_output_rle.md R271). -/
  | prepassStart
  /-- Inside the pre-pass (46_output_rle.md R271). -/
  | prepass
  /-- Inside the release pass of a READ (47_stream_control.md R287). -/
  | release
  deriving DecidableEq, Repr

/-- Control and status registers (10_state.md R32 to R37), and whether CLOSE has released the source
(47_stream_control.md R300). -/
structure Ctrl where
  ownsSource     : Bool
  phase          : Phase
  faultCode      : BitVec 5
  closed         : Bool
  factor         : Nat
  capacity       : Nat
  sourceReleased : Bool
  deriving DecidableEq, Repr

/-- The source (20_memory.md R84), when it answers (47_stream_control.md R303), and the bit reader's registers
(10_state.md R39 to R42). -/
structure Reader where
  src    : List Byte
  srcPos : Nat
  acc    : Word
  cnt    : Nat
  bitpos : Nat
  pace   : Pace
  deriving DecidableEq, Repr

/-- Block header registers (10_state.md R43 to R45). -/
structure BlockHeader where
  storedCrc : Word
  rand      : Bool
  origPtr   : BitVec 24
  deriving DecidableEq, Repr

/-- Table-setup state (10_state.md R46 to R52). -/
structure Tables where
  inUseList : List Byte
  numInUse  : Nat
  alpha     : Nat
  numTrees  : Nat
  numSel    : Nat
  selMtf    : List Nat
  selector  : List Nat
  len       : List (List Nat)
  trees     : List Tree
  deriving DecidableEq, Repr

/-- Symbol-decode state (10_state.md R53 to R56). `n` is the spec's `N`. -/
structure Symbols where
  mtf       : List Byte
  groupIdx  : Int
  groupLeft : Nat
  curTree   : Nat
  runLen    : Nat
  runShift  : Nat
  n         : Nat
  deriving DecidableEq, Repr

/-- Inverse BWT state (10_state.md R57, R58). -/
structure Bwt where
  freq  : List Nat
  cum   : List Nat
  focus : Nat
  k     : Nat
  deriving DecidableEq, Repr

/-- Derandomiser state (10_state.md R59). -/
structure Derand where
  ntogo : Nat
  tpos  : Nat
  deriving DecidableEq, Repr

/-- Output expander state (10_state.md R60, R61). `prev = none` is the spec's "none". -/
structure Expander where
  pos       : Nat
  run       : Nat
  prev      : Option Byte
  rep       : Nat
  remaining : Nat
  deriving DecidableEq, Repr

/-- CRC registers (10_state.md R38, R62): `running` is the spec's `BCRC_CALC`. -/
structure CrcRegs where
  combined : Word
  running  : Word
  block    : Word
  deriving DecidableEq, Repr

/-- The three memories (20_memory.md R81 to R83, R99), each a list of (index, entry) with strictly rising indexes. An
index that is not listed holds no value (assumption log 6). -/
structure Memories where
  allocated : Bool
  buf       : List Host.Cell
  tt        : List (Nat × Nat)
  recon     : List Host.Cell
  deriving DecidableEq, Repr

/-- The variables of the pseudocode that live between elements (assumption log 7): `selIdx` is `i` of 41_huffman.md R173,
`treeIdx` and `symIdx` are `t` and `s` of R175 and R182, `cur` is R175's, `readCount` is the operand of the READ in
progress, `readLeft` the bytes it has still to emit (47_stream_control.md R287), `data` the response being built (R286),
`drained` whether Drain has run in it (R292), `expCount` is `count` of 46_output_rle.md R271. -/
structure Sequencer where
  pos       : Position
  selIdx    : Nat
  treeIdx   : Nat
  symIdx    : Nat
  cur       : Nat
  readCount : Nat
  readLeft  : Nat
  data      : List Byte
  drained   : Bool
  expCount  : Nat
  deriving DecidableEq, Repr

/-- The host's side (47_stream_control.md R280 to R282; assumption log 2): commands not yet taken, oldest first, and
responses given, oldest first. -/
structure HostPort where
  cmds      : List HostCmd
  responses : List Response
  deriving DecidableEq, Repr

/-- The whole state. `freeCount` is the model's own: how often `EXP_PREV` has been left without value since the model's
start, which names its free value (assumption log 27). -/
structure State where
  ctrl   : Ctrl
  reader : Reader
  blk    : BlockHeader
  tab    : Tables
  sym    : Symbols
  bwt    : Bwt
  rnd    : Derand
  exp    : Expander
  crc    : CrcRegs
  mem    : Memories
  seq    : Sequencer
  host   : HostPort
  freeCount : Nat
  deriving DecidableEq, Repr

/-- The memories by name (20_memory.md R80). -/
inductive MemName where
  | buf
  | tt
  | recon
  deriving DecidableEq, Repr

/-- Why the model stops. None of these is a fault of the spec: those are next states (60_exceptions.md R311). Each stands
for something the spec says no run does, so each is safe: a claim about such a state cannot be proved from it. -/
inductive Fault where
  /-- An access of `BUF`, `TT` or `RECON` at `CAPACITY` or above, or while they are not allocated (20_memory.md R80, R96,
  R99). Raised by the memory operations of Machine/Ops.lean. Safe. -/
  | noSuchEntry (m : MemName) (i : Nat)
  /-- A read of an entry that holds no value (20_memory.md R81, R99; 10_state.md: "fault on a read, which is
  unreachable"). Raised by the memory operations of Machine/Ops.lean. Safe. -/
  | noValue (m : MemName) (i : Nat)
  /-- The release pass reached the end of `RECON` with bytes still to emit (46_output_rle.md R272: it "cannot fault").
  Raised by Machine/Fetch.lean. Safe. -/
  | releaseEnded
  deriving DecidableEq, Repr

/-- Why an instruction has no meaning. -/
inductive Refusal where
  /-- Raised by an arm of `exec` for an instruction whose meaning is not written. Safe. -/
  | notModelled (mnemonic : String)
  /-- Raised by Machine/Fetch.lean when the decoder rejects the bits at the engine's position; the bit reader's zero fill
  leaves it nothing to reject (40_bit_reader.md R148). Safe. -/
  | undecodable (e : DecodeError)
  deriving DecidableEq, Repr

/-- The outcome of an instruction or a step. -/
abbrev Result := Host.Outcome State Fault Refusal

/-- A bit reader at the start of a source (10_state.md R39 to R42: every register 0). -/
def Reader.start (source : Source) : Reader := ⟨source.bytes, 0, 0, 0, 0, source.pace⟩

/-- The state RESET(source, owns) leaves (70_reset_and_hazards.md R340), for a host side that RESET does not touch
(assumption log 2) and a count of free values (log 27). -/
def State.resetTo (source : Source) (owns : Bool) (host : HostPort) (freeCount : Nat) : State where
  ctrl := ⟨owns, .header, 0, false, 0, 0, false⟩
  reader := Reader.start source
  blk := ⟨0, false, 0⟩
  tab := ⟨[], 0, 0, 0, 0, List.replicate 6 0, [], List.replicate 6 (List.replicate 258 0), List.replicate 6 Tree.empty⟩
  sym := ⟨List.replicate 256 0, 0, 0, 0, 0, 0, 0⟩
  bwt := ⟨List.replicate 256 0, List.replicate 256 0, 0, 0⟩
  rnd := ⟨0, 0⟩
  exp := ⟨0, 0, none, 0, 0⟩
  crc := ⟨0, 0, 0⟩
  mem := ⟨false, [], [], []⟩
  seq := ⟨.idle, 0, 0, 0, 0, 0, 0, [], false, 0⟩
  host := host
  freeCount := freeCount

/-- The machine right after reset: an empty source, not owned, and no command waiting (assumption log 5). -/
def State.reset : State := State.resetTo (.prompt []) false ⟨[], []⟩ 0

end Sys2Proof.Machine
end

