-- ==== Sys2Proof/Machine/Ops.lean ====
section
/-! DEFINITION. The shared operations: the memories, the bit reader, responses, taking a fault, and leaving one. -/

namespace Sys2Proof.Machine

/-! ### Cells: a memory as a list of (index, entry), indexes strictly rising -/

/-- The canonical form of a memory: indexes strictly rising (assumption log 6). An unlisted index holds no value, so no
entry can equal it. -/
abbrev Memory.wf {α : Type} (m : List (Nat × α)) : Prop := m.Pairwise fun x y => x.1 < y.1

/-- The entry at an index, none where nothing has been written. -/
def cellRead {α : Type} : List (Nat × α) → Nat → Option α
  | [], _ => none
  | (a, v) :: rest, i => if a = i then some v else cellRead rest i

/-- The memory with entry `i` set to `v`. -/
def cellWrite {α : Type} : List (Nat × α) → Nat → α → List (Nat × α)
  | [], i, v => [(i, v)]
  | (a, u) :: rest, i, v =>
    if i < a then (i, v) :: (a, u) :: rest
    else if i = a then (i, v) :: rest
    else (a, u) :: cellWrite rest i v

/-- How many entries each memory has now: `CAPACITY` while they are allocated, none otherwise (20_memory.md R91, R99). -/
def State.entries (s : State) : Nat := if s.mem.allocated then s.ctrl.capacity else 0

/-- `MemRead(M, i, 1)` on a memory with `limit` entries (20_memory.md R80). -/
def readEntry {α : Type} (limit : Nat) (name : MemName) (m : List (Nat × α)) (i : Nat) : Except Fault α :=
  if i < limit then
    match cellRead m i with
    | some v => .ok v
    | none => .error (.noValue name i)
  else .error (.noSuchEntry name i)

/-- `MemWrite(M, i, 1, v)` on a memory with `limit` entries (20_memory.md R80). -/
def writeEntry {α : Type} (limit : Nat) (name : MemName) (m : List (Nat × α)) (i : Nat) (v : α) :
    Except Fault (List (Nat × α)) :=
  if i < limit then .ok (cellWrite m i v) else .error (.noSuchEntry name i)

/-- Entries `base .. base + n - 1`, read in ascending order. -/
def readRun {α : Type} (limit : Nat) (name : MemName) (m : List (Nat × α)) : (base n : Nat) → Except Fault (List α)
  | _, 0 => .ok []
  | base, n + 1 => do
    let v ← readEntry limit name m base
    let rest ← readRun limit name m (base + 1) n
    return v :: rest

/-- The values written to entries `base ..` in ascending order. -/
def writeRun {α : Type} (limit : Nat) (name : MemName) (m : List (Nat × α)) (base : Nat) :
    List α → Except Fault (List (Nat × α))
  | [] => .ok m
  | v :: rest => do
    let m' ← writeEntry limit name m base v
    writeRun limit name m' (base + 1) rest

/-! ### Tables held as plain lists -/

/-- Entry `i` of a table, 0 where it has no such entry (assumption log 19). -/
def tableGet (table : List Nat) (i : Nat) : Nat := table.getD i 0

/-- `T[i] <- v`: the entry replaced, or appended as the table's next one. -/
def tableSet (table : List Nat) (i v : Nat) : List Nat := if i < table.length then table.set i v else table ++ [v]

/-- `GetAndMove(M, r)` (42_mtf_symbols.md R192): the entry at rank `r`, and the table with it moved to the front; the
entries above `r` do not move. `none` stands for no entry. -/
def getAndMove {α : Type} (table : List α) (r : Nat) : Option α × List α :=
  match table[r]? with
  | some v => (some v, v :: (table.take r ++ table.drop (r + 1)))
  | none => (none, table)

/-! ### The bit reader (40_bit_reader.md) -/

/-- `SrcByte()` (40_bit_reader.md R141): the byte at `SRC_POS`, or 0x00 past the end (R148); `SRC_POS` advances. -/
def Reader.srcByte (r : Reader) : Byte × Reader := (r.src.getD r.srcPos 0, { r with srcPos := r.srcPos + 1 })

/-- Refill (40_bit_reader.md R142): two bytes, whole, when fewer than 16 bits are buffered. -/
def Reader.refill (r : Reader) : Reader :=
  if r.cnt < 16 then
    let (b0, r1) := r.srcByte
    let (b1, r2) := r1.srcByte
    { r2 with
      acc := (r.acc <<< 16) ||| ((b0.setWidth 32 : Word) <<< 8) ||| (b1.setWidth 32 : Word)
      cnt := r.cnt + 16 }
  else r

/-- `ConsumeBits(n)`, 1 ≤ n ≤ 16 (40_bit_reader.md R146). -/
def Reader.consumeBits (n : Nat) (r : Reader) : Reader :=
  let r' := r.refill
  { r' with cnt := r'.cnt - n, bitpos := r'.bitpos + n }

/-- `PeekBits(n)`, 1 ≤ n ≤ 16 (40_bit_reader.md R145): the value, and the reader after the refill. -/
def Reader.peekBits (n : Nat) (r : Reader) : Nat × Reader :=
  let r' := r.refill
  ((r'.acc >>> (r'.cnt - n)).toNat % 2 ^ n, r')

/-- `ReadBits(n)` for 1 ≤ n ≤ 16 (40_bit_reader.md R143). -/
def Reader.readBits16 (n : Nat) (r : Reader) : Nat × Reader :=
  let r' := r.consumeBits n
  ((r'.acc >>> r'.cnt).toNat % 2 ^ n, r')

/-- `ReadBits(n)` (40_bit_reader.md R143; R144 splits 17 to 32 bits as 16 and the rest, first bits first). -/
def Reader.readBits (n : Nat) (r : Reader) : Nat × Reader :=
  if n ≤ 16 then r.readBits16 n
  else
    let (hi, r1) := r.readBits16 16
    let (lo, r2) := r1.readBits16 (n - 16)
    (hi * 2 ^ (n - 16) + lo, r2)

/-- The reader after `ReadBits` of each width in turn. -/
def Reader.advance (widths : List Nat) (r : Reader) : Reader := widths.foldl (fun r n => (r.readBits n).2) r

/-- The source answers every request that `ReadBits` of each width in turn makes: none is made, or the last is answered
(40_bit_reader.md R141, 47_stream_control.md R303). -/
def Reader.answers (widths : List Nat) (r : Reader) : Bool :=
  match r.pace.ready with
  | none => true
  | some m => decide ((r.advance widths).srcPos ≤ r.srcPos ∨ (r.advance widths).srcPos ≤ m)

/-- A request is not answered yet: the engine does nothing else meanwhile (40_bit_reader.md R141), and nothing at all once
the source never answers (47_stream_control.md R303, 93_implementation_defined.md K1-18). -/
def State.awaitSource (s : State) : State :=
  match s.reader.pace.later with
  | [] => s
  | ready :: later => { s with reader := { s.reader with pace := ⟨ready, later⟩ } }

/-- Stream bit `p` (40_bit_reader.md R140, 20_memory.md R85): bit `7 - (p mod 8)` of byte `p div 8`, zeros past the end. -/
def streamBit (src : List Byte) (p : Nat) : Bool := (src.getD (p / 8) 0).getLsbD (7 - p % 8)

/-- Stream bits `p .. p + n - 1`, first bit first. -/
def streamBits (src : List Byte) (p n : Nat) : List Bool := (List.range n).map fun k => streamBit src (p + k)

/-- The `ReadBits` calls that read an element, in order (40_bit_reader.md R149). The bytes of `RECON` and the host's
commands are not read from the stream. -/
def readWidths : Instr → List Nat
  | .hdr _ => [8, 8, 8, 8]
  | .hdrBadMagic _ => [8, 8, 8]
  | .hdrBadSize _ => [8, 8, 8, 8]
  | .blk _ _ _ => [24, 24, 32, 1, 24]
  | .eos _ => [24, 24, 32]
  | .badMark _ => [24, 24]
  | .inUse _ bits => 16 :: List.replicate bits.length 16
  | .nTrees _ => [3]
  | .nSel _ => [15]
  | .sel j => List.replicate (j + 1) 1
  | .selOverrun ones => List.replicate ones 1
  | .lBase _ => [5]
  | .lEnd => [1]
  | .lInc => [1, 1]
  | .lDec => [1, 1]
  | .runA code => List.replicate code.length 1
  | .runB code => List.replicate code.length 1
  | .mtf _ code => List.replicate code.length 1
  | .eob code => List.replicate code.length 1
  | .huffNoMatch bits => List.replicate bits.length 1
  | .invalidSym _ code => List.replicate code.length 1
  | .lit _ => []
  | .count _ => []
  | .rleTrunc => []
  | .reset _ _ => []
  | .read _ => []
  | .close => []
  | .getCaps => []
  | .getLength _ => []
  | .getPosition _ => []
  | .setPosition _ => []
  | .seek _ => []
  | .setLength _ => []
  | .write _ => []

/-- The state after the bit reader has read the element. -/
def State.consume (i : Instr) (s : State) : State := { s with reader := s.reader.advance (readWidths i) }

/-! ### Small updates -/

/-- The engine goes to a position of the pseudocode. -/
def State.goto (p : Position) (s : State) : State := { s with seq := { s.seq with pos := p } }

/-- `phase <- P` (47_stream_control.md R283). -/
def State.setPhase (p : Phase) (s : State) : State := { s with ctrl := { s.ctrl with phase := p } }

/-- The response to the command in progress (47_stream_control.md R282: exactly one); the engine is then between commands. -/
def State.respond (r : Response) (s : State) : State :=
  { s with
    host := { s.host with responses := s.host.responses ++ [r] }
    seq := { s.seq with pos := .idle } }

/-! ### Faults (60_exceptions.md) -/

/-- The code of a fault (60_exceptions.md R310). -/
def FaultKind.code : FaultKind → BitVec 5
  | .badMagic => 1
  | .badBlockSize => 2
  | .badMarker => 3
  | .noSymbolsInUse => 4
  | .badTreeCount => 5
  | .badSelectorCount => 6
  | .selectorRunTooLong => 7
  | .badCodeLength => 8
  | .huffmanOversubscribed => 9
  | .huffmanNoMatch => 10
  | .selectorsExhausted => 11
  | .invalidSymbol => 12
  | .blockOverflow => 13
  | .badOrigPtr => 14
  | .rleCountMissing => 15
  | .blockCrcMismatch => 16
  | .streamCrcMismatch => 17

/-- The message of a fault (60_exceptions.md R310, last column). -/
def FaultKind.message : FaultKind → String
  | .badMagic => "bad magic"
  | .badBlockSize => "out-of-range block-size digit"
  | .badMarker => "invalid marker"
  | .noSymbolsInUse => "no symbols in use"
  | .badTreeCount => "tree count outside 2..6"
  | .badSelectorCount => "selector count < 1"
  | .selectorRunTooLong => "exceeded max number of consecutive bits"
  | .badCodeLength => "code length outside 1..20"
  | .huffmanOversubscribed => "oversubscribed Huffman code lengths"
  | .huffmanNoMatch => "no Huffman code matches (corrupt data)"
  | .selectorsExhausted => "selector list exhausted"
  | .invalidSymbol => "invalid symbol from Huffman table"
  | .blockOverflow => "block exceeds block size"
  | .badOrigPtr => "original row index out of range"
  | .rleCountMissing => "missing run-length count byte"
  | .blockCrcMismatch => "block CRC mismatch"
  | .streamCrcMismatch => "stream CRC mismatch"

/-- The code of a phase (10_state.md R33). -/
def Phase.code : Phase → BitVec 3
  | .header => 0
  | .blockPending => 1
  | .blockActive => 2
  | .done => 3
  | .faulted => 4

/-- `raise Fault(CODE)` (60_exceptions.md R311, R312): FAULT_CODE and PHASE are written, the command stops, the data of its
response is discarded and the response is FAULT(code). Nothing else is written. -/
def raiseFault (k : FaultKind) (s : State) : State :=
  { s with
    ctrl := { s.ctrl with faultCode := k.code, phase := .faulted }
    host := { s.host with responses := s.host.responses ++ [.fault k.code] }
    seq := { s.seq with pos := .idle, data := [] } }

/-- The way out of FAULTED and of DONE: RESET alone (60_exceptions.md R315; 47_stream_control.md R298). There is no return
from a fault. The host's side stays (assumption log 2); `EXP_PREV` is left without value once more (log 27). -/
def State.resetWith (source : Source) (owns : Bool) (s : State) : State :=
  State.resetTo source owns s.host (s.freeCount + 1)

/-- A computation that can only meet the model's own stops, as an outcome. -/
def outcomeOf : Except Fault State → Result
  | .ok s => .next s
  | .error f => .fault f

end Sys2Proof.Machine
end

