-- ==== Sys2Proof/Machine/Flags.lean ====
section
/-! DEFINITION. The flags. "The hardware has no condition codes, status flags or predicates beyond `RAND`, `CLOSED` and
`FAULT_CODE`", and "no rule sets a flag as a side effect of another operation" (10_state.md R63). `FAULT_CODE` is written
by `raiseFault` alone (10_state.md R34). -/

namespace Sys2Proof.Machine

/-- `RAND` is written by the block header alone (10_state.md R44, 47_stream_control.md R290). -/
def State.setRand (b : Bool) (s : State) : State := { s with blk := { s.blk with rand := b } }

/-- `CLOSED` is set by CLOSE (10_state.md R35, 47_stream_control.md R300). -/
def State.setClosed (s : State) : State := { s with ctrl := { s.ctrl with closed := true } }

/-- The length `cur` out of range: the check of 41_huffman.md R179, made before every bit of a length code. -/
def lengthOutOfRange (cur : Nat) : Bool := decide (cur < Config.minCodeLen ∨ Config.maxCodeLen < cur)

/-- The check of 42_mtf_symbols.md R203. -/
def overflows (total capacity : Nat) : Bool := decide (capacity < total)

end Sys2Proof.Machine
end

