-- ==== Sys2Proof/Machine/Crc.lean ====
section
/-! DEFINITION. crc32_bzip2_validator (45_crc.md). -/

namespace Sys2Proof.Machine

/-- `CRC_POLY` (45_crc.md R250). -/
def crcPoly : Word := 0x04C11DB7

/-- One bit of the recurrence of 45_crc.md R251. -/
def crcShift (c : Word) : Word := if c.msb then (c <<< 1) ^^^ crcPoly else c <<< 1

/-- `CRC_TABLE[i]` (45_crc.md R251). -/
def crcTable (i : Byte) : Word := Nat.repeat crcShift 8 ((i.setWidth 32 : Word) <<< 24)

/-- `CrcUpdate(b)` on the value of `BCRC_CALC` (45_crc.md R252). -/
def crcUpdate (c : Word) (b : Byte) : Word := (c <<< 8) ^^^ crcTable ((c >>> 24).setWidth 8 ^^^ b)

/-- The initial value of `BCRC_CALC` (45_crc.md R250, R253). -/
def crcInit : Word := 0xFFFFFFFF

/-- The final XOR (45_crc.md R250, R254). -/
def crcFinal (c : Word) : Word := c ^^^ 0xFFFFFFFF

/-- The block CRC of a byte sequence (45_crc.md R252 to R254). -/
def blockCrc (bytes : List Byte) : Word := crcFinal (bytes.foldl crcUpdate crcInit)

/-- `rotl1_32` (00_scope.md R12). -/
def rotl1 (x : Word) : Word := (x <<< 1) ||| (x >>> 31)

/-- The fold of 45_crc.md R256. -/
def foldCrc (combined block : Word) : Word := rotl1 combined ^^^ block

end Sys2Proof.Machine
end

