-- ==== Sys2Proof/Machine/Operands.lean ====
section
/-! DEFINITION. Operand assembly: the value an element's field stands for (30_encoding.md R114). Every other field is
used as the unsigned value it is. -/

namespace Sys2Proof.Machine

/-- `FACTOR = digit - 0x30` (30_encoding.md R102, R114); the constructor holds the low nibble of the digit. -/
def factorOf (d : BitVec 4) : Nat := d.toNat

/-- `CAPACITY = FACTOR × 100,000` (10_state.md R37). -/
def capacityOf (d : BitVec 4) : Nat := factorOf d * Config.blockUnit

/-- The byte values one groupBits field marks, ascending: stream-order bit `j` (the field's bit `15 - j`) marks
`16·i + j` (30_encoding.md R106). -/
def groupValues (i : Nat) (field : BitVec 16) : List Byte :=
  ((List.range 16).filter fun j => field.getLsbD (15 - j)).map fun j => BitVec.ofNat 8 (16 * i + j)

/-- The in-use values of the groups in `groups`, in order: a set bit of groupMap takes the next groupBits field
(42_mtf_symbols.md R190). A field that is not there marks nothing. -/
def inUseOfGroups (groupMap : BitVec 16) : (groups : List Nat) → (fields : List (BitVec 16)) → List Byte
  | [], _ => []
  | i :: groups, fields =>
    if groupMap.getLsbD (15 - i) then
      match fields with
      | [] => inUseOfGroups groupMap groups []
      | f :: fields => groupValues i f ++ inUseOfGroups groupMap groups fields
    else inUseOfGroups groupMap groups fields

/-- `IN_USE_LIST` of the two bitmaps (42_mtf_symbols.md R190). -/
def inUseList (groupMap : BitVec 16) (fields : List (BitVec 16)) : List Byte :=
  inUseOfGroups groupMap (List.range 16) fields

/-- What a run digit adds: `(v + 1) << RUN_SHIFT`, v = 0 for RUNA and 1 for RUNB (30_encoding.md R114). -/
def runDigit (v shift : Nat) : Nat := (v + 1) <<< shift

/-- The MTF rank of symbol value `v` (30_encoding.md R114). -/
def mtfRank (v : Nat) : Nat := v - 1

/-- The extra copies a count byte asks for (30_encoding.md R114). -/
def countCopies (n : Byte) : Nat := n.toNat

/-- The bytes a READ returns: `min(count, EXP_REMAINING)` (47_stream_control.md R295). -/
def readAmount (count remaining : Nat) : Nat := min count remaining

end Sys2Proof.Machine
end

