-- ==== Sys2Proof/Machine/ReadControl.lean ====
section
/-! DEFINITION. The stages of a READ that are no element of the stream (47_stream_control.md R287, R292, R295). -/

namespace Sys2Proof.Machine

/-- `k <- min(count, EXP_REMAINING)`, and on to the release pass (47_stream_control.md R287, R295). -/
def startRelease (s : State) : State :=
  { s with seq := { s.seq with readLeft := readAmount s.seq.readCount s.exp.remaining, pos := .release } }

/-- What a READ does once NextMarker has ended (47_stream_control.md R287, R292): after the header, EOF in DONE and the
release pass otherwise; after a drain, the drained block's bytes. -/
def afterMarker (s : State) : State :=
  if s.seq.drained then s.respond (.data s.seq.data)
  else if s.ctrl.phase = .done then s.respond .eof
  else startRelease s

/-- `Drain()` up to NextMarker (47_stream_control.md R292): the fold of 45_crc.md R256 and the phase. -/
def drain (s : State) : State :=
  { s with
    crc := { s.crc with combined := foldCrc s.crc.combined s.crc.block }
    ctrl := { s.ctrl with phase := .blockPending }
    seq := { s.seq with drained := true, pos := .marker } }

/-- The k bytes are emitted (47_stream_control.md R287): drain a block that has none left, else respond. -/
def releaseDone (s : State) : State :=
  if s.exp.remaining = 0 then drain s else s.respond (.data s.seq.data)

end Sys2Proof.Machine
end

