-- ==== Sys2Proof/Machine/HostCommands.lean ====
section
/-! DEFINITION. The host's commands (47_stream_control.md R280 to R302). -/

namespace Sys2Proof.Machine

/-- RESET(source, owns) (47_stream_control.md R298, 70_reset_and_hazards.md R340, R343): accepted in every state. -/
def execReset (source : Source) (owns : Bool) (s : State) : Result :=
  .next ((s.resetWith source owns).respond .ok)

/-- READ once the checks of 47_stream_control.md R284 have passed (R287): the header first, or the active block's next
bytes. -/
def startRead (count : Nat) (s : State) : State :=
  let s := { s with seq := { s.seq with readCount := count, data := [], drained := false } }
  if s.ctrl.phase = .header then s.goto .header else startRelease s

/-- READ(count) (47_stream_control.md R284, R285, R287, R297; 60_exceptions.md R315). -/
def execRead (count : Nat) (s : State) : Result :=
  if s.ctrl.closed then .next (s.respond (.refused .closed))
  else if count = 0 then .next (s.respond (.refused .badArgument))
  else if s.ctrl.phase = .faulted then .next (s.respond (.fault s.ctrl.faultCode))
  else if s.ctrl.phase = .done then .next (s.respond .eof)
  else .next (startRead count s)

/-- CLOSE (47_stream_control.md R300): the memories are released, the source too when it is owned. -/
def execClose (s : State) : Result :=
  if s.ctrl.closed then .next (s.respond (.refused .closed))
  else
    let s := { s with
      mem := ⟨false, [], [], []⟩
      ctrl := { s.ctrl with sourceReleased := s.ctrl.sourceReleased || s.ctrl.ownsSource } }
    .next (s.setClosed.respond .ok)

/-- GET_CAPS (47_stream_control.md R299). -/
def execGetCaps (s : State) : Result :=
  if s.ctrl.closed then .next (s.respond (.refused .closed)) else .next (s.respond (.caps true false false))

/-- A command the engine does not support (47_stream_control.md R302): refused, with no other effect. -/
def refuseUnsupported (s : State) : State :=
  s.respond (.refused (if s.ctrl.closed then .closed else .unsupported))

/-- GET_LENGTH (47_stream_control.md R302). -/
def execGetLength (_args : List Nat) (s : State) : Result := .next (refuseUnsupported s)

/-- GET_POSITION (47_stream_control.md R302). -/
def execGetPosition (_args : List Nat) (s : State) : Result := .next (refuseUnsupported s)

/-- SET_POSITION (47_stream_control.md R302). -/
def execSetPosition (_args : List Nat) (s : State) : Result := .next (refuseUnsupported s)

/-- SEEK (47_stream_control.md R302). -/
def execSeek (_args : List Nat) (s : State) : Result := .next (refuseUnsupported s)

/-- SET_LENGTH (47_stream_control.md R302). -/
def execSetLength (_args : List Nat) (s : State) : Result := .next (refuseUnsupported s)

/-- WRITE (47_stream_control.md R302). -/
def execWrite (_args : List Nat) (s : State) : Result := .next (refuseUnsupported s)

end Sys2Proof.Machine
end

