-- ==== Sys2Proof/Machine/Huffman.lean ====
section
/-! DEFINITION. canonical_huffman_decoder and grouped_huffman_switcher (41_huffman.md). The tables and the code search
are in Sys2Proof/Decode.lean. -/

namespace Sys2Proof.Machine

/-- NTREES (41_huffman.md R170). -/
def execNTrees (t : BitVec 3) (s : State) : Result :=
  let s := s.consume (.nTrees t)
  if t.toNat < Config.minTrees ∨ Config.maxTrees < t.toNat then .next (raiseFault .badTreeCount s)
  else .next ({ s with tab := { s.tab with numTrees := t.toNat } }.goto .nSel)

/-- Selector MTF seeding (41_huffman.md R172): the identity over the tree indices; entries above are not written. -/
def seedSelMtf (numTrees : Nat) (table : List Nat) : List Nat := List.range numTrees ++ table.drop numTrees

/-- The element after the SEL codes still due, or the first tree's base when none is (30_encoding.md R100). -/
def nextSelector (s : State) : State :=
  if s.seq.selIdx < s.tab.numSel then s.goto .sel
  else { s with seq := { s.seq with treeIdx := 0, pos := .lBase } }

/-- NSEL (41_huffman.md R171) and the seeding right after it (R172). -/
def execNSel (n : BitVec 15) (s : State) : Result :=
  let s := s.consume (.nSel n)
  if n.toNat < 1 then .next (raiseFault .badSelectorCount s)
  else .next (nextSelector { s with
    tab := { s.tab with numSel := n.toNat, selMtf := seedSelMtf s.tab.numTrees s.tab.selMtf }
    seq := { s.seq with selIdx := 0 } })

/-- SEL (41_huffman.md R173): the tree at rank `j` of `SEL_MTF` moves to the front and is selector `i`. -/
def execSel (j : Nat) (s : State) : Result :=
  let s := s.consume (.sel j)
  let (v, table) := getAndMove s.tab.selMtf j
  .next (nextSelector { s with
    tab := { s.tab with selMtf := table, selector := tableSet s.tab.selector s.seq.selIdx (v.getD 0) }
    seq := { s.seq with selIdx := s.seq.selIdx + 1 } })

/-- SEL_OVERRUN (41_huffman.md R174). -/
def execSelOverrun (ones : Nat) (s : State) : Result :=
  .next (raiseFault .selectorRunTooLong (s.consume (.selOverrun ones)))

/-- LBASE (41_huffman.md R175): `cur` is the base, and symbol 0 of the tree is next. The range check of R179 comes before
the next bit is read (Machine/Fetch.lean). -/
def execLBase (l : BitVec 5) (s : State) : Result :=
  let s := s.consume (.lBase l)
  .next { s with seq := { s.seq with cur := l.toNat, symIdx := 0, pos := .lCode } }

/-- The element after a symbol's length (41_huffman.md R176): the next symbol, the next tree's base, or BuildTree once
every list is read (R182). -/
def afterLength (s : State) : State :=
  if s.seq.symIdx + 1 < s.tab.alpha then { s with seq := { s.seq with symIdx := s.seq.symIdx + 1, pos := .lCode } }
  else if s.seq.treeIdx + 1 < s.tab.numTrees then { s with seq := { s.seq with treeIdx := s.seq.treeIdx + 1, pos := .lBase } }
  else { s with seq := { s.seq with treeIdx := 0, pos := .build } }

/-- `LEN[t][s] <- cur` (41_huffman.md R175). -/
def setLen (len : List (List Nat)) (t sym cur : Nat) : List (List Nat) := len.set t ((len.getD t []).set sym cur)

/-- LEND (41_huffman.md R176). -/
def execLEnd (s : State) : Result :=
  let s := s.consume .lEnd
  .next (afterLength { s with tab := { s.tab with len := setLen s.tab.len s.seq.treeIdx s.seq.symIdx s.seq.cur } })

/-- LINC (41_huffman.md R177). -/
def execLInc (s : State) : Result :=
  let s := s.consume .lInc
  .next { s with seq := { s.seq with cur := s.seq.cur + 1 } }

/-- LDEC (41_huffman.md R178). `cur` is 1 or more here (R179). -/
def execLDec (s : State) : Result :=
  let s := s.consume .lDec
  .next { s with seq := { s.seq with cur := s.seq.cur - 1 } }

/-- HUFF_NOMATCH (41_huffman.md R165): the bits read stay consumed. -/
def execHuffNoMatch (bits : List Bool) (s : State) : Result :=
  .next (raiseFault .huffmanNoMatch (s.consume (.huffNoMatch bits)))

/-- The lengths of tree `t`: `LEN[t][0..ALPHA-1]` (41_huffman.md R160). -/
def treeLengths (s : State) (t : Nat) : List Nat := (s.tab.len.getD t []).take s.tab.alpha

/-- BuildTree(t) for the next tree (41_huffman.md R161, R163, R182). After the last, the symbol stream starts. -/
def buildTree (s : State) : State :=
  let lens := treeLengths s s.seq.treeIdx
  if lens.any lengthOutOfRange then raiseFault .badCodeLength s
  else if 2 ^ 20 < kraftSum lens then raiseFault .huffmanOversubscribed s
  else
    { s with
      tab := { s.tab with trees := s.tab.trees.set s.seq.treeIdx (buildTables lens) }
      seq := { s.seq with
        treeIdx := s.seq.treeIdx + 1
        pos := if s.seq.treeIdx + 1 < s.tab.numTrees then .build else .startSymbols } }

/-- Group switching (41_huffman.md R180), its first half: a group with no symbol left makes the next one current, in
`GROUP_IDX`. -/
def nextGroup (s : State) : State :=
  if s.sym.groupLeft = 0 then { s with sym := { s.sym with groupIdx := s.sym.groupIdx + 1 } } else s

/-- A new group is needed and the selectors are used up (41_huffman.md R180, R181). -/
def selectorsUsedUp (s : State) : Bool := decide (s.sym.groupLeft = 0 ∧ (s.tab.numSel : Int) ≤ s.sym.groupIdx + 1)

/-- Group switching (41_huffman.md R180), when the selectors are not used up: the state in which `NextSymbol(CUR_TREE)`
runs. -/
def takeSymbolSlot (s : State) : State :=
  if s.sym.groupLeft = 0 then
    let s := nextGroup s
    { s with sym := { s.sym with
        curTree := tableGet s.tab.selector s.sym.groupIdx.toNat
        groupLeft := Config.groupSize - 1 } }
  else { s with sym := { s.sym with groupLeft := s.sym.groupLeft - 1 } }

/-- The tree the current selector names (41_huffman.md R180). -/
def currentTree (s : State) : Tree := s.tab.trees.getD s.sym.curTree Tree.empty

end Sys2Proof.Machine
end

