-- ==== Sys2Proof/Machine/Markers.lean ====
section
/-! DEFINITION. The header and the markers of the stream (47_stream_control.md R288 to R294). -/

namespace Sys2Proof.Machine

/-- HDR (47_stream_control.md R288): FACTOR, CAPACITY, the three memories allocated (their contents hold no value,
20_memory.md R99), and on to the first marker. -/
def execHdr (d : BitVec 4) (s : State) : Result :=
  let s := s.consume (.hdr d)
  .next { s with
    ctrl := { s.ctrl with factor := factorOf d, capacity := capacityOf d, phase := .blockPending }
    mem := ⟨true, [], [], []⟩
    seq := { s.seq with pos := .marker } }

/-- HDR_BAD_MAGIC (47_stream_control.md R288): BAD_MAGIC with the digit unread. -/
def execHdrBadMagic (m : BitVec 24) (s : State) : Result := .next (raiseFault .badMagic (s.consume (.hdrBadMagic m)))

/-- HDR_BAD_SIZE (47_stream_control.md R288). -/
def execHdrBadSize (d : Byte) (s : State) : Result := .next (raiseFault .badBlockSize (s.consume (.hdrBadSize d)))

/-- BLK (47_stream_control.md R289, R290): the block's fixed fields, then INUSE (R291). -/
def execBlk (bcrc : Word) (rand : Bool) (origPtr : BitVec 24) (s : State) : Result :=
  let s := (s.consume (.blk bcrc rand origPtr)).setRand rand
  .next ({ s with blk := { s.blk with storedCrc := bcrc, origPtr := origPtr } }.goto .inUse)

/-- EOS (47_stream_control.md R293): the stream check of 45_crc.md R257, then DONE and the READ's answer. -/
def execEos (scrc : Word) (s : State) : Result :=
  let s := s.consume (.eos scrc)
  if scrc ≠ s.crc.combined then .next (raiseFault .streamCrcMismatch s)
  else .next (afterMarker (s.setPhase .done))

/-- BADMARK (47_stream_control.md R294). -/
def execBadMark (m : BitVec 48) (s : State) : Result := .next (raiseFault .badMarker (s.consume (.badMark m)))

end Sys2Proof.Machine
end

