-- ==== Sys2Proof/Machine/OutputRle.lean ====
section
/-! DEFINITION. rle_output_stage (46_output_rle.md): the expander, its byte classes, and its two passes. -/

namespace Sys2Proof.Machine

/-- `ExpanderReset()` (46_output_rle.md R265): `EXP_PREV` is left without value (assumption logs 21 and 27);
`EXP_REMAINING` is not touched. -/
def expanderReset (s : State) : State :=
  { s with
    exp := { s.exp with pos := 0, run := 0, rep := 0, prev := none }
    freeCount := s.freeCount + 1 }

/-- `EXP_PREV` as the expander reads it; without value it reads as a free value (assumption log 27). -/
def prevByte (s : State) : Byte := s.exp.prev.getD (Config.freePrev s.freeCount)

/-- The start of the pre-pass (46_output_rle.md R271, 45_crc.md R253). -/
def startPrepass (s : State) : State :=
  { expanderReset s with
    crc := { s.crc with running := crcInit }
    seq := { s.seq with expCount := 0, pos := .prepass } }

/-- A byte the expander returns (46_output_rle.md R266). The active block's bytes go to the READ's response
(47_stream_control.md R286; 46_output_rle.md R272 decrements `EXP_REMAINING` with each); before the block is active the
byte goes to the CRC and the count (46_output_rle.md R271). -/
def returnByte (b : Byte) (s : State) : State :=
  if s.ctrl.phase = .blockActive then
    { s with
      exp := { s.exp with remaining := s.exp.remaining - 1 }
      seq := { s.seq with data := s.seq.data ++ [b], readLeft := s.seq.readLeft - 1 } }
  else
    { s with
      crc := { s.crc with running := crcUpdate s.crc.running b }
      seq := { s.seq with expCount := s.seq.expCount + 1 } }

/-- LIT (46_output_rle.md R266, R267). -/
def execLit (b : Byte) (s : State) : Result :=
  let run := if 1 ≤ s.exp.run ∧ b = prevByte s then s.exp.run + 1 else 1
  .next (returnByte b { s with exp := { s.exp with pos := s.exp.pos + 1, run := run, prev := some b } })

/-- One copy of `EXP_PREV` out of those owed (46_output_rle.md R266). -/
def owedCopy (s : State) : State := returnByte (prevByte s) { s with exp := { s.exp with rep := s.exp.rep - 1 } }

/-- COUNT (46_output_rle.md R266, R268): the byte is not output; the first copy owed, if any, is returned at once. -/
def execCount (n : Byte) (s : State) : Result :=
  let s := { s with exp := { s.exp with pos := s.exp.pos + 1, rep := countCopies n, run := 0 } }
  .next (if 0 < countCopies n then owedCopy s else s)

/-- RLE_TRUNC (46_output_rle.md R266, R270). -/
def execRleTrunc (s : State) : Result := .next (raiseFault .rleCountMissing s)

/-- The end of the pre-pass (46_output_rle.md R271): the block check of 45_crc.md R255; a block that passes becomes active
(47_stream_control.md R291) and the READ goes on. -/
def finishPrepass (s : State) : State :=
  let s := { s with crc := { s.crc with block := crcFinal s.crc.running } }
  if s.crc.block ≠ s.blk.storedCrc then raiseFault .blockCrcMismatch s
  else afterMarker ((expanderReset { s with exp := { s.exp with remaining := s.seq.expCount } }).setPhase .blockActive)

end Sys2Proof.Machine
end

