-- ==== Sys2Proof/Machine/Symbols.lean ====
section
/-! DEFINITION. mtf_decoder and the block symbol stream (42_mtf_symbols.md). -/

namespace Sys2Proof.Machine

/-- INUSE (42_mtf_symbols.md R190, R202): the list and its count are written before the check. -/
def execInUse (groupMap : BitVec 16) (groupBits : List (BitVec 16)) (s : State) : Result :=
  let s := s.consume (.inUse groupMap groupBits)
  let list := inUseList groupMap groupBits
  let s := { s with tab := { s.tab with inUseList := list, numInUse := list.length } }
  if list.length = 0 then .next (raiseFault .noSymbolsInUse s)
  else .next ({ s with tab := { s.tab with alpha := list.length + 2 } }.goto .nTrees)

/-- MTF seeding (42_mtf_symbols.md R191): the in-use values, ascending; entries above them are not written. -/
def seedMtf (inUse table : List Byte) : List Byte := inUse ++ table.drop inUse.length

/-- The start of DecodeSymbols (42_mtf_symbols.md R191, R195). -/
def startSymbols (s : State) : State :=
  { s with
    sym := { s.sym with
      mtf := seedMtf s.tab.inUseList s.sym.mtf
      n := 0, runLen := 0, runShift := 0, groupIdx := -1, groupLeft := 0 }
    seq := { s.seq with pos := .symbol } }

/-- A run digit (42_mtf_symbols.md R196, R198): `v` is 0 for RUNA and 1 for RUNB. The pending run is written before the
check of R203. -/
def runSymbol (v : Nat) (s : State) : State :=
  let runLen := s.sym.runLen + runDigit v s.sym.runShift
  let s' := { s with sym := { s.sym with runLen := runLen, runShift := s.sym.runShift + 1 } }
  if overflows (s.sym.n + runLen) s.ctrl.capacity then raiseFault .blockOverflow s' else s'.goto .symbol

/-- RUNA (42_mtf_symbols.md R196). -/
def execRunA (code : List Bool) (s : State) : Result := .next (runSymbol 0 (s.consume (.runA code)))

/-- RUNB (42_mtf_symbols.md R198). -/
def execRunB (code : List Bool) (s : State) : Result := .next (runSymbol 1 (s.consume (.runB code)))

/-- `Head = MTF[0]` (42_mtf_symbols.md R193). -/
def mtfHead (s : State) : Byte := s.sym.mtf.headD 0

/-- The run flush (42_mtf_symbols.md R197), before every symbol that is not RUNA or RUNB (R195). -/
def flushRun (s : State) : Except Fault State :=
  if 0 < s.sym.runLen then do
    let buf ← writeRun s.entries .buf s.mem.buf s.sym.n (List.replicate s.sym.runLen (mtfHead s))
    return { s with
      mem := { s.mem with buf := buf }
      sym := { s.sym with n := s.sym.n + s.sym.runLen, runLen := 0, runShift := 0 } }
  else .ok s

/-- The MTF class once the run is flushed (42_mtf_symbols.md R199). -/
def mtfSymbol (v : Nat) (s : State) : Except Fault State :=
  if overflows (s.sym.n + 1) s.ctrl.capacity then .ok (raiseFault .blockOverflow s)
  else do
    let (b, table) := getAndMove s.sym.mtf (mtfRank v)
    let buf ← writeEntry s.entries .buf s.mem.buf s.sym.n (b.getD 0)
    return { s with
      mem := { s.mem with buf := buf }
      sym := { s.sym with mtf := table, n := s.sym.n + 1 } }.goto .symbol

/-- MTF (42_mtf_symbols.md R195, R199). -/
def execMtf (v : Nat) (code : List Bool) (s : State) : Result :=
  outcomeOf do
    let s ← flushRun (s.consume (.mtf v code))
    mtfSymbol v s

/-- EOB (42_mtf_symbols.md R195, R200): the block length is N; the inverse BWT is next. -/
def execEob (code : List Bool) (s : State) : Result :=
  outcomeOf do
    let s ← flushRun (s.consume (.eob code))
    return s.goto .invBwt

/-- INVALID_SYM (42_mtf_symbols.md R195, R201): the run is flushed before the class is looked at. -/
def execInvalidSym (v : Nat) (code : List Bool) (s : State) : Result :=
  outcomeOf do
    let s ← flushRun (s.consume (.invalidSym v code))
    return raiseFault .invalidSymbol s

end Sys2Proof.Machine
end

