-- ==== Sys2Proof/Machine/Dispatch.lean ====
section
/-! DEFINITION. The meaning of each instruction: one arm per row of spec/opcode_table.json. -/

namespace Sys2Proof.Machine

def exec (i : Instr) (s : State) : Host.Outcome State Fault Refusal :=
  match i with
  | .hdr d => Sys2Proof.Machine.execHdr d s
  | .hdrBadMagic m => Sys2Proof.Machine.execHdrBadMagic m s
  | .hdrBadSize d => Sys2Proof.Machine.execHdrBadSize d s
  | .blk bcrc rand origPtr => Sys2Proof.Machine.execBlk bcrc rand origPtr s
  | .eos scrc => Sys2Proof.Machine.execEos scrc s
  | .badMark m => Sys2Proof.Machine.execBadMark m s
  | .inUse groupMap groupBits => Sys2Proof.Machine.execInUse groupMap groupBits s
  | .nTrees t => Sys2Proof.Machine.execNTrees t s
  | .nSel n => Sys2Proof.Machine.execNSel n s
  | .sel j => Sys2Proof.Machine.execSel j s
  | .selOverrun ones => Sys2Proof.Machine.execSelOverrun ones s
  | .lBase l => Sys2Proof.Machine.execLBase l s
  | .lEnd => Sys2Proof.Machine.execLEnd s
  | .lInc => Sys2Proof.Machine.execLInc s
  | .lDec => Sys2Proof.Machine.execLDec s
  | .runA code => Sys2Proof.Machine.execRunA code s
  | .runB code => Sys2Proof.Machine.execRunB code s
  | .mtf v code => Sys2Proof.Machine.execMtf v code s
  | .eob code => Sys2Proof.Machine.execEob code s
  | .huffNoMatch bits => Sys2Proof.Machine.execHuffNoMatch bits s
  | .invalidSym v code => Sys2Proof.Machine.execInvalidSym v code s
  | .lit b => Sys2Proof.Machine.execLit b s
  | .count n => Sys2Proof.Machine.execCount n s
  | .rleTrunc => Sys2Proof.Machine.execRleTrunc s
  | .reset source owns => Sys2Proof.Machine.execReset source owns s
  | .read count => Sys2Proof.Machine.execRead count s
  | .close => Sys2Proof.Machine.execClose s
  | .getCaps => Sys2Proof.Machine.execGetCaps s
  | .getLength args => Sys2Proof.Machine.execGetLength args s
  | .getPosition args => Sys2Proof.Machine.execGetPosition args s
  | .setPosition args => Sys2Proof.Machine.execSetPosition args s
  | .seek args => Sys2Proof.Machine.execSeek args s
  | .setLength args => Sys2Proof.Machine.execSetLength args s
  | .write args => Sys2Proof.Machine.execWrite args s

end Sys2Proof.Machine
end

