-- ==== Sys2Proof/Machine/InverseBwt.lean ====
section
/-! DEFINITION. inverse_bwt_engine (43_inverse_bwt.md). -/

namespace Sys2Proof.Machine

/-- Adds 1 to a table's entry. -/
def bump (table : List Nat) (i : Nat) : List Nat := table.set i (tableGet table i + 1)

/-- The frequency count over `BUF[0..N-1]` (43_inverse_bwt.md R221). -/
def byteCounts (bytes : List Byte) : List Nat := bytes.foldl (fun f b => bump f b.toNat) (List.replicate 256 0)

/-- The cumulative offsets from `sum` on (43_inverse_bwt.md R222). -/
def offsetsFrom (sum : Nat) : List Nat → List Nat
  | [] => []
  | f :: rest => sum :: offsetsFrom (sum + f) rest

/-- The pointer table (43_inverse_bwt.md R223): position `i` goes to the next free entry of its byte's bucket. Answers `TT`
and `CUM`. -/
def pointerLoop (limit : Nat) : (i : Nat) → List Byte → (cum : List Nat) → (tt : List (Nat × Nat)) →
    Except Fault (List (Nat × Nat) × List Nat)
  | _, [], cum, tt => .ok (tt, cum)
  | i, b :: rest, cum, tt => do
    let tt' ← writeEntry limit .tt tt (tableGet cum b.toNat) i
    pointerLoop limit (i + 1) rest (bump cum b.toNat) tt'

/-- The chain walk (43_inverse_bwt.md R224): `left` steps from output index `k`. Answers `RECON` and the last `FOCUS`. -/
def chainWalk (limit : Nat) (buf : List Host.Cell) (tt : List (Nat × Nat)) :
    (left k focus : Nat) → (recon : List Host.Cell) → Except Fault (List Host.Cell × Nat)
  | 0, _, focus, recon => .ok (recon, focus)
  | left + 1, k, focus, recon => do
    let b ← readEntry limit .buf buf focus
    let recon' ← writeEntry limit .recon recon k b
    let focus' ← readEntry limit .tt tt focus
    chainWalk limit buf tt left (k + 1) focus' recon'

/-- The steps of 43_inverse_bwt.md R221 to R224, for `ORIG_PTR < N`. `K` keeps the last value the walk gives it
(assumption log 14). -/
def invertBlock (s : State) : Except Fault State := do
  let bytes ← readRun s.entries .buf s.mem.buf 0 s.sym.n
  let freq := byteCounts bytes
  let (tt, cum) ← pointerLoop s.entries 0 bytes (offsetsFrom 0 freq) s.mem.tt
  let first ← readEntry s.entries .tt tt s.blk.origPtr.toNat
  let (recon, focus) ← chainWalk s.entries s.mem.buf tt s.sym.n 0 first s.mem.recon
  return { s with
    bwt := ⟨freq, cum, focus, s.sym.n - 1⟩
    mem := { s.mem with tt := tt, recon := recon } }.goto .derand

/-- The inverse BWT, with its entry check (43_inverse_bwt.md R220). -/
def inverseBwt (s : State) : Except Fault State :=
  if s.sym.n ≤ s.blk.origPtr.toNat then .ok (raiseFault .badOrigPtr s) else invertBlock s

end Sys2Proof.Machine
end

