-- ==== Sys2Proof/Machine/Fetch.lean ====
section
/-! DEFINITION. What a step does next: an element or a host command to execute, or a stage of the pseudocode that has no
instruction (30_encoding.md R115, 47_stream_control.md R281, R282, R287, R291). -/

namespace Sys2Proof.Machine

/-- The work of one step. -/
inductive Work where
  /-- A stage with no instruction, and its outcome. -/
  | stage (r : Result)
  /-- An instruction, and the state it is executed in. -/
  | instr (i : Instr) (s : State)

/-- The stream bits from `BITPOS` on, as many as the element can take (40_bit_reader.md R140). -/
def State.fetchBits (ctx : DecodeCtx) (s : State) : List Bool :=
  streamBits s.reader.src s.reader.bitpos ctx.window

/-- Decoded bits as work: the instruction at state `s`. -/
def workOf (s : State) : Decoded → Work
  | .ok (i, _) => .instr i s
  | .error e => .stage (.refused (.undecodable e))

/-- The next element of the compressed stream. -/
def fetchStream (ctx : DecodeCtx) (s : State) : Work := workOf s (decode ctx (s.fetchBits ctx))

/-- The next byte of `RECON` as bits; none when the block has ended (46_output_rle.md R266). -/
def reconBits (s : State) : Except Fault (List Bool) :=
  if s.exp.pos = s.sym.n then .ok []
  else do
    let b ← readEntry s.entries .recon s.mem.recon s.exp.pos
    return bitsOf 8 b.toNat

/-- `ExpandNext()` (46_output_rle.md R266): an owed copy, the end of the block (`atEnd`), or the byte of `RECON` at
`EXP_POS`. -/
def expandNext (atEnd : Result) (s : State) : Work :=
  if 0 < s.exp.rep then .stage (.next (owedCopy s))
  else if s.exp.pos = s.sym.n ∧ s.exp.run ≠ 4 then .stage atEnd
  else
    match reconBits s with
    | .ok bits => workOf s (decode (.recon s.exp.run) bits)
    | .error f => .stage (.fault f)

/-- The next symbol (41_huffman.md R180, R181): no bit of it is read once the selectors are used up. -/
def fetchSymbol (s : State) : Work :=
  if selectorsUsedUp s then .stage (.next (raiseFault .selectorsExhausted (nextGroup s)))
  else
    let s := takeSymbolSlot s
    fetchStream (.symbol (currentTree s) s.tab.numInUse) s

/-- The next bit of a length code (41_huffman.md R179): the range check comes first. -/
def fetchLengthCode (s : State) : Work :=
  if lengthOutOfRange s.seq.cur then .stage (.next (raiseFault .badCodeLength s)) else fetchStream .lCode s

/-- Between commands (47_stream_control.md R281, R282): the next command, or nothing. A command that R280 does not name is
answered by R302. -/
def takeCommand (s : State) : Work :=
  match s.host.cmds with
  | [] => .stage (.next s)
  | c :: rest =>
    let s := { s with host := { s.host with cmds := rest } }
    match decodeCommand c with
    | some i => .instr i s
    | none => .stage (.next (refuseUnsupported s))

/-- The work by the engine's position, whatever the source answers. -/
def plannedWork (s : State) : Work :=
  match s.seq.pos with
  | .idle => takeCommand s
  | .header => fetchStream .header s
  | .marker => fetchStream .marker s
  | .inUse => fetchStream .inUse s
  | .nTrees => fetchStream .nTrees s
  | .nSel => fetchStream .nSel s
  | .sel => fetchStream (.sel s.tab.numTrees) s
  | .lBase => fetchStream .lBase s
  | .lCode => fetchLengthCode s
  | .build => .stage (.next (buildTree s))
  | .startSymbols => .stage (.next (startSymbols s))
  | .symbol => fetchSymbol s
  | .invBwt => .stage (outcomeOf (inverseBwt s))
  | .derand => .stage (outcomeOf (derandomise s))
  | .prepassStart => .stage (.next (startPrepass s))
  | .prepass => expandNext (.next (finishPrepass s)) s
  | .release => if s.seq.readLeft = 0 then .stage (.next (releaseDone s)) else expandNext (.fault .releaseEnded) s

/-- An element is executed once the source has answered every request it makes, and waits where it stands until then
(40_bit_reader.md R141, 47_stream_control.md R303; assumption log 16). -/
def waitFor (s : State) : Work → Work
  | .stage r => .stage r
  | .instr i t => if t.reader.answers (readWidths i) then .instr i t else .stage (.next s.awaitSource)

/-- The work of the next step. -/
def nextWork (s : State) : Work := waitFor s (plannedWork s)

/-! ### Placing a word of the opcode table -/

/-- Bits as whole bytes, the last one filled with zeros (20_memory.md R85). -/
def bytesOf : (count : Nat) → List Bool → List Byte
  | 0, _ => []
  | n + 1, bits =>
    BitVec.ofNat 8 (ofBits (bits.take 8 ++ List.replicate (8 - bits.length) false)) :: bytesOf n (bits.drop 8)

/-- The engine inside a READ, before the element of `ctx`, whose bits are a fresh, prompt stream's first bits (for a `RECON` byte:
the block's last byte). What the fetch and its checks need is set, and nothing else (assumption log 11). -/
def placeAt (ctx : DecodeCtx) (bits : List Bool) (s : State) : State :=
  let stream (p : Position) (ph : Phase) : State :=
    { s with
      reader := Reader.start (.prompt (bytesOf ((bits.length + 7) / 8) bits))
      ctrl := { s.ctrl with phase := ph }
      seq := { s.seq with pos := p } }
  match ctx with
  | .header => stream .header .header
  | .marker => stream .marker .blockPending
  | .inUse => stream .inUse .blockPending
  | .nTrees => stream .nTrees .blockPending
  | .nSel => stream .nSel .blockPending
  | .sel n =>
    let s := stream .sel .blockPending
    { s with tab := { s.tab with numTrees := n } }
  | .lBase => stream .lBase .blockPending
  | .lCode =>
    let s := stream .lCode .blockPending
    { s with seq := { s.seq with cur := if lengthOutOfRange s.seq.cur then 1 else s.seq.cur } }
  | .symbol t n =>
    let s := stream .symbol .blockPending
    { s with
      tab := { s.tab with numInUse := n, trees := s.tab.trees.set s.sym.curTree t }
      sym := { s.sym with groupLeft := 1 } }
  | .recon run =>
    { s with
      ctrl := { s.ctrl with phase := .blockPending, capacity := max s.ctrl.capacity (s.exp.pos + 1) }
      exp := { s.exp with run := run, rep := 0 }
      sym := { s.sym with n := s.exp.pos + 1 }
      mem := { s.mem with
        allocated := true
        recon := cellWrite s.mem.recon s.exp.pos (BitVec.ofNat 8 (ofBits bits)) }
      seq := { s.seq with pos := .prepass } }

/-- The state in which the next step fetches a word of the opcode table; a width the table does not have changes nothing. -/
def placeTableWord (nbits w : Nat) (s : State) : State :=
  match tableWindow nbits w with
  | some (ctx, bits) => placeAt ctx bits s
  | none => s

end Sys2Proof.Machine
end

