-- ==== Sys2Proof/Machine/Step.lean ====
section
/-! DEFINITION. One step: the next element, command or stage (assumption log 1). A host command is the steps from the one
that takes it to the one that answers it. -/

namespace Sys2Proof.Machine

/-- One step of the engine. -/
def step (s : State) : Host.Outcome State Fault Refusal :=
  match nextWork s with
  | .stage r => r
  | .instr i t => exec i t

/-- `s` with a word of the opcode table where the next step fetches it (assumption logs 10 and 11). -/
def State.withFetchWord (s : State) (nbits w : Nat) : State := placeTableWord nbits w s

end Sys2Proof.Machine
end

