-- ==== Sys2Proof/Safety.lean ====
section
/-! DEFINITION. What counts as a sound state and a safe run, in the terms the statements use: the invariants of the spec's
derived rules, and the pure forms of two stages (the outer run-length expansion, the length check). -/

namespace Sys2Proof

/-- An instruction that the grammar position admits, in a block with that position's context (30_encoding.md R100, R109,
R115). A symbol's code depends on the tree and is stated apart (`canonCode`). -/
def DecodeCtx.admits : DecodeCtx → Instr → Bool
  | .header, .hdr _ => true
  | .header, .hdrBadMagic _ => true
  | .header, .hdrBadSize _ => true
  | .marker, .blk _ _ _ => true
  | .marker, .eos _ => true
  | .marker, .badMark _ => true
  | .inUse, .inUse _ _ => true
  | .nTrees, .nTrees _ => true
  | .nSel, .nSel _ => true
  | .sel numTrees, .sel j => decide (j < numTrees)
  | .sel numTrees, .selOverrun ones => decide (ones = numTrees)
  | .lBase, .lBase _ => true
  | .lCode, .lEnd => true
  | .lCode, .lInc => true
  | .lCode, .lDec => true
  | .recon run, .lit _ => decide (run ≠ 4)
  | .recon run, .count _ => decide (run = 4)
  | _, _ => false

/-- An element of the compressed stream: neither a byte of `RECON` nor a host command (30_encoding.md R101). -/
def Instr.inStream : Instr → Bool
  | .lit _ => false
  | .count _ => false
  | .rleTrunc => false
  | .reset _ _ => false
  | .read _ => false
  | .close => false
  | .getCaps => false
  | .getLength _ => false
  | .getPosition _ => false
  | .setPosition _ => false
  | .seek _ => false
  | .setLength _ => false
  | .write _ => false
  | _ => true

/-- A list of code lengths that gives a tree: each in 1 to 20 (41_huffman.md R160) and not oversubscribed (R163). -/
def AcceptedLengths (lens : List Nat) : Prop := (∀ l ∈ lens, 1 ≤ l ∧ l ≤ 20) ∧ kraftSum lens ≤ 2 ^ 20

namespace Machine

/-- 40_bit_reader.md R147, "true between any two operations". -/
structure Reader.Inv (r : Reader) : Prop where
  cnt_le : r.cnt ≤ 31
  position : 8 * r.srcPos = r.bitpos + r.cnt
  even : r.srcPos % 2 = 0
  buffered : r.acc.toNat % 2 ^ r.cnt = ofBits (streamBits r.src r.bitpos r.cnt)

/-- Every offset that `ReadBits` of each width in turn requests is one the source answers (47_stream_control.md R303). -/
def AllAnswered (r : Reader) (widths : List Nat) : Prop :=
  ∀ k, r.srcPos ≤ k → k < (r.advance widths).srcPos → ∀ m, r.pace.ready = some m → k < m

/-- The three memories are in canonical form. -/
def MemoryCanonical (s : State) : Prop := Memory.wf s.mem.buf ∧ Memory.wf s.mem.tt ∧ Memory.wf s.mem.recon

/-- Entries 0 to `n - 1` hold values. -/
def Written {α : Type} (m : List (Nat × α)) (n : Nat) : Prop := ∀ k < n, (cellRead m k).isSome = true

/-- The positions inside NextMarker and DecodeBlock (47_stream_control.md R289 to R291). -/
def Position.inBlock : Position → Bool
  | .idle => false
  | .header => false
  | .release => false
  | _ => true

/-- Where the engine stands agrees with `PHASE` (47_stream_control.md R283): between commands a READ never leaves
BLOCK_PENDING (10_state.md R33), after CLOSE nothing is in progress (47_stream_control.md R301), and `FAULT_CODE` is 0
outside FAULTED and 1 to 17 in it (10_state.md R34). -/
structure PhaseInv (s : State) : Prop where
  idle : s.seq.pos = .idle → s.ctrl.phase ≠ .blockPending
  header : s.seq.pos = .header → s.ctrl.phase = .header
  inBlock : s.seq.pos.inBlock = true → s.ctrl.phase = .blockPending
  release : s.seq.pos = .release → s.ctrl.phase = .blockActive
  closed : s.ctrl.closed = true → s.seq.pos = .idle
  fault : (s.ctrl.phase = .faulted ↔ s.ctrl.faultCode ≠ 0) ∧ s.ctrl.faultCode.toNat ≤ 17

/-- The positions between the inverse BWT and the end of the pre-pass. -/
def Position.afterBwt : Position → Bool
  | .derand => true
  | .prepassStart => true
  | .prepass => true
  | _ => false

/-- A block is active and its bytes can still be read: in the release pass, or between commands. -/
def State.active (s : State) : Bool := decide (s.ctrl.phase = .blockActive) && !s.ctrl.closed

/-- Every memory access of the next stage is in range and reads what the current block has written (20_memory.md R81, R96;
43_inverse_bwt.md R226). -/
structure MemorySafe (s : State) : Prop where
  allocated : s.seq.pos.inBlock = true ∨ s.active = true → s.mem.allocated = true
  symbols : s.seq.pos = .symbol → s.sym.n + s.sym.runLen ≤ s.ctrl.capacity ∧ Written s.mem.buf s.sym.n
  block : s.seq.pos = .invBwt → s.sym.n ≤ s.ctrl.capacity ∧ Written s.mem.buf s.sym.n
  recon : s.seq.pos.afterBwt = true ∨ s.active = true → s.sym.n ≤ s.ctrl.capacity ∧ Written s.mem.recon s.sym.n
  expander : s.seq.pos = .prepass ∨ s.active = true →
    s.exp.pos ≤ s.sym.n ∧ s.exp.run ≤ 4 ∧ (1 ≤ s.exp.run ∨ 1 ≤ s.exp.rep → s.exp.prev ≠ none)

/-- The outer run-length expansion of bytes (46_output_rle.md R266 to R270), from `run` identical bytes `prev` just seen;
`none` where the bytes end with a count byte due. -/
def expandFrom : (run : Nat) → (prev : Option Byte) → List Byte → Option (List Byte)
  | run, _, [] => if run = 4 then none else some []
  | run, prev, b :: rest =>
    if run = 4 then (expandFrom 0 prev rest).map fun out => List.replicate b.toNat (prev.getD 0) ++ out
    else (expandFrom (if 1 ≤ run ∧ prev = some b then run + 1 else 1) (some b) rest).map fun out => b :: out

/-- The expanded block of reconstructed bytes (46_output_rle.md R265, R266). -/
def expand (bytes : List Byte) : Option (List Byte) := expandFrom 0 none bytes

/-- The bytes of `RECON` from entry `k` up to `N`; entries without value read as 0. -/
def reconFrom (s : State) (k : Nat) : List Byte :=
  (List.range (s.sym.n - k)).map fun j => (cellRead s.mem.recon (k + j)).getD 0

/-- The bytes `ExpandNext()` still returns (46_output_rle.md R266): the copies owed, then the expansion of the rest. -/
def expansionLeft (s : State) : Option (List Byte) :=
  (expandFrom s.exp.run s.exp.prev (reconFrom s s.exp.pos)).map fun out =>
    List.replicate s.exp.rep (s.exp.prev.getD 0) ++ out

/-- `EXP_REMAINING` counts the bytes the release pass still returns (46_output_rle.md R271, R272), and the pre-pass counts
towards the length of the whole expansion. -/
structure ReleaseExact (s : State) : Prop where
  prepass : s.seq.pos = .prepass →
    (expandFrom 0 none (reconFrom s 0)).map List.length = (expansionLeft s).map fun out => s.seq.expCount + out.length
  active : s.active = true → (expansionLeft s).map List.length = some s.exp.remaining
  amount : s.seq.pos = .release → s.seq.readLeft ≤ s.exp.remaining

/-- The state of a run: what every state reached from reset satisfies. -/
structure Sound (s : State) : Prop where
  phase : PhaseInv s
  memory : MemorySafe s
  release : ReleaseExact s

/-- A DATA response carries 1 to `count` bytes (47_stream_control.md R280, R295), and an active block always has a byte to
release (46_output_rle.md R273). -/
structure ReadBounds (s : State) : Prop where
  emitting : s.seq.pos = .release →
    1 ≤ s.seq.data.length + s.seq.readLeft ∧ s.seq.data.length + s.seq.readLeft ≤ s.seq.readCount ∧
      s.seq.readLeft ≤ s.exp.remaining ∧ s.seq.drained = false
  drained : s.seq.pos.inBlock = true → s.seq.drained = true → 1 ≤ s.seq.data.length ∧ s.seq.data.length ≤ s.seq.readCount
  fresh : s.seq.pos = .header ∨ (s.seq.pos.inBlock = true ∧ s.seq.drained = false) → s.seq.data = [] ∧ 1 ≤ s.seq.readCount
  header : s.seq.pos = .header → s.seq.drained = false
  block : s.seq.pos.afterBwt = true → 1 ≤ s.sym.n
  counted : s.seq.pos = .prepass → 1 ≤ s.seq.expCount ∨ (s.exp.pos = 0 ∧ s.exp.run = 0 ∧ s.exp.rep = 0)
  remaining : s.seq.pos = .idle → s.active = true → 1 ≤ s.exp.remaining

/-- The registers keep to the widths and legal values of 10_state.md (R36, R37, R48, R54, R55, R59, R60). -/
structure RegisterRanges (s : State) : Prop where
  factor : s.ctrl.factor ≤ 9
  capacity : s.ctrl.capacity = s.ctrl.factor * Config.blockUnit
  numTrees : s.tab.numTrees ≤ 6
  numSel : s.tab.numSel ≤ 32767
  numInUse : s.tab.numInUse ≤ 256 ∧ s.tab.numInUse = s.tab.inUseList.length
  alpha : s.tab.alpha ≤ 258
  groupLeft : s.sym.groupLeft ≤ 50
  groupIdx : -1 ≤ s.sym.groupIdx ∧ s.sym.groupIdx ≤ 32767
  group : s.seq.pos = .symbol → s.sym.groupIdx < s.tab.numSel
  runShift : s.sym.runShift ≤ 20
  runLen : s.seq.pos = .symbol → 2 ^ s.sym.runShift ≤ s.sym.runLen + 1 ∧ s.sym.n + s.sym.runLen ≤ s.ctrl.capacity
  ntogo : s.rnd.ntogo ≤ 999
  tpos : s.rnd.tpos ≤ 511
  expRun : s.exp.run ≤ 4
  expRep : s.exp.rep ≤ 255

/-- How far a position is into the set-up of a block's tables (47_stream_control.md R291); 0 outside it. -/
def Position.setupRank : Position → Nat
  | .nTrees => 1
  | .nSel => 2
  | .sel => 3
  | .lBase => 4
  | .lCode => 4
  | .build => 5
  | .startSymbols => 6
  | .symbol => 7
  | _ => 0

/-- The tables of the block being decoded are what 10_state.md R46 to R54 and 41_huffman.md R160 say they hold, as far as
they have been written. -/
structure TablesInv (s : State) : Prop where
  shape : s.tab.len.length = 6 ∧ (∀ l ∈ s.tab.len, l.length = 258) ∧ s.tab.trees.length = 6
  inUse : s.tab.numInUse = s.tab.inUseList.length ∧ s.tab.numInUse ≤ 256
  alpha : 1 ≤ s.seq.pos.setupRank → s.tab.alpha = s.tab.numInUse + 2
  numTrees : 2 ≤ s.seq.pos.setupRank → 2 ≤ s.tab.numTrees ∧ s.tab.numTrees ≤ 6
  selMtf : 3 ≤ s.seq.pos.setupRank → (s.tab.selMtf.take s.tab.numTrees).Perm (List.range s.tab.numTrees)
  selector : 3 ≤ s.seq.pos.setupRank → ∀ k < s.seq.selIdx, ∃ v, s.tab.selector[k]? = some v ∧ v < s.tab.numTrees
  selectorsRead : 4 ≤ s.seq.pos.setupRank → s.tab.numSel ≤ s.seq.selIdx
  building : s.seq.pos = .build → s.seq.treeIdx < s.tab.numTrees
  trees : 5 ≤ s.seq.pos.setupRank → ∀ t < (if s.seq.pos = .build then s.seq.treeIdx else s.tab.numTrees),
    ∃ lens, AcceptedLengths lens ∧ lens.length = s.tab.alpha ∧ s.tab.trees[t]? = some (buildTables lens)
  mtf : s.seq.pos = .symbol → (s.sym.mtf.take s.tab.numInUse).Perm s.tab.inUseList
  group : s.seq.pos = .symbol → -1 ≤ s.sym.groupIdx ∧ (s.sym.groupIdx = -1 → s.sym.groupLeft = 0) ∧
    (0 ≤ s.sym.groupIdx → s.sym.groupIdx < s.tab.numSel ∧ s.tab.selector[s.sym.groupIdx.toNat]? = some s.sym.curTree)

/-- The state in which a fault with a code has been raised (60_exceptions.md R311, R312), written out. -/
def State.faultedWith (code : Nat) (s : State) : State :=
  { s with
    ctrl := { s.ctrl with faultCode := BitVec.ofNat 5 code, phase := .faulted }
    host := { s.host with responses := s.host.responses ++ [.fault (BitVec.ofNat 5 code)] }
    seq := { s.seq with pos := .idle, data := [] } }

/-- The state in which a command has been answered and nothing else is changed. -/
def State.answered (r : Response) (s : State) : State :=
  { s with host := { s.host with responses := s.host.responses ++ [r] } }

/-- The run length of a digit sequence, first digit first, false for RUNA and true for RUNB (42_mtf_symbols.md R204):
`Σ (d_i + 1) · 2^i`. -/
def runValue : List Bool → Nat
  | [] => 0
  | d :: rest => (d.toNat + 1) + 2 * runValue rest

/-- `S_m` (44_derandomizer.md R239). -/
def derandSum (m : Nat) : Nat := ((List.range (m + 1)).map fun j => rnums.getD (j % 512) 0).sum

/-- The bytes of `BUF[0..N-1]`; entries without value read as 0. -/
def bufBytes (s : State) : List Byte := (List.range s.sym.n).map fun k => (cellRead s.mem.buf k).getD 0

/-- 1 while a command is in progress (47_stream_control.md R281, R282). -/
def State.busy (s : State) : Nat := if s.seq.pos = .idle then 0 else 1

/-- The element the engine decodes next, and the state it is executed in (41_huffman.md R179, R180; 47_stream_control.md
R287 to R291): none between commands, in a stage with no instruction, and where a check comes before the next bit is read. -/
def elementNext (s : State) : Option (DecodeCtx × State) :=
  match s.seq.pos with
  | .header => some (.header, s)
  | .marker => some (.marker, s)
  | .inUse => some (.inUse, s)
  | .nTrees => some (.nTrees, s)
  | .nSel => some (.nSel, s)
  | .sel => some (.sel s.tab.numTrees, s)
  | .lBase => some (.lBase, s)
  | .lCode => if 1 ≤ s.seq.cur ∧ s.seq.cur ≤ 20 then some (.lCode, s) else none
  | .symbol =>
    if s.sym.groupLeft = 0 ∧ (s.tab.numSel : Int) ≤ s.sym.groupIdx + 1 then none
    else
      let t := takeSymbolSlot s
      some (.symbol (currentTree t) t.tab.numInUse, t)
  | _ => none

/-- The engine waits for the source: its next element makes a request that is not answered (47_stream_control.md R303). -/
def Waiting (s : State) : Prop :=
  ∃ ctx t i rest, elementNext s = some (ctx, t) ∧
    decode ctx (streamBits s.reader.src s.reader.bitpos ctx.window) = .ok (i, rest) ∧
    ¬ AllAnswered s.reader (readWidths i)

end Machine

end Sys2Proof
end

