-- ==== Sys2Proof/Certificates/Slice0/Obligations.lean ====
section
/-! DEFINITION. The statements for the provers. Each docstring names the rules it formalises. A reader whose bits are
counted is written `s.reader.advance widths`: what that does is `Obligations.ReadBitsReturnsStreamBits` and
`Obligations.SourcePositionFormula`. -/

open Sys2Proof Sys2Proof.Machine

/-! ### Encodings -/

/-- 30_encoding.md R100 to R113: every well-formed element, at the grammar position that admits it, is what its encoding
decodes to, with every operand, and the bits after it are left. -/
def Obligations.DecodeInvertsEncode : Prop :=
  ∀ (ctx : DecodeCtx) (i : Instr) (rest : List Bool), i.wf = true → ctx.admits i = true →
    decode ctx (encode i ++ rest) = .ok (i, rest)

/-- Whatever bits decode, the encoding of the element is exactly the bits consumed: no bit is skipped or ignored
(30_encoding.md R114, R115; 20_memory.md R87). -/
def Obligations.EncodeInvertsDecode : Prop :=
  ∀ (ctx : DecodeCtx) (bits rest : List Bool) (i : Instr), decode ctx bits = .ok (i, rest) → encode i ++ rest = bits

/-- 41_huffman.md R162, R164: the canonical code of symbol `v` decodes to `v`, in its class, after exactly its bits. -/
def Obligations.CanonicalCodeDecodes : Prop :=
  ∀ (lens : List Nat) (v numInUse : Nat) (rest : List Bool), AcceptedLengths lens → v < lens.length →
    decode (.symbol (buildTables lens) numInUse) (canonCode lens v ++ rest) =
      .ok (symbolInstr numInUse v (canonCode lens v), rest)

/-- 41_huffman.md R165, R166: bits that begin with no code of the tree are a no-match after exactly `MAXLEN` bits, and a
complete tree has none. -/
def Obligations.UnusedCodeSpaceIsNoMatch : Prop :=
  ∀ (lens : List Nat) (numInUse : Nat) (bits : List Bool), AcceptedLengths lens →
    (buildTables lens).maxLen ≤ bits.length →
    ((∀ v < lens.length, ∀ tail, bits ≠ canonCode lens v ++ tail) →
      decode (.symbol (buildTables lens) numInUse) bits =
        .ok (.huffNoMatch (bits.take (buildTables lens).maxLen), bits.drop (buildTables lens).maxLen)) ∧
    (kraftSum lens = 2 ^ 20 → ∃ v tail, v < lens.length ∧ bits = canonCode lens v ++ tail)

/-- 30_encoding.md R112, 41_huffman.md R160, 42_mtf_symbols.md R201: a tree over `ALPHA = NUM_IN_USE + 2` symbols returns a
value below `ALPHA`, so INVALID_SYM is never decoded and an MTF value is 2 to `NUM_IN_USE`. -/
def Obligations.DecodedSymbolInAlphabet : Prop :=
  ∀ (lens : List Nat) (numInUse : Nat) (bits rest : List Bool) (i : Instr), lens.length = numInUse + 2 →
    decode (.symbol (buildTables lens) numInUse) bits = .ok (i, rest) →
    (∀ v code, i ≠ .invalidSym v code) ∧ ∀ v code, i = .mtf v code → 2 ≤ v ∧ v ≤ numInUse

/-- 41_huffman.md R161: what BuildTree computes from lengths in 1 to 20, entry by entry. -/
def Obligations.TreeTablesFollowLengths : Prop :=
  ∀ lens : List Nat, (∀ l ∈ lens, 1 ≤ l ∧ l ≤ 20) →
    (∀ l, 1 ≤ l → l ≤ 20 → (buildTables lens).countAt l = lens.countP fun x => x == l) ∧
    (buildTables lens).firstCodeAt 1 = 0 ∧ (buildTables lens).firstIndexAt 1 = 0 ∧
    (∀ l, 1 ≤ l → l < 20 →
      (buildTables lens).firstCodeAt (l + 1) = ((buildTables lens).firstCodeAt l + (buildTables lens).countAt l) * 2 ∧
      (buildTables lens).firstIndexAt (l + 1) = (buildTables lens).firstIndexAt l + (buildTables lens).countAt l) ∧
    (buildTables lens).perm.Perm (List.range lens.length) ∧
    (buildTables lens).perm.Pairwise (fun a b =>
      lens.getD a 0 < lens.getD b 0 ∨ (lens.getD a 0 = lens.getD b 0 ∧ a < b)) ∧
    (∀ l ∈ lens, l ≤ (buildTables lens).maxLen) ∧ (lens ≠ [] → (buildTables lens).maxLen ∈ lens)

/-- 41_huffman.md R163: BuildTree rejects a tree exactly when its Kraft sum is above `2^20`, which is the same test as a
code of some length that does not fit in that many bits. -/
def Obligations.OversubscribedTreeIsRejected : Prop :=
  (∀ lens : List Nat, (∀ l ∈ lens, 1 ≤ l ∧ l ≤ 20) →
    (2 ^ 20 < kraftSum lens ↔
      ∃ l, 1 ≤ l ∧ l ≤ 20 ∧ 2 ^ l < (buildTables lens).firstCodeAt l + (buildTables lens).countAt l)) ∧
  ∀ s : State, s.seq.pos = .build → (∀ l ∈ treeLengths s s.seq.treeIdx, 1 ≤ l ∧ l ≤ 20) →
    (2 ^ 20 < kraftSum (treeLengths s s.seq.treeIdx) → step s = .next (s.faultedWith 9)) ∧
    (kraftSum (treeLengths s s.seq.treeIdx) ≤ 2 ^ 20 →
      step s = .next { s with
        tab := { s.tab with trees := s.tab.trees.set s.seq.treeIdx (buildTables (treeLengths s s.seq.treeIdx)) }
        seq := { s.seq with
          treeIdx := s.seq.treeIdx + 1
          pos := if s.seq.treeIdx + 1 < s.tab.numTrees then .build else .startSymbols } })

/-- Words written out from 30_encoding.md R102, R104, R107, R108, R109, R110, R113 and R116 decode to the elements they
stand for. The clauses over `decodeTableWord` rest on the model's choice of a grammar position for each width of the opcode
table (assumption log 10, DESIGN CHOICE); those over `decode` name the position. -/
def Obligations.SpecWordsDecode : Prop :=
  decodeTableWord 32 0x425A6839 = some (.hdr 9) ∧
  decodeTableWord 32 0x425A6830 = some (.hdrBadSize 0x30) ∧
  decodeTableWord 32 0x425A6939 = some (.hdrBadMagic 0x425A69) ∧
  decodeTableWord 48 0x314159265358 = some (.badMark 0x314159265358) ∧
  decodeTableWord 80 0x177245385090EFB6EC01 = some (.eos 0xEFB6EC01) ∧
  decodeTableWord 105 (0x314159265359 * 2 ^ 57 + 0xEFB6EC01 * 2 ^ 25 + 2 ^ 24 + 3) = some (.blk 0xEFB6EC01 true 3) ∧
  decode .marker (bitsOf 48 0x314159265359 ++ bitsOf 32 0xEFB6EC01 ++ bitsOf 1 0 ++ bitsOf 24 3) =
    .ok (.blk 0xEFB6EC01 false 3, []) ∧
  decode .nSel [true, false, false, false, false, false, false, false, false, false, false, false, false, true, false] =
    .ok (.nSel 0x4002, []) ∧
  decode .nTrees [false, true, false] = .ok (.nTrees 2, []) ∧
  decode .lCode [true, false] = .ok (.lInc, []) ∧
  decode .lCode [true, true] = .ok (.lDec, []) ∧
  decode .lCode [false] = .ok (.lEnd, []) ∧
  decode (.sel 3) [true, true, false] = .ok (.sel 2, []) ∧
  decode (.sel 3) [true, true, true] = .ok (.selOverrun 3, [])

/-! ### A step runs the decoded instruction -/

/-- 30_encoding.md R115: where the grammar position names an element, the step is the meaning of the instruction the bits
at `BITPOS` decode to, in the state `elementNext` gives, which is `s` but for the group registers of 41_huffman.md R180.
40_bit_reader.md R141, 47_stream_control.md R303: an element that requests a byte the source does not answer yet waits where
it stands, and with a source that never answers it waits for ever, so the READ never responds. That the whole element waits
and that a wait is a step are the model's choice (assumption log 16). -/
def Obligations.StepExecutesElement : Prop :=
  ∀ (s t : State) (ctx : DecodeCtx) (i : Instr) (rest : List Bool), elementNext s = some (ctx, t) →
    decode ctx (streamBits s.reader.src s.reader.bitpos ctx.window) = .ok (i, rest) →
    (AllAnswered s.reader (readWidths i) → step s = exec i t ∧ ∃ idx left tree, t = { s with sym := { s.sym with
      groupIdx := idx, groupLeft := left, curTree := tree } }) ∧
    (¬ AllAnswered s.reader (readWidths i) →
      (∀ ready later, s.reader.pace.later = ready :: later →
        step s = .next { s with reader := { s.reader with pace := ⟨ready, later⟩ } }) ∧
      (s.reader.pace.later = [] → ∀ k, Host.Core.run Sys2Proof.core k s = .next s))

/-- Where the stream at `BITPOS` holds the encoding of a well-formed element that the grammar position admits, the step is
that element's meaning; a canonical code of the current tree likewise (30_encoding.md R100, R111, R115). The source answers
the element's requests; where it does not, `Obligations.StepExecutesElement` says what happens. -/
def Obligations.StepExecutesEncoding : Prop :=
  (∀ (s t : State) (ctx : DecodeCtx) (i : Instr), elementNext s = some (ctx, t) → i.wf = true → ctx.admits i = true →
    streamBits s.reader.src s.reader.bitpos (encode i).length = encode i → AllAnswered s.reader (readWidths i) →
    step s = exec i t) ∧
  ∀ (s t : State) (lens : List Nat) (v numInUse : Nat),
    elementNext s = some (.symbol (buildTables lens) numInUse, t) → AcceptedLengths lens → v < lens.length →
    streamBits s.reader.src s.reader.bitpos (canonCode lens v).length = canonCode lens v →
    AllAnswered s.reader (List.replicate (canonCode lens v).length 1) →
    step s = exec (symbolInstr numInUse v (canonCode lens v)) t

/-- 46_output_rle.md R266, 30_encoding.md R115 item 5: in the pre-pass and in the release pass, an owed copy comes first;
then the byte of `RECON` at `EXP_POS` is a count exactly when `EXP_RUN = 4`; at the end of the block with a count due the
instruction is RLE_TRUNC. While `EXP_PREV` is without value a copy of it is a free value, whatever it be (the model's choice,
assumption log 27). -/
def Obligations.StepExecutesReconByte : Prop :=
  ∀ s : State, s.seq.pos = .prepass ∨ (s.seq.pos = .release ∧ s.seq.readLeft ≠ 0) →
    (0 < s.exp.rep →
      step s = .next (returnByte (s.exp.prev.getD (Config.freePrev s.freeCount)) { s with exp := { s.exp with rep := s.exp.rep - 1 } })) ∧
    (∀ b, s.exp.rep = 0 → s.exp.pos ≠ s.sym.n → s.exp.pos < s.entries → cellRead s.mem.recon s.exp.pos = some b →
      step s = exec (if s.exp.run = 4 then .count b else .lit b) s) ∧
    (s.exp.rep = 0 → s.exp.pos = s.sym.n → s.exp.run = 4 → step s = exec .rleTrunc s)

/-- 47_stream_control.md R280 to R282, R302: between commands a step takes the oldest command and runs it, refuses one that
R280 does not name, and does nothing when none waits. -/
def Obligations.StepTakesCommand : Prop :=
  ∀ s : State, s.seq.pos = .idle →
    (s.host.cmds = [] → step s = .next s) ∧
    (∀ i c rest, encodeCommand i = some c → s.host.cmds = c :: rest →
      step s = exec i { s with host := { s.host with cmds := rest } }) ∧
    (∀ number args rest, s.host.cmds = .other number args :: rest →
      step s = .next (State.answered (.refused (if s.ctrl.closed = true then .closed else .unsupported))
        { s with host := { s.host with cmds := rest } }))

/-! ### Elements of the stream: results and frames -/

/-- 47_stream_control.md R288: HDR sets `FACTOR` and `CAPACITY`, allocates the memories without contents, and the phase is
BLOCK_PENDING; nothing else but the bit reader changes. -/
def Obligations.HdrLoadsCapacity : Prop :=
  ∀ (d : BitVec 4) (s : State), exec (.hdr d) s = .next { s with
    reader := s.reader.advance [8, 8, 8, 8]
    ctrl := { s.ctrl with factor := d.toNat, capacity := d.toNat * 100000, phase := .blockPending }
    mem := ⟨true, [], [], []⟩
    seq := { s.seq with pos := .marker } }

/-- 30_encoding.md R116, 60_exceptions.md R310, R311, R314: each illegal element is read, raises the fault of its code, and
writes nothing else; the missing count byte reads nothing. -/
def Obligations.IllegalElementsFault : Prop :=
  ∀ s : State,
    (∀ m, exec (.hdrBadMagic m) s = .next (State.faultedWith 1 { s with reader := s.reader.advance [8, 8, 8] })) ∧
    (∀ d, exec (.hdrBadSize d) s = .next (State.faultedWith 2 { s with reader := s.reader.advance [8, 8, 8, 8] })) ∧
    (∀ m, exec (.badMark m) s = .next (State.faultedWith 3 { s with reader := s.reader.advance [24, 24] })) ∧
    (∀ ones, exec (.selOverrun ones) s =
      .next (State.faultedWith 7 { s with reader := s.reader.advance (List.replicate ones 1) })) ∧
    (∀ bits, exec (.huffNoMatch bits) s =
      .next (State.faultedWith 10 { s with reader := s.reader.advance (List.replicate bits.length 1) })) ∧
    exec .rleTrunc s = .next (s.faultedWith 15)

/-- 47_stream_control.md R289, R290: BLK reads its marker and loads `STORED_BCRC`, `RAND` and `ORIG_PTR`; nothing else
changes. -/
def Obligations.BlkLoadsBlockHeader : Prop :=
  ∀ (bcrc : Word) (rand : Bool) (origPtr : BitVec 24) (s : State), exec (.blk bcrc rand origPtr) s = .next { s with
    reader := s.reader.advance [24, 24, 32, 1, 24]
    blk := ⟨bcrc, rand, origPtr⟩
    seq := { s.seq with pos := .inUse } }

/-- 47_stream_control.md R293, 45_crc.md R257: EOS checks scrc against `COMBINED_CRC`. On a match the phase is DONE and the
READ answers (R287, R292): the drained block's bytes, or EOF. -/
def Obligations.EosChecksStreamCrc : Prop :=
  ∀ (scrc : Word) (s : State), exec (.eos scrc) s =
    if scrc = s.crc.combined then
      .next (State.answered (if s.seq.drained = true then .data s.seq.data else .eof) { s with
        reader := s.reader.advance [24, 24, 32]
        ctrl := { s.ctrl with phase := .done }
        seq := { s.seq with pos := .idle } })
    else .next (State.faultedWith 17 { s with reader := s.reader.advance [24, 24, 32] })

/-- 42_mtf_symbols.md R190, R202: INUSE lists, in ascending order and without repeats, exactly the byte values its bitmaps
mark: value `b` when the group bit of `b / 16` is set and the field of that group, the next one for each set group bit, has
stream-order bit `b mod 16`. An empty list faults with the list already written. -/
def Obligations.InUseListsMarkedValues : Prop :=
  ∀ (g : BitVec 16) (fields : List (BitVec 16)) (s : State), ∃ list : List Byte,
    (∀ b : Byte, b ∈ list ↔ g.getLsbD (15 - b.toNat / 16) = true ∧
      ∃ f, fields[((List.range (b.toNat / 16)).filter fun i => g.getLsbD (15 - i)).length]? = some f ∧
        f.getLsbD (15 - b.toNat % 16) = true) ∧
    list.Pairwise (fun x y => x.toNat < y.toNat) ∧
    exec (.inUse g fields) s =
      let u : State := { s with
        reader := s.reader.advance (16 :: List.replicate fields.length 16)
        tab := { s.tab with inUseList := list, numInUse := list.length } }
      if list = [] then .next (u.faultedWith 4)
      else .next { u with
        tab := { u.tab with alpha := list.length + 2 }
        seq := { u.seq with pos := .nTrees } }

/-- 41_huffman.md R170 to R172: NTREES accepts 2 to 6 and NSEL 1 to 32,767; NSEL is followed by the identity in `SEL_MTF`.
An illegal count is read and faults with nothing else written. -/
def Obligations.TreeAndSelectorCounts : Prop :=
  (∀ (t : BitVec 3) (s : State), exec (.nTrees t) s =
    if 2 ≤ t.toNat ∧ t.toNat ≤ 6 then .next { s with
      reader := s.reader.advance [3]
      tab := { s.tab with numTrees := t.toNat }
      seq := { s.seq with pos := .nSel } }
    else .next (State.faultedWith 5 { s with reader := s.reader.advance [3] })) ∧
  ∀ (n : BitVec 15) (s : State), exec (.nSel n) s =
    if n = 0 then .next (State.faultedWith 6 { s with reader := s.reader.advance [15] })
    else .next { s with
      reader := s.reader.advance [15]
      tab := { s.tab with
        numSel := n.toNat
        selMtf := List.range s.tab.numTrees ++ s.tab.selMtf.drop s.tab.numTrees }
      seq := { s.seq with selIdx := 0, pos := .sel } }

/-- 41_huffman.md R173: SEL takes the tree at rank `j`, moves it to the front of `SEL_MTF` and writes it as selector `i`,
leaving every other selector; the next element is the next SEL, or the first tree's base. -/
def Obligations.SelMovesRankToFront : Prop :=
  ∀ (j v : Nat) (s : State), s.tab.selMtf[j]? = some v → s.seq.selIdx ≤ s.tab.selector.length →
    ∃ selector : List Nat, selector[s.seq.selIdx]? = some v ∧
      (∀ k, k ≠ s.seq.selIdx → selector[k]? = s.tab.selector[k]?) ∧
      exec (.sel j) s = .next { s with
        reader := s.reader.advance (List.replicate (j + 1) 1)
        tab := { s.tab with selMtf := v :: s.tab.selMtf.eraseIdx j, selector := selector }
        seq := { s.seq with
          selIdx := s.seq.selIdx + 1
          treeIdx := if s.seq.selIdx + 1 < s.tab.numSel then s.seq.treeIdx else 0
          pos := if s.seq.selIdx + 1 < s.tab.numSel then .sel else .lBase } }

/-- 41_huffman.md R175, R177, R178: LBASE starts a tree's list at the base, LINC adds 1 and LDEC subtracts 1 from the running
length; nothing else but the bit reader changes. -/
def Obligations.LengthCodesStep : Prop :=
  ∀ s : State,
    (∀ l : BitVec 5, exec (.lBase l) s = .next { s with
      reader := s.reader.advance [5]
      seq := { s.seq with cur := l.toNat, symIdx := 0, pos := .lCode } }) ∧
    exec .lInc s = .next { s with reader := s.reader.advance [1, 1], seq := { s.seq with cur := s.seq.cur + 1 } } ∧
    ∀ c, s.seq.cur = c + 1 →
      exec .lDec s = .next { s with reader := s.reader.advance [1, 1], seq := { s.seq with cur := c } }

/-- 41_huffman.md R176, R182: LEND writes the running length as the length of symbol `s` of tree `t` and no other entry; the
next element is the next symbol's length, the next tree's base, or BuildTree of tree 0. -/
def Obligations.LendStoresLength : Prop :=
  ∀ s : State, s.seq.treeIdx < s.tab.len.length → s.seq.symIdx < (s.tab.len.getD s.seq.treeIdx []).length →
    ∃ len : List (List Nat),
      (∀ t k, (len.getD t []).getD k 0 =
        if t = s.seq.treeIdx ∧ k = s.seq.symIdx then s.seq.cur else (s.tab.len.getD t []).getD k 0) ∧
      exec .lEnd s = .next { s with
        reader := s.reader.advance [1]
        tab := { s.tab with len := len }
        seq := { s.seq with
          symIdx := if s.seq.symIdx + 1 < s.tab.alpha then s.seq.symIdx + 1 else s.seq.symIdx
          treeIdx := if s.seq.symIdx + 1 < s.tab.alpha then s.seq.treeIdx
            else if s.seq.treeIdx + 1 < s.tab.numTrees then s.seq.treeIdx + 1 else 0
          pos := if s.seq.symIdx + 1 < s.tab.alpha then .lCode
            else if s.seq.treeIdx + 1 < s.tab.numTrees then .lBase else .build } }

/-- 42_mtf_symbols.md R196, R198, R203: RUNA adds `1 << RUN_SHIFT` and RUNB `2 << RUN_SHIFT` to the pending run; a run that
would put more than `CAPACITY` bytes in `BUF` faults, with the run already written. `BUF` and `MTF` do not change. That the
written run is kept exact there, above `CAPACITY` and perhaps above the 20 bits of 10_state.md R55, is the model's reading
(assumption log 9, DEDUCED, unsafe). -/
def Obligations.RunDigitsExtendRun : Prop :=
  ∀ (code : List Bool) (s : State) (d : Nat) (i : Instr), (d = 1 ∧ i = .runA code) ∨ (d = 2 ∧ i = .runB code) →
    exec i s =
      let u : State := { s with
        reader := s.reader.advance (List.replicate code.length 1)
        sym := { s.sym with runLen := s.sym.runLen + d * 2 ^ s.sym.runShift, runShift := s.sym.runShift + 1 } }
      if s.ctrl.capacity < s.sym.n + (s.sym.runLen + d * 2 ^ s.sym.runShift) then .next (u.faultedWith 13)
      else .next { u with seq := { u.seq with pos := .symbol } }

/-- 42_mtf_symbols.md R197, R199, R203: MTF first flushes the pending run as copies of the head, then faults if `BUF` is
full, and else moves the byte at rank `v - 1` to the front and writes it at `N`. Every other entry of `BUF` reads as
before. -/
def Obligations.MtfWritesRankedByte : Prop :=
  ∀ (v : Nat) (code : List Bool) (s : State) (head b : Byte), s.mem.allocated = true →
    s.sym.n + s.sym.runLen ≤ s.ctrl.capacity → s.sym.mtf[0]? = some head → s.sym.mtf[v - 1]? = some b →
    ∃ buf : List Host.Cell,
      (∀ a, cellRead buf a =
        if s.sym.n ≤ a ∧ a < s.sym.n + s.sym.runLen then some head
        else if a = s.sym.n + s.sym.runLen ∧ a < s.ctrl.capacity then some b
        else cellRead s.mem.buf a) ∧
      exec (.mtf v code) s =
        let u : State := { s with
          reader := s.reader.advance (List.replicate code.length 1)
          mem := { s.mem with buf := buf }
          sym := { s.sym with
            n := s.sym.n + s.sym.runLen
            runLen := 0
            runShift := if 0 < s.sym.runLen then 0 else s.sym.runShift } }
        if s.ctrl.capacity < s.sym.n + s.sym.runLen + 1 then .next (u.faultedWith 13)
        else .next { u with
          sym := { u.sym with mtf := b :: s.sym.mtf.eraseIdx (v - 1), n := s.sym.n + s.sym.runLen + 1 }
          seq := { u.seq with pos := .symbol } }

/-- 42_mtf_symbols.md R195, R197, R200, R201: EOB and INVALID_SYM flush the pending run; EOB then goes on to the inverse
BWT and INVALID_SYM faults. That INVALID_SYM flushes before it faults is the model's reading of the order of R195 and R201
(assumption log 22, DEDUCED, unsafe). -/
def Obligations.EobFlushesAndEnds : Prop :=
  ∀ (v : Nat) (code : List Bool) (s : State) (head : Byte), s.mem.allocated = true →
    s.sym.n + s.sym.runLen ≤ s.ctrl.capacity → s.sym.mtf[0]? = some head →
    ∃ buf : List Host.Cell,
      (∀ a, cellRead buf a =
        if s.sym.n ≤ a ∧ a < s.sym.n + s.sym.runLen then some head else cellRead s.mem.buf a) ∧
      let u : State := { s with
        reader := s.reader.advance (List.replicate code.length 1)
        mem := { s.mem with buf := buf }
        sym := { s.sym with
          n := s.sym.n + s.sym.runLen
          runLen := 0
          runShift := if 0 < s.sym.runLen then 0 else s.sym.runShift } }
      exec (.eob code) s = .next { u with seq := { u.seq with pos := .invBwt } } ∧
      exec (.invalidSym v code) s = .next (u.faultedWith 12)

/-! ### Bytes of RECON -/

/-- 46_output_rle.md R266 to R268, R271, R272: LIT outputs its byte once and extends the run of equal bytes or starts one;
COUNT closes the run, outputs nothing itself and owes its value in copies of `EXP_PREV`, the first returned at once. In the
pre-pass a byte returned goes to the CRC and the count, in the release pass to the response. The pass is read from `PHASE`
(assumption log 23, DEDUCED), and `EXP_REMAINING` falls with each byte of the release pass, as R272 says and
47_stream_control.md R287 says of the k bytes together (assumption log 24, DEDUCED, unsafe between two bytes). While `EXP_PREV` is without value it
reads as a free value, whatever it be (assumption log 27, DESIGN CHOICE). -/
def Obligations.LitAndCountExpand : Prop :=
  ∀ (b : Byte) (s : State),
    let toCrc (x : Byte) (u : State) : State := { u with
      crc := { u.crc with running := crcUpdate u.crc.running x }
      seq := { u.seq with expCount := u.seq.expCount + 1 } }
    let toHost (x : Byte) (u : State) : State := { u with
      exp := { u.exp with remaining := u.exp.remaining - 1 }
      seq := { u.seq with data := u.seq.data ++ [x], readLeft := u.seq.readLeft - 1 } }
    let give (x : Byte) (u : State) : State := if s.ctrl.phase = .blockActive then toHost x u else toCrc x u
    let prev := s.exp.prev.getD (Config.freePrev s.freeCount)
    let run := if 1 ≤ s.exp.run ∧ b = prev then s.exp.run + 1 else 1
    let counted (rep : Nat) : State := { s with exp := { s.exp with pos := s.exp.pos + 1, run := 0, rep := rep } }
    exec (.lit b) s = .next (give b { s with exp := { s.exp with pos := s.exp.pos + 1, run := run, prev := some b } }) ∧
    (b = 0 → exec (.count b) s = .next (counted 0)) ∧
    (b ≠ 0 → exec (.count b) s = .next (give prev (counted (b.toNat - 1))))

/-- 46_output_rle.md R268: a block of `N` stored bytes expands to at most `N + 254 · ⌊N/5⌋` bytes. -/
def Obligations.ExpansionBound : Prop :=
  ∀ bytes out : List Byte, expand bytes = some out →
    out.length ≤ bytes.length + 254 * (bytes.length / 5) ∧
    (bytes.length ≤ Config.maxBlock → out.length ≤ Config.maxExpanded) ∧ (bytes ≠ [] → out ≠ [])

/-! ### Host commands -/

/-- 47_stream_control.md R298, 70_reset_and_hazards.md R340, R343: RESET is accepted in every state, gives every element the
reset value the spec states, takes the source without requesting a byte of it, and answers OK. -/
def Obligations.ResetGivesResetState : Prop :=
  ∀ (source : Source) (owns : Bool) (s : State), ∃ t, exec (.reset source owns) s = .next t ∧
    t.ctrl.ownsSource = owns ∧ t.ctrl.phase = .header ∧ t.ctrl.faultCode = 0 ∧ t.ctrl.closed = false ∧
    t.crc.combined = 0 ∧ t.reader = ⟨source.bytes, 0, 0, 0, 0, source.pace⟩ ∧
    t.mem.allocated = false ∧ (∀ i, cellRead t.mem.buf i = none ∧ cellRead t.mem.tt i = none ∧ cellRead t.mem.recon i = none) ∧
    t.ctrl.sourceReleased = false ∧ t.seq.pos = .idle ∧ t.host = { s.host with responses := s.host.responses ++ [.ok] }

/-- 47_stream_control.md R284, R285, R287, R295, R297, 60_exceptions.md R315: the checks of a READ in their order, each
answered with no other change; a READ that passes them parses the header, or releases `min(count, EXP_REMAINING)` bytes of
the active block. -/
def Obligations.ReadChecksThenStarts : Prop :=
  ∀ (count : Nat) (s : State), s.seq.pos = .idle →
    (s.ctrl.closed = true → exec (.read count) s = .next (s.answered (.refused .closed))) ∧
    (s.ctrl.closed = false →
      (count = 0 → exec (.read count) s = .next (s.answered (.refused .badArgument))) ∧
      (count ≠ 0 →
        (s.ctrl.phase = .faulted → exec (.read count) s = .next (s.answered (.fault s.ctrl.faultCode))) ∧
        (s.ctrl.phase = .done → exec (.read count) s = .next (s.answered .eof)) ∧
        (s.ctrl.phase = .header → exec (.read count) s = .next { s with seq := { s.seq with
          readCount := count, data := [], drained := false, pos := .header } }) ∧
        (s.ctrl.phase = .blockActive → exec (.read count) s = .next { s with seq := { s.seq with
          readCount := count, data := [], drained := false
          readLeft := min count s.exp.remaining, pos := .release } })))

/-- 47_stream_control.md R300, 20_memory.md R99: CLOSE releases the memories, and the source when it is owned, sets `CLOSED`
and answers OK; nothing else changes. A second CLOSE is refused. -/
def Obligations.CloseReleases : Prop :=
  ∀ s : State, s.seq.pos = .idle →
    (s.ctrl.closed = true → exec .close s = .next (s.answered (.refused .closed))) ∧
    (s.ctrl.closed = false → exec .close s = .next (State.answered .ok { s with
      mem := ⟨false, [], [], []⟩
      ctrl := { s.ctrl with closed := true, sourceReleased := s.ctrl.sourceReleased || s.ctrl.ownsSource } }))

/-- 47_stream_control.md R299, R301, R302: GET_CAPS answers CAPS(1, 0, 0) in every phase and the unsupported commands are
refused; while `CLOSED = 1` every command but RESET is refused as CLOSED. Nothing but the response list changes. -/
def Obligations.CapsAndRefusals : Prop :=
  ∀ s : State, s.seq.pos = .idle →
    (s.ctrl.closed = false → exec .getCaps s = .next (s.answered (.caps true false false))) ∧
    (∀ args i, i ∈ [Instr.getLength args, .getPosition args, .setPosition args, .seek args, .setLength args, .write args] →
      exec i s = .next (s.answered (.refused (if s.ctrl.closed = true then .closed else .unsupported)))) ∧
    (∀ i c, s.ctrl.closed = true → encodeCommand i = some c → (∀ source owns, i ≠ .reset source owns) →
      exec i s = .next (s.answered (.refused .closed)))

/-! ### Stages without an instruction -/

/-- 41_huffman.md R179: before every bit of a length code the running length is checked; out of 1 to 20 the fault is raised
with no bit read. So a base of 0 or 21 to 31 faults before symbol 0's code. In range, the length code is run (its requests
answered; else it waits, `Obligations.StepExecutesElement`). -/
def Obligations.LengthRangeCheckedFirst : Prop :=
  (∀ s : State, s.seq.pos = .lCode → s.seq.cur < 1 ∨ 20 < s.seq.cur → step s = .next (s.faultedWith 8)) ∧
  (∀ (s : State) (i : Instr) (rest : List Bool), s.seq.pos = .lCode → 1 ≤ s.seq.cur → s.seq.cur ≤ 20 →
    decode .lCode (streamBits s.reader.src s.reader.bitpos 2) = .ok (i, rest) → AllAnswered s.reader (readWidths i) →
    step s = exec i s) ∧
  ∀ (l : BitVec 5) (s t : State), exec (.lBase l) s = .next t → l.toNat < 1 ∨ 20 < l.toNat →
    step t = .next (t.faultedWith 8)

/-- 41_huffman.md R180, R181: every 50 symbols the next selector's tree is taken; when none is left the fault is raised with
`GROUP_IDX` already advanced and no bit read. The symbol's requests are answered (else it waits,
`Obligations.StepExecutesElement`). -/
def Obligations.GroupSwitching : Prop :=
  ∀ s : State, s.seq.pos = .symbol →
    (s.sym.groupLeft = 0 → (s.tab.numSel : Int) ≤ s.sym.groupIdx + 1 →
      step s = .next (State.faultedWith 11 { s with sym := { s.sym with groupIdx := s.sym.groupIdx + 1 } })) ∧
    (∀ (i : Instr) (rest : List Bool) (t : State),
      (s.sym.groupLeft = 0 → s.sym.groupIdx + 1 < s.tab.numSel ∧ t = { s with sym := { s.sym with
        groupIdx := s.sym.groupIdx + 1
        curTree := s.tab.selector.getD (s.sym.groupIdx + 1).toNat 0
        groupLeft := 49 } }) →
      (s.sym.groupLeft ≠ 0 → t = { s with sym := { s.sym with groupLeft := s.sym.groupLeft - 1 } }) →
      decode (.symbol (t.tab.trees.getD t.sym.curTree Tree.empty) t.tab.numInUse)
        (streamBits s.reader.src s.reader.bitpos (t.tab.trees.getD t.sym.curTree Tree.empty).maxLen) = .ok (i, rest) →
      AllAnswered s.reader (readWidths i) → step s = exec i t)

/-- 42_mtf_symbols.md R191, R195: the start of a block's symbols: the in-use values in `MTF`, ascending, and the run, the
block length and the group registers as the rule sets them; nothing else changes. -/
def Obligations.SymbolsStart : Prop :=
  ∀ s : State, s.seq.pos = .startSymbols →
    step s = .next { s with
      sym := { s.sym with
        mtf := s.tab.inUseList ++ s.sym.mtf.drop s.tab.inUseList.length
        n := 0, runLen := 0, runShift := 0, groupIdx := -1, groupLeft := 0 }
      seq := { s.seq with pos := .symbol } }

/-- 42_mtf_symbols.md R204: the digits of a run, RUNA for `false` and RUNB for `true`, give `Σ (d_i + 1) · 2^i`, and every
length has exactly one digit sequence. -/
def Obligations.RunLengthIsBijective : Prop :=
  (∀ (digits : List Bool) (s : State), s.sym.runLen = 0 → s.sym.runShift = 0 →
    s.sym.n + runValue digits ≤ s.ctrl.capacity →
    (digits.foldl (fun t d => runSymbol d.toNat t) s).sym =
      { s.sym with runLen := runValue digits, runShift := digits.length }) ∧
  ∀ n : Nat, ∃ digits, runValue digits = n ∧ ∀ other, runValue other = n → other = digits

/-- 42_mtf_symbols.md R192, R205: `GetAndMove` returns the entry at the rank and moves it to the front; the entries below it
shift by one, those above do not move, the table stays a permutation, and rank 0 right after returns the same value and
changes nothing. -/
def Obligations.GetAndMoveMovesToFront : Prop :=
  ∀ (α : Type) (table : List α) (r : Nat) (v : α), table[r]? = some v →
    (getAndMove table r).1 = some v ∧ (getAndMove table r).2[0]? = some v ∧
    (∀ k, 1 ≤ k → k ≤ r → (getAndMove table r).2[k]? = table[k - 1]?) ∧
    (∀ k, r < k → (getAndMove table r).2[k]? = table[k]?) ∧
    (getAndMove table r).2.Perm table ∧
    getAndMove (getAndMove table r).2 0 = (some v, (getAndMove table r).2)

/-- 43_inverse_bwt.md R220: an `ORIG_PTR` of `N` or more faults after EOB with nothing of the transform touched. -/
def Obligations.BadOrigPtrFaults : Prop :=
  ∀ s : State, s.seq.pos = .invBwt → s.sym.n ≤ s.blk.origPtr.toNat → step s = .next (s.faultedWith 14)

/-- 43_inverse_bwt.md R221 to R223: `FREQ` counts the bytes, `TT[0..N-1]` lists the positions sorted by byte value, equal
bytes in their order, and `CUM[v]` ends as the number of bytes up to `v`. Only the registers and memories of the inverse
BWT change. -/
def Obligations.PointerTableSortsStably : Prop :=
  ∀ s : State, s.seq.pos = .invBwt → s.mem.allocated = true → s.sym.n ≤ s.ctrl.capacity → Written s.mem.buf s.sym.n →
    s.blk.origPtr.toNat < s.sym.n →
    ∃ (t : State) (sorted : List Nat), step s = .next t ∧
      t = { s with
        bwt := t.bwt
        mem := { s.mem with tt := t.mem.tt, recon := t.mem.recon }
        seq := { s.seq with pos := .derand } } ∧
      sorted.Perm (List.range s.sym.n) ∧
      sorted.Pairwise (fun i j => ((bufBytes s).getD i 0).toNat < ((bufBytes s).getD j 0).toNat ∨
        ((bufBytes s).getD i 0 = (bufBytes s).getD j 0 ∧ i < j)) ∧
      (∀ k < s.sym.n, cellRead t.mem.tt k = sorted[k]?) ∧
      (∀ k, s.sym.n ≤ k → cellRead t.mem.tt k = cellRead s.mem.tt k) ∧
      (∀ v < 256, t.bwt.freq[v]? = some ((bufBytes s).countP fun b => b.toNat == v)) ∧
      ∀ v < 256, t.bwt.cum[v]? = some ((bufBytes s).countP fun b => b.toNat ≤ v)

/-- 43_inverse_bwt.md R224, R225: `RECON[k]` is the byte at the place `k + 1` pointers after `ORIG_PTR`, for exactly `N`
steps whatever the cycles of `TT`; no other entry of `RECON` changes. -/
def Obligations.ChainWalkFollowsPointers : Prop :=
  ∀ s : State, s.seq.pos = .invBwt → s.mem.allocated = true → s.sym.n ≤ s.ctrl.capacity → Written s.mem.buf s.sym.n →
    s.blk.origPtr.toNat < s.sym.n →
    ∃ t : State, step s = .next t ∧
      let walk (m : Nat) : Nat := (fun i => (cellRead t.mem.tt i).getD 0)^[m] s.blk.origPtr.toNat
      (∀ k < s.sym.n, walk (k + 1) < s.sym.n ∧ cellRead t.mem.recon k = cellRead s.mem.buf (walk (k + 1))) ∧
      (∀ k, s.sym.n ≤ k → cellRead t.mem.recon k = cellRead s.mem.recon k) ∧
      t.bwt.focus = walk (s.sym.n + 1)

/-- 44_derandomizer.md R235 to R239: a block with `RAND = 1` has bit 0 of `RECON[k]` flipped exactly at the places
`k = S_m - 2`, from a fresh countdown; one with `RAND = 0` is not changed. Only `RECON` and the countdown change. That the
countdown restarts at this stage and not at BLK is the model's choice (assumption log 28, DESIGN CHOICE). -/
def Obligations.DerandomiserFlipsAtSums : Prop :=
  ∀ s : State, s.seq.pos = .derand →
    (s.blk.rand = false → step s = .next { s with seq := { s.seq with pos := .prepassStart } }) ∧
    (s.blk.rand = true → s.mem.allocated = true → s.sym.n ≤ s.ctrl.capacity → Written s.mem.recon s.sym.n →
      ∃ t : State, step s = .next t ∧
        t = { s with
          rnd := t.rnd
          mem := { s.mem with recon := t.mem.recon }
          seq := { s.seq with pos := .prepassStart } } ∧
        (∀ k < s.sym.n, (∃ m, k + 2 = derandSum m) →
          cellRead t.mem.recon k = (cellRead s.mem.recon k).map fun b => b ^^^ 1) ∧
        ∀ k, (s.sym.n ≤ k ∨ ∀ m, k + 2 ≠ derandSum m) → cellRead t.mem.recon k = cellRead s.mem.recon k)

/-- 45_crc.md R250 to R252: the table update is the bit-by-bit recurrence of the polynomial, most significant bit of the
byte first. -/
def Obligations.CrcUpdateIsBitwise : Prop :=
  ∀ (c : Word) (b : Byte),
    crcUpdate c b = (fun x : Word => if x.msb = true then (x <<< 1) ^^^ 0x04C11DB7#32 else x <<< 1)^[8]
      (c ^^^ (b.setWidth 32 <<< 24))

/-- 46_output_rle.md R271, 45_crc.md R253 to R255, R258: from its start the pre-pass runs to its end: a block whose
expansion has the stored CRC becomes active with all its bytes to release and the expander reset; another CRC and a missing
count byte fault, and no byte has been released. -/
def Obligations.PrepassChecksBlockCrc : Prop :=
  ∀ s : State, s.seq.pos = .prepassStart → s.ctrl.phase = .blockPending → s.mem.allocated = true →
    s.sym.n ≤ s.ctrl.capacity → Written s.mem.recon s.sym.n →
    ∃ (k : Nat) (t : State), Host.Core.run Sys2Proof.core k s = .next t ∧ t.mem = s.mem ∧ t.reader = s.reader ∧
      (expand (reconFrom s 0) = none →
        t.ctrl.phase = .faulted ∧ t.ctrl.faultCode = 15 ∧ t.host.responses = s.host.responses ++ [.fault 15]) ∧
      ∀ out, expand (reconFrom s 0) = some out →
        t.crc.block = blockCrc out ∧
        (blockCrc out ≠ s.blk.storedCrc →
          t.ctrl.phase = .faulted ∧ t.ctrl.faultCode = 16 ∧ t.host.responses = s.host.responses ++ [.fault 16]) ∧
        (blockCrc out = s.blk.storedCrc →
          t.ctrl.phase = .blockActive ∧ t.exp = ⟨0, 0, none, 0, out.length⟩ ∧
          (s.seq.drained = true → t.seq.pos = .idle ∧ t.host.responses = s.host.responses ++ [.data s.seq.data]) ∧
          (s.seq.drained = false → t.seq.pos = .release ∧ t.host.responses = s.host.responses ∧
            t.seq.readLeft = min s.seq.readCount out.length))

/-- 47_stream_control.md R287, R292, R295, 46_output_rle.md R272: a READ in BLOCK_ACTIVE emits the next
`min(count, EXP_REMAINING)` bytes of the block's expansion, in order; with bytes left it answers them, and with none left it
folds the block's CRC and goes on to the next marker, the bytes still to be answered. No source byte is requested until
then. -/
def Obligations.ReadReleasesNextBytes : Prop :=
  ∀ (s : State) (count : Nat) (rest : List HostCmd) (out : List Byte), Sound s → s.seq.pos = .idle →
    s.ctrl.closed = false → s.ctrl.phase = .blockActive → s.host.cmds = .read count :: rest → 1 ≤ count →
    expansionLeft s = some out →
    ∃ (k : Nat) (t : State), Host.Core.run Sys2Proof.core k s = .next t ∧ t.reader = s.reader ∧ t.mem = s.mem ∧
      t.host.cmds = rest ∧
      (count < out.length → t.seq.pos = .idle ∧ t.ctrl.phase = .blockActive ∧
        t.host.responses = s.host.responses ++ [.data (out.take count)] ∧
        expansionLeft t = some (out.drop count) ∧ t.exp.remaining = out.length - count ∧ t.crc = s.crc) ∧
      (out.length ≤ count → t.seq.pos = .marker ∧ t.ctrl.phase = .blockPending ∧ t.seq.drained = true ∧
        t.seq.data = out ∧ t.host.responses = s.host.responses ∧
        t.crc.combined = s.crc.combined.rotateLeft 1 ^^^ s.crc.block)

/-- 47_stream_control.md R287, R292, 45_crc.md R256: once the bytes of a READ are emitted, a block with none left is drained
(the fold, BLOCK_PENDING, the next marker), and otherwise the READ answers its bytes. -/
def Obligations.DrainFoldsBlockCrc : Prop :=
  ∀ s : State, s.seq.pos = .release → s.seq.readLeft = 0 →
    (s.exp.remaining = 0 → step s = .next { s with
      crc := { s.crc with combined := s.crc.combined.rotateLeft 1 ^^^ s.crc.block }
      ctrl := { s.ctrl with phase := .blockPending }
      seq := { s.seq with drained := true, pos := .marker } }) ∧
    (s.exp.remaining ≠ 0 → step s = .next (State.answered (.data s.seq.data) { s with
      seq := { s.seq with pos := .idle } }))

/-! ### The bit reader -/

/-- 40_bit_reader.md R140, R143 to R146: `ReadBits(n)` returns the value of stream bits `BITPOS .. BITPOS + n - 1` and adds
n to `BITPOS`; `PeekBits` returns the same value and moves nothing; `ConsumeBits` moves as `ReadBits` does. -/
def Obligations.ReadBitsReturnsStreamBits : Prop :=
  ∀ r : Reader, r.Inv →
    (∀ n, 1 ≤ n → n ≤ 32 → (r.readBits n).1 = ofBits (streamBits r.src r.bitpos n) ∧
      (r.readBits n).2.bitpos = r.bitpos + n ∧ (r.readBits n).2.src = r.src ∧ (r.readBits n).2.Inv) ∧
    ∀ n, 1 ≤ n → n ≤ 16 → (r.peekBits n).1 = ofBits (streamBits r.src r.bitpos n) ∧
      (r.peekBits n).2.bitpos = r.bitpos ∧ (r.peekBits n).2.src = r.src ∧ (r.peekBits n).2.Inv ∧
      r.consumeBits n = (r.readBits n).2

/-- 40_bit_reader.md R150: after a call that began at `BITPOS = p`, `SRC_POS = 2 · (⌈p / 16⌉ + 1)`; a read of more than 16
bits is two calls, the second 16 bits on. Before the first call it is 0. -/
def Obligations.SourcePositionFormula : Prop :=
  (∀ source, (Reader.start source).srcPos = 0) ∧ ∀ (r : Reader) (n : Nat), r.Inv → 1 ≤ n →
    (n ≤ 16 → (r.readBits n).2.srcPos = 2 * ((r.bitpos + 15) / 16 + 1) ∧
      (r.peekBits n).2.srcPos = 2 * ((r.bitpos + 15) / 16 + 1) ∧
      (r.consumeBits n).srcPos = 2 * ((r.bitpos + 15) / 16 + 1)) ∧
    (16 < n → n ≤ 32 → (r.readBits n).2.srcPos = 2 * ((r.bitpos + 16 + 15) / 16 + 1))

/-! ### Invariants and rules over every step -/

/-- The invariants hold at reset. That empty registers read as zero is the model's choice (assumption log 4). -/
def Obligations.InvariantsAtReset : Prop :=
  State.reset.reader.Inv ∧ MemoryCanonical State.reset ∧ Sound State.reset ∧ ReadBounds State.reset ∧
    RegisterRanges State.reset ∧ TablesInv State.reset

/-- 40_bit_reader.md R147: the bit reader's invariant is kept by every step. -/
def Obligations.ReaderInvKept : Prop :=
  ∀ s t : State, s.reader.Inv → step s = .next t → t.reader.Inv

/-- Every step keeps the three memories in canonical form, so that equal memories are equal data. -/
def Obligations.MemoryCanonicalKept : Prop :=
  ∀ s t : State, MemoryCanonical s → step s = .next t → MemoryCanonical t

/-- 47_stream_control.md R283, R292, R301, 10_state.md R33, R34: the phase agrees with where the engine stands, no command
ends in BLOCK_PENDING, nothing is in progress after CLOSE, and `FAULT_CODE` is 0 exactly outside FAULTED. -/
def Obligations.PhaseInvKept : Prop :=
  ∀ s t : State, PhaseInv s → step s = .next t → PhaseInv t

/-- The engine never stops: from a sound state every step answers a next, sound state (a wait for the source is a step,
assumption log 16). No stream, however corrupt, makes it
access outside its memories or read an entry without value (20_memory.md R81, R96; 43_inverse_bwt.md R226), and the release
pass yields exactly `EXP_REMAINING` bytes and cannot fault (46_output_rle.md R272). -/
def Obligations.SoundStatesGoOn : Prop :=
  ∀ s : State, Sound s → ∃ t, step s = .next t ∧ Sound t

/-- 47_stream_control.md R280, R295, 46_output_rle.md R273: a DATA answer carries 1 to `count` bytes, and an active block
always has a byte to release. -/
def Obligations.ReadBoundsKept : Prop :=
  ∀ s t : State, PhaseInv s → ReadBounds s → step s = .next t → ReadBounds t ∧
    ∀ bytes, t.host.responses = s.host.responses ++ [.data bytes] →
      1 ≤ bytes.length ∧ bytes.length ≤ s.seq.readCount

/-- 10_state.md R36, R37, R46 to R48, R54, R55, R59, R60; 42_mtf_symbols.md R203: the registers keep to their legal
values, `RUN_SHIFT` at most 20 among them. -/
def Obligations.RegisterRangesKept : Prop :=
  ∀ s t : State, RegisterRanges s → step s = .next t → RegisterRanges t

/-- 10_state.md R46 to R54, 41_huffman.md R160, R182: the block's tables hold what their rules say, and every tree a
selector can name is built from accepted lengths of the whole alphabet. -/
def Obligations.TablesInvKept : Prop :=
  ∀ s t : State, TablesInv s → step s = .next t → TablesInv t

/-- 42_mtf_symbols.md R201, 60_exceptions.md R310: with the block's tables as they are built, no step raises
INVALID_SYMBOL. -/
def Obligations.InvalidSymbolNeverRaised : Prop :=
  ∀ s t : State, TablesInv s → s.seq.pos = .symbol → step s = .next t →
    t.host.responses ≠ s.host.responses ++ [.fault 12]

/-- 47_stream_control.md R283: `PHASE` changes only as the table of transitions lists: to HEADER by RESET, from HEADER on a
valid header, from BLOCK_PENDING to BLOCK_ACTIVE at the end of a pre-pass whose CRC is the stored one and to DONE on an end
marker whose stream CRC matches, from BLOCK_ACTIVE to BLOCK_PENDING once the last byte is released, and to FAULTED from the
first three on a fault, whose code is the answer. -/
def Obligations.PhaseTransitions : Prop :=
  ∀ s t : State, PhaseInv s → step s = .next t → t.ctrl.phase ≠ s.ctrl.phase →
    (s.seq.pos = .idle ∧ t.ctrl.phase = .header ∧ ∃ source owns rest, s.host.cmds = .reset source owns :: rest) ∨
    (s.ctrl.phase = .header ∧ s.seq.pos = .header ∧ t.ctrl.phase = .blockPending ∧ ∃ d rest,
      decode .header (streamBits s.reader.src s.reader.bitpos 32) = .ok (.hdr d, rest) ∧ 1 ≤ d.toNat ∧ d.toNat ≤ 9 ∧
      t.ctrl.capacity = d.toNat * 100000) ∨
    (s.ctrl.phase = .blockPending ∧ s.seq.pos = .prepass ∧ t.ctrl.phase = .blockActive ∧
      s.exp.rep = 0 ∧ s.exp.pos = s.sym.n ∧ s.exp.run ≠ 4 ∧
      t.crc.block = s.crc.running ^^^ 0xFFFFFFFF ∧ t.crc.block = s.blk.storedCrc) ∨
    (s.ctrl.phase = .blockPending ∧ s.seq.pos = .marker ∧ t.ctrl.phase = .done ∧ ∃ rest,
      decode .marker (streamBits s.reader.src s.reader.bitpos 105) = .ok (.eos s.crc.combined, rest)) ∨
    (s.ctrl.phase = .blockActive ∧ s.seq.pos = .release ∧ s.seq.readLeft = 0 ∧ s.exp.remaining = 0 ∧
      t.ctrl.phase = .blockPending) ∨
    (s.ctrl.phase ≠ .done ∧ s.ctrl.phase ≠ .faulted ∧ t.ctrl.phase = .faulted ∧ t.ctrl.faultCode ≠ 0 ∧
      t.host.responses = s.host.responses ++ [.fault t.ctrl.faultCode])

/-- 60_exceptions.md R312, R315, 70_reset_and_hazards.md R352, 47_stream_control.md R297: in FAULTED and in DONE every
command but RESET leaves the phase, the fault code, the bit reader and the CRC registers as they are. -/
def Obligations.OnlyResetLeavesFaultedAndDone : Prop :=
  ∀ s t : State, PhaseInv s → s.ctrl.phase = .faulted ∨ s.ctrl.phase = .done →
    (∀ source owns rest, s.host.cmds ≠ .reset source owns :: rest) → step s = .next t →
    t.ctrl.phase = s.ctrl.phase ∧ t.ctrl.faultCode = s.ctrl.faultCode ∧ t.reader = s.reader ∧ t.crc = s.crc

/-- 47_stream_control.md R281, R282: no command is lost or answered twice: the commands waiting, the one in progress and the
responses given keep their number, and a step adds at most one response. -/
def Obligations.OneResponsePerCommand : Prop :=
  ∀ s t : State, step s = .next t →
    t.host.responses.length + t.host.cmds.length + t.busy = s.host.responses.length + s.host.cmds.length + s.busy ∧
    ∃ new, t.host.responses = s.host.responses ++ new ∧ new.length ≤ 1

/-- 10_state.md R31, 20_memory.md R84, R90, 47_stream_control.md R296: the stream is read forward only, and between commands
not at all; only RESET changes the source. -/
def Obligations.StreamOnlyAdvances : Prop :=
  ∀ s t : State, step s = .next t →
    (t.reader.src = s.reader.src ∧ s.reader.bitpos ≤ t.reader.bitpos ∧ s.reader.srcPos ≤ t.reader.srcPos ∧
      (s.seq.pos = .idle → t.reader = s.reader)) ∨
    ∃ source owns rest, s.seq.pos = .idle ∧ s.host.cmds = .reset source owns :: rest ∧
      t.reader = ⟨source.bytes, 0, 0, 0, 0, source.pace⟩

/-- 20_memory.md R97, R99: `BUF` changes only in symbol decoding, `TT` only in the inverse BWT, `RECON` only there and in
the derandomiser; the header allocates the memories, and CLOSE and RESET release them between commands. -/
def Obligations.MemoryWrittenByItsStage : Prop :=
  ∀ s t : State, step s = .next t → s.seq.pos ≠ .idle → s.seq.pos ≠ .header →
    t.mem.allocated = s.mem.allocated ∧
    (s.seq.pos ≠ .symbol → t.mem.buf = s.mem.buf) ∧
    (s.seq.pos ≠ .invBwt → t.mem.tt = s.mem.tt) ∧
    (s.seq.pos ≠ .invBwt → s.seq.pos ≠ .derand → t.mem.recon = s.mem.recon)

/-- 20_memory.md R84, R90, R95: a step depends on no source byte that has not been requested when it ends: two sources that
agree on the first `SRC_POS` bytes give the same step. A step that waits for the source may have requested the bytes the
source has answered, and no more (47_stream_control.md R303; that `SRC_POS` does not show them is assumption log 16). -/
def Obligations.OnlyRequestedBytesMatter : Prop :=
  ∀ (s t : State) (src : List Byte), s.reader.Inv → s.seq.pos ≠ .idle → step s = .next t →
    (∀ k, k < t.reader.srcPos ∨ (Waiting s ∧ ∃ m, s.reader.pace.ready = some m ∧ k < m) →
      src.getD k 0 = s.reader.src.getD k 0) →
    step { s with reader := { s.reader with src := src } } = .next { t with reader := { t.reader with src := src } }
end

