-- ==== Sys2Proof/Laws/Bits.lean ====
section
/-! SUPPORT. Bits and numbers: fields, their values, and the stream's bits (20_memory.md R85, R86). -/

namespace Sys2Proof

@[simp] theorem bitsOf_length (n v : Nat) : (bitsOf n v).length = n := by
  induction n with
  | zero => rfl
  | succ n ih => simp [bitsOf, ih]

@[simp] theorem ofBits_nil : ofBits [] = 0 := rfl

theorem foldl_ofBits (bits : List Bool) (a : Nat) :
    bits.foldl (fun acc b => 2 * acc + b.toNat) a = a * 2 ^ bits.length + ofBits bits := by
  unfold ofBits
  induction bits generalizing a with
  | nil => simp
  | cons b rest ih =>
    simp only [List.foldl_cons, List.length_cons]
    rw [ih, ih (2 * 0 + b.toNat)]
    ring

theorem ofBits_append (xs ys : List Bool) : ofBits (xs ++ ys) = ofBits xs * 2 ^ ys.length + ofBits ys := by
  conv_lhs => rw [ofBits, List.foldl_append]
  exact foldl_ofBits ys _

theorem ofBits_cons (b : Bool) (rest : List Bool) : ofBits (b :: rest) = b.toNat * 2 ^ rest.length + ofBits rest := by
  have h := ofBits_append [b] rest
  simpa [ofBits] using h

theorem ofBits_lt (bits : List Bool) : ofBits bits < 2 ^ bits.length := by
  induction bits with
  | nil => simp
  | cons b rest ih =>
    rw [ofBits_cons, List.length_cons, pow_succ]
    cases b <;> simp <;> omega

/-- A field's value is its bits' (20_memory.md R85). -/
theorem ofBits_bitsOf (n v : Nat) : ofBits (bitsOf n v) = v % 2 ^ n := by
  induction n with
  | zero => simp [bitsOf, Nat.mod_one]
  | succ n ih =>
    rw [bitsOf, ofBits_cons, ih, bitsOf_length, Nat.testBit_eq_decide_div_mod_eq, Nat.pow_succ, Nat.mod_mul]
    have h : v / 2 ^ n % 2 < 2 := Nat.mod_lt _ (by decide)
    obtain h | h : v / 2 ^ n % 2 = 0 ∨ v / 2 ^ n % 2 = 1 := by omega
    · simp [h]
    · simp [h]; ring

/-- Bits are those of their value. -/
theorem bitsOf_ofBits (bits : List Bool) : bitsOf bits.length (ofBits bits) = bits := by
  induction bits with
  | nil => rfl
  | cons b rest ih =>
    have hlt := ofBits_lt rest
    rw [List.length_cons, bitsOf, ofBits_cons]
    have hb : (b.toNat * 2 ^ rest.length + ofBits rest).testBit rest.length = b := by
      rw [Nat.testBit_eq_decide_div_mod_eq, mul_comm, Nat.mul_add_div (Nat.two_pow_pos _), Nat.div_eq_of_lt hlt]
      cases b <;> simp
    have hrest : ∀ n v w, v % 2 ^ n = w % 2 ^ n → bitsOf n v = bitsOf n w := by
      intro n
      induction n with
      | zero => intros; rfl
      | succ n ihn =>
        intro v w h
        have h1 : v % 2 ^ n = w % 2 ^ n := by
          have := congrArg (· % 2 ^ n) h
          simpa [Nat.mod_mod_of_dvd _ (pow_dvd_pow 2 (Nat.le_succ n))] using this
        have h2 : v.testBit n = w.testBit n := by
          have h3 : (v % 2 ^ (n + 1)).testBit n = (w % 2 ^ (n + 1)).testBit n := by rw [h]
          simpa using h3
        rw [bitsOf, bitsOf, h2, ihn v w h1]
    rw [hb, hrest rest.length _ (ofBits rest) (by simp), ih]

namespace Machine

@[simp] theorem streamBits_length (src : List Byte) (p n : Nat) : (streamBits src p n).length = n := by
  simp [streamBits]

@[simp] theorem streamBits_zero (src : List Byte) (p : Nat) : streamBits src p 0 = [] := rfl

/-- A field read in pieces is the field read at once (20_memory.md R86). -/
theorem streamBits_add (src : List Byte) (p a b : Nat) :
    streamBits src p (a + b) = streamBits src p a ++ streamBits src (p + a) b := by
  simp [streamBits, List.range_add, Nat.add_assoc, Function.comp_def]

/-- Eight stream bits from a byte boundary are that byte, 0x00 past the end (20_memory.md R85, 40_bit_reader.md R148). -/
theorem ofBits_streamBits_byte (src : List Byte) (j : Nat) :
    ofBits (streamBits src (8 * j) 8) = (src.getD j 0).toNat := by
  have hbit : ∀ k < 8, streamBit src (8 * j + k) = (src.getD j 0).toNat.testBit (7 - k) := by
    intro k hk
    have h1 : (8 * j + k) / 8 = j := by omega
    have h2 : (8 * j + k) % 8 = k := by omega
    rw [streamBit, h1, h2, BitVec.testBit_toNat]
  have h : streamBits src (8 * j) 8 = bitsOf 8 (src.getD j 0).toNat := by
    simp only [streamBits, bitsOf, List.range, List.range.loop, List.map_cons, List.map_nil]
    rw [hbit 0 (by decide), hbit 1 (by decide), hbit 2 (by decide), hbit 3 (by decide), hbit 4 (by decide),
      hbit 5 (by decide), hbit 6 (by decide), hbit 7 (by decide)]
  rw [h, ofBits_bitsOf]
  exact Nat.mod_eq_of_lt (src.getD j 0).isLt

end Machine

end Sys2Proof
end

