-- ==== Sys2Proof/Laws/BitReader.lean ====
section
/-! SUPPORT. The bit reader: what refill and a read of up to 16 bits do to the registers, under the invariant of
40_bit_reader.md R147. -/

namespace Sys2Proof.Machine

@[simp] theorem srcByte_fst (r : Reader) : r.srcByte.1 = r.src.getD r.srcPos 0 := rfl

@[simp] theorem srcByte_snd (r : Reader) : r.srcByte.2 = { r with srcPos := r.srcPos + 1 } := rfl

@[simp] theorem refill_src (r : Reader) : r.refill.src = r.src := by unfold Reader.refill; split <;> rfl

@[simp] theorem refill_bitpos (r : Reader) : r.refill.bitpos = r.bitpos := by unfold Reader.refill; split <;> rfl

theorem refill_cnt (r : Reader) : r.refill.cnt = if r.cnt < 16 then r.cnt + 16 else r.cnt := by
  unfold Reader.refill; split <;> rfl

theorem refill_srcPos (r : Reader) : r.refill.srcPos = if r.cnt < 16 then r.srcPos + 2 else r.srcPos := by
  unfold Reader.refill; split <;> rfl

/-- A refill puts its two bytes below the bits still buffered (40_bit_reader.md R142). -/
theorem refill_acc_toNat (acc : Word) (b0 b1 : Byte) (c : Nat) (hc : c ≤ 16) :
    ((acc <<< 16) ||| ((b0.setWidth 32 : Word) <<< 8) ||| (b1.setWidth 32 : Word)).toNat % 2 ^ (c + 16) =
      (acc.toNat % 2 ^ c) * 2 ^ 16 + (b0.toNat * 2 ^ 8 + b1.toNat) := by
  have h0 := b0.isLt
  have h1 := b1.isLt
  have e1 : (((b0.setWidth 32 : Word) <<< 8) ||| (b1.setWidth 32 : Word)).toNat = b0.toNat * 2 ^ 8 + b1.toNat := by
    rw [BitVec.toNat_or, BitVec.toNat_shiftLeft, BitVec.toNat_setWidth, BitVec.toNat_setWidth, Nat.shiftLeft_eq,
      Nat.mod_eq_of_lt (a := b0.toNat) (by omega), Nat.mod_eq_of_lt (a := b1.toNat) (by omega),
      Nat.mod_eq_of_lt (a := b0.toNat * 2 ^ 8) (by omega), mul_comm]
    exact (Nat.two_pow_add_eq_or_of_lt h1 b0.toNat).symm
  have e2 : ((acc <<< 16) ||| ((b0.setWidth 32 : Word) <<< 8) ||| (b1.setWidth 32 : Word)).toNat =
      (acc.toNat % 2 ^ 16) * 2 ^ 16 + (b0.toNat * 2 ^ 8 + b1.toNat) := by
    rw [BitVec.or_assoc, BitVec.toNat_or, e1, BitVec.toNat_shiftLeft, Nat.shiftLeft_eq]
    have e3 : acc.toNat * 2 ^ 16 % 2 ^ 32 = 2 ^ 16 * (acc.toNat % 2 ^ 16) := by omega
    rw [e3, mul_comm (acc.toNat % 2 ^ 16)]
    exact (Nat.two_pow_add_eq_or_of_lt (by omega) _).symm
  rw [e2]
  have e4 : 2 ^ (c + 16) = 2 ^ 16 * 2 ^ c := by rw [pow_add, mul_comm]
  have e5 : acc.toNat % 2 ^ 16 % 2 ^ c = acc.toNat % 2 ^ c := Nat.mod_mod_of_dvd _ (pow_dvd_pow 2 hc)
  rw [e4, Nat.mod_mul]
  have e6 : ((acc.toNat % 2 ^ 16) * 2 ^ 16 + (b0.toNat * 2 ^ 8 + b1.toNat)) % 2 ^ 16 = b0.toNat * 2 ^ 8 + b1.toNat := by
    omega
  have e7 : ((acc.toNat % 2 ^ 16) * 2 ^ 16 + (b0.toNat * 2 ^ 8 + b1.toNat)) / 2 ^ 16 = acc.toNat % 2 ^ 16 := by omega
  rw [e6, e7, e5]
  ring

/-- Refill keeps the invariant, and leaves 16 to 31 bits buffered (40_bit_reader.md R142). -/
theorem Reader.Inv.refill {r : Reader} (h : r.Inv) : r.refill.Inv ∧ 16 ≤ r.refill.cnt := by
  obtain ⟨hc, hp, he, hb⟩ := h
  by_cases hlt : r.cnt < 16
  · have hsrc : r.srcPos * 8 = r.bitpos + r.cnt := by omega
    refine ⟨⟨?_, ?_, ?_, ?_⟩, ?_⟩
    · rw [refill_cnt, if_pos hlt]; omega
    · rw [refill_cnt, refill_srcPos, if_pos hlt, if_pos hlt, refill_bitpos]; omega
    · rw [refill_srcPos, if_pos hlt]; omega
    · rw [refill_cnt, if_pos hlt, refill_bitpos, refill_src, streamBits_add,
        show (16 : Nat) = 8 + 8 from rfl, streamBits_add, ofBits_append, ofBits_append]
      have p0 : r.bitpos + r.cnt = 8 * r.srcPos := by omega
      have p1 : r.bitpos + r.cnt + 8 = 8 * (r.srcPos + 1) := by omega
      rw [p1, p0, ofBits_streamBits_byte, ofBits_streamBits_byte, ← hb]
      have hacc : r.refill.acc = (r.acc <<< 16) ||| (((r.src.getD r.srcPos 0).setWidth 32 : Word) <<< 8) |||
          ((r.src.getD (r.srcPos + 1) 0).setWidth 32 : Word) := by
        unfold Reader.refill; rw [if_pos hlt]; rfl
      rw [hacc]
      simpa using refill_acc_toNat r.acc (r.src.getD r.srcPos 0) (r.src.getD (r.srcPos + 1) 0) r.cnt (by omega)
    · rw [refill_cnt, if_pos hlt]; omega
  · have : r.refill = r := by unfold Reader.refill; rw [if_neg hlt]
    rw [this]
    exact ⟨⟨hc, hp, he, hb⟩, by omega⟩

@[simp] theorem consumeBits_src (n : Nat) (r : Reader) : (r.consumeBits n).src = r.src := refill_src r

@[simp] theorem consumeBits_bitpos (n : Nat) (r : Reader) : (r.consumeBits n).bitpos = r.bitpos + n := by
  simp [Reader.consumeBits]

@[simp] theorem consumeBits_srcPos (n : Nat) (r : Reader) : (r.consumeBits n).srcPos = r.refill.srcPos := rfl

/-- The buffered bits are the first ones and the rest: their values. -/
theorem ofBits_streamBits_split (src : List Byte) (p n m : Nat) :
    ofBits (streamBits src p (n + m)) = ofBits (streamBits src p n) * 2 ^ m + ofBits (streamBits src (p + n) m) := by
  rw [streamBits_add, ofBits_append, streamBits_length]

/-- Consuming up to 16 bits keeps the invariant (40_bit_reader.md R146, R147). -/
theorem Reader.Inv.consumeBits {r : Reader} (h : r.Inv) {n : Nat} (hn : n ≤ 16) : (r.consumeBits n).Inv := by
  obtain ⟨⟨hc, hp, he, hb⟩, h16⟩ := h.refill
  refine ⟨?_, ?_, he, ?_⟩
  · show r.refill.cnt - n ≤ 31; omega
  · show 8 * r.refill.srcPos = r.refill.bitpos + n + (r.refill.cnt - n); omega
  · show r.refill.acc.toNat % 2 ^ (r.refill.cnt - n) =
      ofBits (streamBits r.refill.src (r.refill.bitpos + n) (r.refill.cnt - n))
    have e : r.refill.cnt = n + (r.refill.cnt - n) := by omega
    have h1 := hb
    rw [e, ofBits_streamBits_split] at h1
    have h2 := congrArg (· % 2 ^ (r.refill.cnt - n)) h1
    have h3 : ofBits (streamBits r.refill.src (r.refill.bitpos + n) (r.refill.cnt - n)) < 2 ^ (r.refill.cnt - n) := by
      simpa using ofBits_lt (streamBits r.refill.src (r.refill.bitpos + n) (r.refill.cnt - n))
    rw [Nat.mod_mod_of_dvd _ (pow_dvd_pow 2 (Nat.le_add_left _ _)), Nat.mul_add_mod_self_right, Nat.mod_eq_of_lt h3] at h2
    exact h2

/-- A read of up to 16 bits returns the stream's next bits (40_bit_reader.md R140, R143). -/
theorem Reader.Inv.readBits16_value {r : Reader} (h : r.Inv) {n : Nat} (hn : n ≤ 16) :
    (r.readBits16 n).1 = ofBits (streamBits r.src r.bitpos n) := by
  obtain ⟨⟨hc, hp, he, hb⟩, h16⟩ := h.refill
  show (r.refill.acc >>> (r.refill.cnt - n)).toNat % 2 ^ n = _
  have e : r.refill.cnt = n + (r.refill.cnt - n) := by omega
  rw [e, ofBits_streamBits_split, refill_src, refill_bitpos] at hb
  have h3 : ofBits (streamBits r.src (r.bitpos + n) (r.refill.cnt - n)) < 2 ^ (r.refill.cnt - n) := by
    simpa using ofBits_lt (streamBits r.src (r.bitpos + n) (r.refill.cnt - n))
  have h4 := congrArg (· / 2 ^ (r.refill.cnt - n)) hb
  rw [Nat.mul_comm (ofBits _), Nat.mul_add_div (Nat.two_pow_pos _), Nat.div_eq_of_lt h3, Nat.add_zero] at h4
  rw [BitVec.toNat_ushiftRight, Nat.shiftRight_eq_div_pow, ← h4, pow_add, mul_comm (2 ^ n),
    Nat.mod_mul_right_div_self]

@[simp] theorem readBits16_snd (n : Nat) (r : Reader) : (r.readBits16 n).2 = r.consumeBits n := rfl

/-- The widths the engine reads with are 1 to 32 (40_bit_reader.md R149). -/
theorem readWidths_le (i : Instr) : ∀ n ∈ readWidths i, 1 ≤ n ∧ n ≤ 32 := by
  intro n hn
  cases i <;> simp only [readWidths, List.mem_cons, List.not_mem_nil, or_false, List.mem_replicate] at hn <;> omega

/-- A read of up to 32 bits keeps the invariant and moves by its width (40_bit_reader.md R143, R144, R147). -/
theorem Reader.Inv.readBits {r : Reader} (h : r.Inv) {n : Nat} (hn : n ≤ 32) :
    (r.readBits n).2.Inv ∧ (r.readBits n).2.bitpos = r.bitpos + n ∧ (r.readBits n).2.src = r.src := by
  unfold Reader.readBits
  split
  · exact ⟨h.consumeBits ‹_›, consumeBits_bitpos _ _, consumeBits_src _ _⟩
  · refine ⟨(h.consumeBits (le_refl 16)).consumeBits (by omega), ?_, ?_⟩
    · simp only [readBits16_snd, consumeBits_bitpos]; omega
    · simp only [readBits16_snd, consumeBits_src]

theorem refill_srcPos_le (r : Reader) : r.srcPos ≤ r.refill.srcPos := by
  rw [refill_srcPos]; split <;> omega

/-- Whatever the reader holds, a read adds its width to `BITPOS`, keeps the source, and never steps `SRC_POS` back. -/
theorem readBits_moves (n : Nat) (r : Reader) :
    (r.readBits n).2.bitpos = r.bitpos + n ∧ (r.readBits n).2.src = r.src ∧ r.srcPos ≤ (r.readBits n).2.srcPos := by
  unfold Reader.readBits
  split
  · exact ⟨consumeBits_bitpos _ _, consumeBits_src _ _, refill_srcPos_le r⟩
  · refine ⟨?_, ?_, ?_⟩
    · simp only [readBits16_snd, consumeBits_bitpos]; omega
    · simp only [readBits16_snd, consumeBits_src]
    · exact (refill_srcPos_le r).trans (refill_srcPos_le (r.consumeBits 16))

@[simp] theorem advance_nil (r : Reader) : r.advance [] = r := rfl

@[simp] theorem advance_cons (n : Nat) (ws : List Nat) (r : Reader) : r.advance (n :: ws) = (r.readBits n).2.advance ws := rfl

/-- Reads in turn add their widths, keep the source and never step back. -/
theorem advance_moves (ws : List Nat) (r : Reader) :
    (r.advance ws).bitpos = r.bitpos + ws.sum ∧ (r.advance ws).src = r.src ∧ r.srcPos ≤ (r.advance ws).srcPos := by
  induction ws generalizing r with
  | nil => exact ⟨rfl, rfl, le_refl _⟩
  | cons n ws ih =>
    obtain ⟨h1, h2, h3⟩ := ih (r.readBits n).2
    obtain ⟨g1, g2, g3⟩ := readBits_moves n r
    rw [advance_cons]
    exact ⟨by rw [h1, g1, List.sum_cons]; omega, h2.trans g2, g3.trans h3⟩

@[simp] theorem readBits_pace (n : Nat) (r : Reader) : (r.readBits n).2.pace = r.pace := by
  have refill_pace : ∀ r : Reader, r.refill.pace = r.pace := fun r => by unfold Reader.refill; split <;> rfl
  unfold Reader.readBits
  split
  · exact refill_pace r
  · exact (refill_pace _).trans (refill_pace r)

/-- Reading does not touch when the source answers. -/
@[simp] theorem advance_pace (ws : List Nat) (r : Reader) : (r.advance ws).pace = r.pace := by
  induction ws generalizing r with
  | nil => rfl
  | cons n ws ih => rw [advance_cons, ih, readBits_pace]

/-- The model's test is the spec's: every offset requested is answered (47_stream_control.md R303). -/
theorem answers_iff {ws : List Nat} {r : Reader} : r.answers ws = true ↔ AllAnswered r ws := by
  unfold Reader.answers AllAnswered
  cases hr : r.pace.ready with
  | none => simp
  | some m =>
    simp only [decide_eq_true_eq, Option.some.injEq]
    constructor
    · rintro h k h1 h2 _ rfl
      omega
    · intro h
      by_cases hm : (r.advance ws).srcPos ≤ r.srcPos
      · exact .inl hm
      · have := h ((r.advance ws).srcPos - 1) (by omega) (by omega) m rfl
        omega

/-- What reads no bit requests nothing. -/
@[simp] theorem answers_nil (r : Reader) : r.answers [] = true := answers_iff.2 fun k h1 h2 => by
  simp only [advance_nil] at h2; omega

/-- A source that answers every request answers these. -/
theorem allAnswered_of_prompt {r : Reader} (h : r.pace.ready = none) (ws : List Nat) : AllAnswered r ws :=
  fun _ _ _ m hm => by rw [h] at hm; cases hm

/-- Reads in turn, none wider than 32 bits, keep the invariant. -/
theorem Reader.Inv.advance {r : Reader} (h : r.Inv) {ws : List Nat} (hw : ∀ n ∈ ws, n ≤ 32) : (r.advance ws).Inv := by
  induction ws generalizing r with
  | nil => exact h
  | cons n ws ih =>
    exact ih (h.readBits (hw n (by simp))).1 fun m hm => hw m (by simp [hm])

/-- A reader at the start of any source satisfies the invariant (70_reset_and_hazards.md R340). -/
theorem Reader.start_inv (source : Source) : (Reader.start source).Inv :=
  ⟨Nat.zero_le _, rfl, rfl, by simp [Reader.start]⟩

end Sys2Proof.Machine
end

