-- ==== Sys2Proof/Laws/Decode.lean ====
section
/-! SUPPORT. The decoder's parts: fields, the unary code, the code search, and the tables they read. -/

namespace Sys2Proof

/-! ### Fields -/

/-- A field of its own width, with anything after it. -/
theorem takeField_append {n : Nat} {bits : List Bool} (h : bits.length = n) (rest : List Bool) :
    takeField n (bits ++ rest) = .ok (ofBits bits, rest) := by
  subst h
  simp [takeField]

/-- A field written from a value reads as the value, within the width (20_memory.md R85). -/
theorem takeField_bitsOf (n v : Nat) (rest : List Bool) : takeField n (bitsOf n v ++ rest) = .ok (v % 2 ^ n, rest) := by
  rw [takeField_append (bitsOf_length n v), ofBits_bitsOf]

/-- A field consumes exactly its bits, and they are those of the value. -/
theorem takeField_ok {n v : Nat} {bits rest : List Bool} (h : takeField n bits = .ok (v, rest)) :
    bits = bitsOf n v ++ rest ∧ v < 2 ^ n := by
  unfold takeField at h
  split at h
  · cases h
  · rename_i hl
    have hlen : (bits.take n).length = n := by simp; omega
    obtain ⟨rfl, rfl⟩ := Prod.mk.inj (Except.ok.inj h)
    have hb := bitsOf_ofBits (bits.take n)
    have hlt := ofBits_lt (bits.take n)
    rw [hlen] at hb hlt
    exact ⟨by rw [hb, List.take_append_drop], hlt⟩

/-- A field is there when its bits are. -/
theorem takeField_total {n : Nat} {bits : List Bool} (h : n ≤ bits.length) :
    takeField n bits = .ok (ofBits (bits.take n), bits.drop n) := by
  unfold takeField
  rw [if_neg (by omega)]

/-! ### SEL -/

/-- The unary code below the limit (30_encoding.md R109). -/
theorem decodeSel_replicate {numTrees j : Nat} (start : Nat) (h : start + j < numTrees) (rest : List Bool) :
    decodeSel numTrees start (List.replicate j true ++ false :: rest) = .ok (.sel (start + j), rest) := by
  induction j generalizing start with
  | zero => rfl
  | succ j ih =>
    rw [List.replicate_succ, List.cons_append, decodeSel, if_neg (by omega), ih (start + 1) (by omega)]
    congr 3
    omega

/-- The unary code at the limit: no bit after the last one-bit is read (41_huffman.md R174). -/
theorem decodeSel_overrun {numTrees j : Nat} (start : Nat) (h : start + j = numTrees) (hj : 1 ≤ j) (rest : List Bool) :
    decodeSel numTrees start (List.replicate j true ++ rest) = .ok (.selOverrun numTrees, rest) := by
  induction j generalizing start with
  | zero => omega
  | succ j ih =>
    rw [List.replicate_succ, List.cons_append, decodeSel]
    split
    · obtain rfl : j = 0 := by omega
      simp [← h]
    · exact ih (start + 1) (by omega) (by omega)

/-- Everything a SEL can be: a rank below the limit or the overrun, and exactly its bits (30_encoding.md R109). -/
theorem decodeSel_ok {numTrees start : Nat} {bits rest : List Bool} {i : Instr} (h : decodeSel numTrees start bits = .ok (i, rest)) :
    (∃ j, i = .sel (start + j) ∧ bits = List.replicate j true ++ false :: rest ∧ (start < numTrees → start + j < numTrees)) ∨
      ∃ j, i = .selOverrun (start + j) ∧ bits = List.replicate j true ++ rest ∧ numTrees ≤ start + j := by
  induction bits generalizing start with
  | nil => cases h
  | cons b tail ih =>
    cases b with
    | false =>
      cases h
      exact .inl ⟨0, rfl, rfl, id⟩
    | true =>
      rw [decodeSel] at h
      split at h
      · cases h
        exact .inr ⟨1, rfl, rfl, ‹_›⟩
      · rename_i hn
        rcases ih h with ⟨j, rfl, hb, hj⟩ | ⟨j, rfl, hb, hj⟩
        · refine .inl ⟨j + 1, by congr 1; omega, by rw [hb, List.replicate_succ]; rfl, fun _ => ?_⟩
          have := hj (by omega)
          omega
        · exact .inr ⟨j + 1, by congr 1; omega, by rw [hb, List.replicate_succ]; rfl, by omega⟩

/-! ### Symbols -/

/-- The code search reads bits one by one, at most `fuel`, and returns those it read (41_huffman.md R164). -/
theorem findCode_ok {t : Tree} {fuel l v : Nat} {code bits code' rest : List Bool} {o : Option Nat}
    (h : findCode t fuel l v code bits = .ok (o, code', rest)) :
    ∃ read, code' = code ++ read ∧ bits = read ++ rest ∧ read.length ≤ fuel ∧ (o = none → read.length = fuel) := by
  induction fuel generalizing l v code bits with
  | zero =>
    cases h
    exact ⟨[], by simp, by simp, le_refl _, fun _ => rfl⟩
  | succ fuel ih =>
    cases bits with
    | nil => cases h
    | cons b tail =>
      rw [findCode] at h
      split at h
      · cases h
        exact ⟨[b], rfl, rfl, by simp, by simp⟩
      · obtain ⟨read, h1, h2, h3, h4⟩ := ih h
        exact ⟨b :: read, by simp [h1], by simp [h2], by simpa using h3, fun ho => by simp [h4 ho]⟩

/-- The code search answers when the bits it may read are there. -/
theorem findCode_total (t : Tree) {fuel : Nat} (l v : Nat) (code : List Bool) {bits : List Bool} (h : fuel ≤ bits.length) :
    ∃ r, findCode t fuel l v code bits = .ok r := by
  induction fuel generalizing l v code bits with
  | zero => exact ⟨_, rfl⟩
  | succ fuel ih =>
    cases bits with
    | nil => simp at h
    | cons b tail =>
      rw [findCode]
      split
      · exact ⟨_, rfl⟩
      · exact ih _ _ _ (by simpa using h)

/-- `PERM` lists symbols of the alphabet only (41_huffman.md R160, R161). -/
theorem mem_permOf {lens : List Nat} {v : Nat} (h : v ∈ permOf lens) : v < lens.length := by
  obtain ⟨k, -, hk⟩ := List.mem_flatMap.1 h
  exact List.mem_range.1 (List.mem_filter.1 hk).1

/-- A class of `symbolInstr` carries the code it was read from. -/
theorem symbolInstr_encode (numInUse v : Nat) (code : List Bool) : encode (symbolInstr numInUse v code) = code := by
  unfold symbolInstr
  split
  · rfl
  · split
    · rfl
    · split
      · rfl
      · split <;> rfl

end Sys2Proof
end

