-- ==== Sys2Proof/Laws/Memory.lean ====
section
/-! SUPPORT. The memories: read after write, the canonical form, and what a checked run of accesses answers
(20_memory.md R80, R93). -/

namespace Sys2Proof.Machine

variable {α : Type}

@[simp] theorem cellRead_nil (i : Nat) : cellRead ([] : List (Nat × α)) i = none := rfl

/-- An index below every listed one is not listed. -/
theorem cellRead_of_lt {m : List (Nat × α)} {i : Nat} (h : ∀ x ∈ m, i < x.1) : cellRead m i = none := by
  induction m with
  | nil => rfl
  | cons x rest ih =>
    obtain ⟨a, v⟩ := x
    have ha : i < a := h (a, v) (by simp)
    rw [cellRead, if_neg (by omega), ih fun y hy => h y (by simp [hy])]

@[simp] theorem cellRead_cellWrite_same (m : List (Nat × α)) (i : Nat) (v : α) : cellRead (cellWrite m i v) i = some v := by
  induction m with
  | nil => simp [cellWrite, cellRead]
  | cons x rest ih =>
    obtain ⟨a, u⟩ := x
    rw [cellWrite]
    split
    · simp [cellRead]
    · split
      · simp [cellRead]
      · rw [cellRead, if_neg (by omega), ih]

/-- A write leaves every other entry alone. -/
theorem cellRead_cellWrite_of_ne (m : List (Nat × α)) {i j : Nat} (v : α) (h : j ≠ i) :
    cellRead (cellWrite m i v) j = cellRead m j := by
  induction m with
  | nil => simp [cellWrite, cellRead, h.symm]
  | cons x rest ih =>
    obtain ⟨a, u⟩ := x
    rw [cellWrite]
    split
    · rw [cellRead, if_neg (by omega)]
    · split
      · subst i; rw [cellRead, cellRead, if_neg (by omega), if_neg (by omega)]
      · rw [cellRead, cellRead, ih]

theorem cellRead_cellWrite (m : List (Nat × α)) (i j : Nat) (v : α) :
    cellRead (cellWrite m i v) j = if j = i then some v else cellRead m j := by
  split
  · subst j; simp
  · exact cellRead_cellWrite_of_ne m v ‹_›

theorem mem_cellWrite {m : List (Nat × α)} {i : Nat} {v : α} {x : Nat × α} (h : x ∈ cellWrite m i v) :
    x = (i, v) ∨ x ∈ m := by
  induction m with
  | nil => simpa [cellWrite] using h
  | cons y rest ih =>
    obtain ⟨a, u⟩ := y
    rw [cellWrite] at h
    split at h
    · simpa using h
    · split at h
      · rcases List.mem_cons.1 h with h | h <;> simp [h]
      · rcases List.mem_cons.1 h with h | h
        · simp [h]
        · rcases ih h with h | h <;> simp [h]

/-- A write keeps the canonical form. -/
theorem wf_cellWrite {m : List (Nat × α)} (h : Memory.wf m) (i : Nat) (v : α) : Memory.wf (cellWrite m i v) := by
  induction m with
  | nil => simp [cellWrite, Memory.wf]
  | cons x rest ih =>
    obtain ⟨a, u⟩ := x
    obtain ⟨h1, h2⟩ := List.pairwise_cons.1 h
    rw [cellWrite]
    split
    · refine List.pairwise_cons.2 ⟨?_, h⟩
      intro y hy
      rcases List.mem_cons.1 hy with rfl | hy
      · assumption
      · have := h1 y hy; simp only at *; omega
    · split
      · exact List.pairwise_cons.2 ⟨fun y hy => by have := h1 y hy; simp only at *; omega, h2⟩
      · refine List.pairwise_cons.2 ⟨fun y hy => ?_, ih h2⟩
        rcases mem_cellWrite hy with rfl | hy
        · simp only; omega
        · exact h1 y hy

/-- Canonical memories that read alike are equal. -/
theorem ext_of_wf {m m' : List (Nat × α)} (h : Memory.wf m) (h' : Memory.wf m') (hr : ∀ i, cellRead m i = cellRead m' i) :
    m = m' := by
  induction m generalizing m' with
  | nil =>
    cases m' with
    | nil => rfl
    | cons y rest => have := hr y.1; simp [cellRead] at this
  | cons x rest ih =>
    obtain ⟨a, u⟩ := x
    cases m' with
    | nil => have := hr a; simp [cellRead] at this
    | cons y rest' =>
      obtain ⟨b, w⟩ := y
      obtain ⟨h1, h2⟩ := List.pairwise_cons.1 h
      obtain ⟨h1', h2'⟩ := List.pairwise_cons.1 h'
      have hab : a = b := by
        by_contra hne
        rcases Nat.lt_or_gt_of_ne hne with hlt | hlt
        · have h3 := hr a
          rw [cellRead, if_pos rfl, cellRead, if_neg (by omega), cellRead_of_lt fun z hz => lt_trans hlt (h1' z hz)] at h3
          cases h3
        · have h3 := hr b
          rw [cellRead, if_neg (by omega), cellRead_of_lt fun z hz => lt_trans hlt (h1 z hz), cellRead, if_pos rfl] at h3
          cases h3
      subst hab
      have h3 := hr a
      rw [cellRead, if_pos rfl, cellRead, if_pos rfl] at h3
      cases h3
      rw [ih h2 h2' fun i => ?_]
      have h4 := hr i
      rw [cellRead, cellRead] at h4
      split at h4
      · subst i
        rw [cellRead_of_lt h1, cellRead_of_lt h1']
      · exact h4

theorem readEntry_ok {limit : Nat} {name : MemName} {m : List (Nat × α)} {i : Nat} {v : α} :
    readEntry limit name m i = .ok v ↔ i < limit ∧ cellRead m i = some v := by
  unfold readEntry
  split
  · cases hc : cellRead m i <;> simp_all
  · simp_all

theorem writeEntry_ok {limit : Nat} {name : MemName} {m m' : List (Nat × α)} {i : Nat} {v : α} :
    writeEntry limit name m i v = .ok m' ↔ i < limit ∧ m' = cellWrite m i v := by
  unfold writeEntry
  split <;> simp_all [eq_comm]

/-- An access of a written entry below the limit answers it. -/
theorem readEntry_written {limit : Nat} {name : MemName} {m : List (Nat × α)} {n i : Nat} (hw : Written m n) (hi : i < n)
    (hl : n ≤ limit) : ∃ v, readEntry limit name m i = .ok v ∧ cellRead m i = some v := by
  obtain ⟨v, hv⟩ := Option.isSome_iff_exists.1 (hw i hi)
  exact ⟨v, readEntry_ok.2 ⟨by omega, hv⟩, hv⟩

theorem Written.cellWrite {m : List (Nat × α)} {n : Nat} (h : Written m n) (i : Nat) (v : α) :
    Written (cellWrite m i v) n := by
  intro k hk
  rw [cellRead_cellWrite]
  split
  · rfl
  · exact h k hk

/-- Writing the next entry extends the written part by one. -/
theorem Written.cellWrite_next {m : List (Nat × α)} {n : Nat} (h : Written m n) (v : α) :
    Written (Machine.cellWrite m n v) (n + 1) := by
  intro k hk
  rw [cellRead_cellWrite]
  split
  · rfl
  · exact h k (by omega)

theorem Written.mono {m : List (Nat × α)} {n k : Nat} (h : Written m n) (hk : k ≤ n) : Written m k :=
  fun j hj => h j (by omega)

theorem Written.zero (m : List (Nat × α)) : Written m 0 := fun _ h => absurd h (by omega)

/-- All a run of writes can do: it answers when it stays below the limit, and then the written entries hold the values in
order and every other entry is as before. -/
theorem writeRun_ok {limit : Nat} {name : MemName} {m m' : List (Nat × α)} {base : Nat} {vals : List α}
    (h : writeRun limit name m base vals = .ok m') :
    (∀ a, cellRead m' a = if base ≤ a ∧ a < base + vals.length then vals[a - base]? else cellRead m a) ∧
      (Memory.wf m → Memory.wf m') := by
  induction vals generalizing m base with
  | nil =>
    simp only [writeRun, Except.ok.injEq] at h
    subst h
    exact ⟨fun a => by rw [if_neg (by simp)], id⟩
  | cons v rest ih =>
    simp only [writeRun] at h
    cases hw : writeEntry limit name m base v with
    | error e => rw [hw] at h; cases h
    | ok m1 =>
      rw [hw] at h
      obtain ⟨-, rfl⟩ := writeEntry_ok.1 hw
      obtain ⟨h1, h2⟩ := ih h
      refine ⟨fun a => ?_, fun hm => h2 (wf_cellWrite hm _ _)⟩
      rw [h1 a, cellRead_cellWrite]
      simp only [List.length_cons]
      by_cases ha : a = base
      · subst ha; simp
      · by_cases hb : base + 1 ≤ a ∧ a < base + 1 + rest.length
        · rw [if_pos hb, if_pos (by omega)]
          obtain ⟨k, rfl⟩ : ∃ k, a = base + 1 + k := ⟨a - (base + 1), by omega⟩
          have e1 : base + 1 + k - (base + 1) = k := by omega
          have e2 : base + 1 + k - base = k + 1 := by omega
          simp [e1, e2]
        · rw [if_neg hb, if_neg ha, if_neg (by omega)]

/-- A run of writes below the limit answers. -/
theorem writeRun_total {limit : Nat} {name : MemName} (m : List (Nat × α)) {base : Nat} {vals : List α}
    (h : base + vals.length ≤ limit) : ∃ m', writeRun limit name m base vals = .ok m' := by
  induction vals generalizing m base with
  | nil => exact ⟨m, rfl⟩
  | cons v rest ih =>
    simp only [List.length_cons] at h
    obtain ⟨m', hm'⟩ := ih (m := cellWrite m base v) (base := base + 1) (by omega)
    refine ⟨m', ?_⟩
    rw [writeRun, writeEntry, if_pos (by omega)]
    exact hm'

/-- A run of reads of written entries answers them in order. -/
theorem readRun_written {limit : Nat} {name : MemName} {m : List (Nat × α)} {n : Nat} (hw : Written m n) (hl : n ≤ limit)
    {base len : Nat} (h : base + len ≤ n) :
    ∃ vals, readRun limit name m base len = .ok vals ∧ vals.length = len ∧
      ∀ k, k < len → vals[k]? = cellRead m (base + k) := by
  induction len generalizing base with
  | zero => exact ⟨[], rfl, rfl, fun k hk => absurd hk (by omega)⟩
  | succ len ih =>
    obtain ⟨v, hv, hc⟩ := readEntry_written (name := name) hw (show base < n by omega) hl
    obtain ⟨vals, h1, h2, h3⟩ := ih (base := base + 1) (by omega)
    refine ⟨v :: vals, ?_, by simp [h2], fun k hk => ?_⟩
    · rw [readRun, hv, h1]; rfl
    · cases k with
      | zero => simp [hc]
      | succ k => rw [List.getElem?_cons_succ, h3 k (by omega)]; congr 1; omega

end Sys2Proof.Machine
end

