-- ==== Sys2Proof/Laws/PerInstr.lean ====
section
/-! SUPPORT. Facts about every instruction as syntax, one lemma per constructor. -/

namespace Sys2Proof.Laws

/-- `ReadsItsBits`: the reads that read an element of the stream (40_bit_reader.md R149) take exactly the bits of its
encoding (30_encoding.md R100); a byte of `RECON` and a host command read nothing. -/
def ReadsItsBits.Statement (i : Instr) : Prop :=
  (Machine.readWidths i).sum = if i.inStream = true then (encode i).length else 0

namespace ReadsItsBits

/-- Single bits read in turn. -/
theorem ones (n : Nat) : (List.replicate n 1).sum = n := by simp

/-- A SEL of rank `j` has `j + 1` bits (30_encoding.md R109). -/
theorem unary_length (j : Nat) : (List.replicate j true ++ [false]).length = j + 1 := by simp

/-- The groupBits fields are 16 bits each. -/
theorem groups_length (bits : List (BitVec 16)) :
    (bits.flatMap fun f => bitsOf 16 f.toNat).length = (List.replicate bits.length 16).sum := by
  induction bits with
  | nil => rfl
  | cons f rest ih => rw [List.flatMap_cons, List.length_append, bitsOf_length, ih, List.length_cons, List.replicate_succ, List.sum_cons]

theorem hdr (d : BitVec 4) : Statement (.hdr d) := rfl

theorem hdrBadMagic (m : BitVec 24) : Statement (.hdrBadMagic m) := rfl

theorem hdrBadSize (d : Byte) : Statement (.hdrBadSize d) := rfl

theorem blk (bcrc : Word) (rand : Bool) (origPtr : BitVec 24) : Statement (.blk bcrc rand origPtr) := rfl

theorem eos (scrc : Word) : Statement (.eos scrc) := rfl

theorem badMark (m : BitVec 48) : Statement (.badMark m) := rfl

theorem inUse (g : BitVec 16) (bits : List (BitVec 16)) : Statement (.inUse g bits) := by
  show 16 + (List.replicate bits.length 16).sum = (bitsOf 16 g.toNat ++ bits.flatMap fun f => bitsOf 16 f.toNat).length
  rw [List.length_append, bitsOf_length, groups_length]

theorem nTrees (t : BitVec 3) : Statement (.nTrees t) := rfl

theorem nSel (n : BitVec 15) : Statement (.nSel n) := rfl

theorem sel (j : Nat) : Statement (.sel j) := (ones (j + 1)).trans (unary_length j).symm

theorem selOverrun (ones' : Nat) : Statement (.selOverrun ones') := (ones ones').trans (List.length_replicate ..).symm

theorem lBase (l : BitVec 5) : Statement (.lBase l) := rfl

theorem lEnd : Statement .lEnd := rfl

theorem lInc : Statement .lInc := rfl

theorem lDec : Statement .lDec := rfl

theorem runA (code : List Bool) : Statement (.runA code) := ones _

theorem runB (code : List Bool) : Statement (.runB code) := ones _

theorem mtf (v : Nat) (code : List Bool) : Statement (.mtf v code) := ones _

theorem eob (code : List Bool) : Statement (.eob code) := ones _

theorem huffNoMatch (bits : List Bool) : Statement (.huffNoMatch bits) := ones _

theorem invalidSym (v : Nat) (code : List Bool) : Statement (.invalidSym v code) := ones _

theorem lit (b : Byte) : Statement (.lit b) := rfl

theorem count (n : Byte) : Statement (.count n) := rfl

theorem rleTrunc : Statement .rleTrunc := rfl

theorem reset (source : Source) (owns : Bool) : Statement (.reset source owns) := rfl

theorem read (count : Nat) : Statement (.read count) := rfl

theorem close : Statement .close := rfl

theorem getCaps : Statement .getCaps := rfl

theorem getLength (args : List Nat) : Statement (.getLength args) := rfl

theorem getPosition (args : List Nat) : Statement (.getPosition args) := rfl

theorem setPosition (args : List Nat) : Statement (.setPosition args) := rfl

theorem seek (args : List Nat) : Statement (.seek args) := rfl

theorem setLength (args : List Nat) : Statement (.setLength args) := rfl

theorem write (args : List Nat) : Statement (.write args) := rfl

end ReadsItsBits

end Sys2Proof.Laws
end

