-- ==== Sys2Proof/Laws/State.lean ====
section
/-! SUPPORT. What each shared update leaves in each field: one lemma per field per update, so that no proof unfolds a
record update. -/

namespace Sys2Proof.Machine

@[simp] theorem State.consume_ctrl (i : Instr) (s : State) : (s.consume i).ctrl = s.ctrl := rfl
@[simp] theorem State.consume_reader (i : Instr) (s : State) : (s.consume i).reader = s.reader.advance (readWidths i) := rfl
@[simp] theorem State.consume_blk (i : Instr) (s : State) : (s.consume i).blk = s.blk := rfl
@[simp] theorem State.consume_tab (i : Instr) (s : State) : (s.consume i).tab = s.tab := rfl
@[simp] theorem State.consume_sym (i : Instr) (s : State) : (s.consume i).sym = s.sym := rfl
@[simp] theorem State.consume_bwt (i : Instr) (s : State) : (s.consume i).bwt = s.bwt := rfl
@[simp] theorem State.consume_rnd (i : Instr) (s : State) : (s.consume i).rnd = s.rnd := rfl
@[simp] theorem State.consume_exp (i : Instr) (s : State) : (s.consume i).exp = s.exp := rfl
@[simp] theorem State.consume_crc (i : Instr) (s : State) : (s.consume i).crc = s.crc := rfl
@[simp] theorem State.consume_mem (i : Instr) (s : State) : (s.consume i).mem = s.mem := rfl
@[simp] theorem State.consume_freeCount (i : Instr) (s : State) : (s.consume i).freeCount = s.freeCount := rfl
@[simp] theorem State.consume_seq (i : Instr) (s : State) : (s.consume i).seq = s.seq := rfl
@[simp] theorem State.consume_host (i : Instr) (s : State) : (s.consume i).host = s.host := rfl

@[simp] theorem State.goto_ctrl (p : Position) (s : State) : (s.goto p).ctrl = s.ctrl := rfl
@[simp] theorem State.goto_reader (p : Position) (s : State) : (s.goto p).reader = s.reader := rfl
@[simp] theorem State.goto_blk (p : Position) (s : State) : (s.goto p).blk = s.blk := rfl
@[simp] theorem State.goto_tab (p : Position) (s : State) : (s.goto p).tab = s.tab := rfl
@[simp] theorem State.goto_sym (p : Position) (s : State) : (s.goto p).sym = s.sym := rfl
@[simp] theorem State.goto_bwt (p : Position) (s : State) : (s.goto p).bwt = s.bwt := rfl
@[simp] theorem State.goto_rnd (p : Position) (s : State) : (s.goto p).rnd = s.rnd := rfl
@[simp] theorem State.goto_exp (p : Position) (s : State) : (s.goto p).exp = s.exp := rfl
@[simp] theorem State.goto_crc (p : Position) (s : State) : (s.goto p).crc = s.crc := rfl
@[simp] theorem State.goto_mem (p : Position) (s : State) : (s.goto p).mem = s.mem := rfl
@[simp] theorem State.goto_freeCount (p : Position) (s : State) : (s.goto p).freeCount = s.freeCount := rfl
@[simp] theorem State.goto_seq_pos (p : Position) (s : State) : (s.goto p).seq.pos = p := rfl
@[simp] theorem State.goto_seq_selIdx (p : Position) (s : State) : (s.goto p).seq.selIdx = s.seq.selIdx := rfl
@[simp] theorem State.goto_seq_treeIdx (p : Position) (s : State) : (s.goto p).seq.treeIdx = s.seq.treeIdx := rfl
@[simp] theorem State.goto_seq_symIdx (p : Position) (s : State) : (s.goto p).seq.symIdx = s.seq.symIdx := rfl
@[simp] theorem State.goto_seq_cur (p : Position) (s : State) : (s.goto p).seq.cur = s.seq.cur := rfl
@[simp] theorem State.goto_seq_readCount (p : Position) (s : State) : (s.goto p).seq.readCount = s.seq.readCount := rfl
@[simp] theorem State.goto_seq_readLeft (p : Position) (s : State) : (s.goto p).seq.readLeft = s.seq.readLeft := rfl
@[simp] theorem State.goto_seq_data (p : Position) (s : State) : (s.goto p).seq.data = s.seq.data := rfl
@[simp] theorem State.goto_seq_drained (p : Position) (s : State) : (s.goto p).seq.drained = s.seq.drained := rfl
@[simp] theorem State.goto_seq_expCount (p : Position) (s : State) : (s.goto p).seq.expCount = s.seq.expCount := rfl
@[simp] theorem State.goto_host (p : Position) (s : State) : (s.goto p).host = s.host := rfl

@[simp] theorem State.setPhase_ctrl_ownsSource (p : Phase) (s : State) : (s.setPhase p).ctrl.ownsSource = s.ctrl.ownsSource := rfl
@[simp] theorem State.setPhase_ctrl_phase (p : Phase) (s : State) : (s.setPhase p).ctrl.phase = p := rfl
@[simp] theorem State.setPhase_ctrl_faultCode (p : Phase) (s : State) : (s.setPhase p).ctrl.faultCode = s.ctrl.faultCode := rfl
@[simp] theorem State.setPhase_ctrl_closed (p : Phase) (s : State) : (s.setPhase p).ctrl.closed = s.ctrl.closed := rfl
@[simp] theorem State.setPhase_ctrl_factor (p : Phase) (s : State) : (s.setPhase p).ctrl.factor = s.ctrl.factor := rfl
@[simp] theorem State.setPhase_ctrl_capacity (p : Phase) (s : State) : (s.setPhase p).ctrl.capacity = s.ctrl.capacity := rfl
@[simp] theorem State.setPhase_ctrl_sourceReleased (p : Phase) (s : State) : (s.setPhase p).ctrl.sourceReleased = s.ctrl.sourceReleased := rfl
@[simp] theorem State.setPhase_reader (p : Phase) (s : State) : (s.setPhase p).reader = s.reader := rfl
@[simp] theorem State.setPhase_blk (p : Phase) (s : State) : (s.setPhase p).blk = s.blk := rfl
@[simp] theorem State.setPhase_tab (p : Phase) (s : State) : (s.setPhase p).tab = s.tab := rfl
@[simp] theorem State.setPhase_sym (p : Phase) (s : State) : (s.setPhase p).sym = s.sym := rfl
@[simp] theorem State.setPhase_bwt (p : Phase) (s : State) : (s.setPhase p).bwt = s.bwt := rfl
@[simp] theorem State.setPhase_rnd (p : Phase) (s : State) : (s.setPhase p).rnd = s.rnd := rfl
@[simp] theorem State.setPhase_exp (p : Phase) (s : State) : (s.setPhase p).exp = s.exp := rfl
@[simp] theorem State.setPhase_crc (p : Phase) (s : State) : (s.setPhase p).crc = s.crc := rfl
@[simp] theorem State.setPhase_mem (p : Phase) (s : State) : (s.setPhase p).mem = s.mem := rfl
@[simp] theorem State.setPhase_freeCount (p : Phase) (s : State) : (s.setPhase p).freeCount = s.freeCount := rfl
@[simp] theorem State.setPhase_seq (p : Phase) (s : State) : (s.setPhase p).seq = s.seq := rfl
@[simp] theorem State.setPhase_host (p : Phase) (s : State) : (s.setPhase p).host = s.host := rfl

@[simp] theorem State.respond_ctrl (r : Response) (s : State) : (s.respond r).ctrl = s.ctrl := rfl
@[simp] theorem State.respond_reader (r : Response) (s : State) : (s.respond r).reader = s.reader := rfl
@[simp] theorem State.respond_blk (r : Response) (s : State) : (s.respond r).blk = s.blk := rfl
@[simp] theorem State.respond_tab (r : Response) (s : State) : (s.respond r).tab = s.tab := rfl
@[simp] theorem State.respond_sym (r : Response) (s : State) : (s.respond r).sym = s.sym := rfl
@[simp] theorem State.respond_bwt (r : Response) (s : State) : (s.respond r).bwt = s.bwt := rfl
@[simp] theorem State.respond_rnd (r : Response) (s : State) : (s.respond r).rnd = s.rnd := rfl
@[simp] theorem State.respond_exp (r : Response) (s : State) : (s.respond r).exp = s.exp := rfl
@[simp] theorem State.respond_crc (r : Response) (s : State) : (s.respond r).crc = s.crc := rfl
@[simp] theorem State.respond_mem (r : Response) (s : State) : (s.respond r).mem = s.mem := rfl
@[simp] theorem State.respond_freeCount (r : Response) (s : State) : (s.respond r).freeCount = s.freeCount := rfl
@[simp] theorem State.respond_seq_pos (r : Response) (s : State) : (s.respond r).seq.pos = .idle := rfl
@[simp] theorem State.respond_seq_selIdx (r : Response) (s : State) : (s.respond r).seq.selIdx = s.seq.selIdx := rfl
@[simp] theorem State.respond_seq_treeIdx (r : Response) (s : State) : (s.respond r).seq.treeIdx = s.seq.treeIdx := rfl
@[simp] theorem State.respond_seq_symIdx (r : Response) (s : State) : (s.respond r).seq.symIdx = s.seq.symIdx := rfl
@[simp] theorem State.respond_seq_cur (r : Response) (s : State) : (s.respond r).seq.cur = s.seq.cur := rfl
@[simp] theorem State.respond_seq_readCount (r : Response) (s : State) : (s.respond r).seq.readCount = s.seq.readCount := rfl
@[simp] theorem State.respond_seq_readLeft (r : Response) (s : State) : (s.respond r).seq.readLeft = s.seq.readLeft := rfl
@[simp] theorem State.respond_seq_data (r : Response) (s : State) : (s.respond r).seq.data = s.seq.data := rfl
@[simp] theorem State.respond_seq_drained (r : Response) (s : State) : (s.respond r).seq.drained = s.seq.drained := rfl
@[simp] theorem State.respond_seq_expCount (r : Response) (s : State) : (s.respond r).seq.expCount = s.seq.expCount := rfl
@[simp] theorem State.respond_host_cmds (r : Response) (s : State) : (s.respond r).host.cmds = s.host.cmds := rfl
@[simp] theorem State.respond_host_responses (r : Response) (s : State) : (s.respond r).host.responses = s.host.responses ++ [r] := rfl

@[simp] theorem raiseFault_ctrl_ownsSource (k : FaultKind) (s : State) : (raiseFault k s).ctrl.ownsSource = s.ctrl.ownsSource := rfl
@[simp] theorem raiseFault_ctrl_phase (k : FaultKind) (s : State) : (raiseFault k s).ctrl.phase = .faulted := rfl
@[simp] theorem raiseFault_ctrl_faultCode (k : FaultKind) (s : State) : (raiseFault k s).ctrl.faultCode = k.code := rfl
@[simp] theorem raiseFault_ctrl_closed (k : FaultKind) (s : State) : (raiseFault k s).ctrl.closed = s.ctrl.closed := rfl
@[simp] theorem raiseFault_ctrl_factor (k : FaultKind) (s : State) : (raiseFault k s).ctrl.factor = s.ctrl.factor := rfl
@[simp] theorem raiseFault_ctrl_capacity (k : FaultKind) (s : State) : (raiseFault k s).ctrl.capacity = s.ctrl.capacity := rfl
@[simp] theorem raiseFault_ctrl_sourceReleased (k : FaultKind) (s : State) : (raiseFault k s).ctrl.sourceReleased = s.ctrl.sourceReleased := rfl
@[simp] theorem raiseFault_reader (k : FaultKind) (s : State) : (raiseFault k s).reader = s.reader := rfl
@[simp] theorem raiseFault_blk (k : FaultKind) (s : State) : (raiseFault k s).blk = s.blk := rfl
@[simp] theorem raiseFault_tab (k : FaultKind) (s : State) : (raiseFault k s).tab = s.tab := rfl
@[simp] theorem raiseFault_sym (k : FaultKind) (s : State) : (raiseFault k s).sym = s.sym := rfl
@[simp] theorem raiseFault_bwt (k : FaultKind) (s : State) : (raiseFault k s).bwt = s.bwt := rfl
@[simp] theorem raiseFault_rnd (k : FaultKind) (s : State) : (raiseFault k s).rnd = s.rnd := rfl
@[simp] theorem raiseFault_exp (k : FaultKind) (s : State) : (raiseFault k s).exp = s.exp := rfl
@[simp] theorem raiseFault_crc (k : FaultKind) (s : State) : (raiseFault k s).crc = s.crc := rfl
@[simp] theorem raiseFault_mem (k : FaultKind) (s : State) : (raiseFault k s).mem = s.mem := rfl
@[simp] theorem raiseFault_freeCount (k : FaultKind) (s : State) : (raiseFault k s).freeCount = s.freeCount := rfl
@[simp] theorem raiseFault_seq_pos (k : FaultKind) (s : State) : (raiseFault k s).seq.pos = .idle := rfl
@[simp] theorem raiseFault_seq_selIdx (k : FaultKind) (s : State) : (raiseFault k s).seq.selIdx = s.seq.selIdx := rfl
@[simp] theorem raiseFault_seq_treeIdx (k : FaultKind) (s : State) : (raiseFault k s).seq.treeIdx = s.seq.treeIdx := rfl
@[simp] theorem raiseFault_seq_symIdx (k : FaultKind) (s : State) : (raiseFault k s).seq.symIdx = s.seq.symIdx := rfl
@[simp] theorem raiseFault_seq_cur (k : FaultKind) (s : State) : (raiseFault k s).seq.cur = s.seq.cur := rfl
@[simp] theorem raiseFault_seq_readCount (k : FaultKind) (s : State) : (raiseFault k s).seq.readCount = s.seq.readCount := rfl
@[simp] theorem raiseFault_seq_readLeft (k : FaultKind) (s : State) : (raiseFault k s).seq.readLeft = s.seq.readLeft := rfl
@[simp] theorem raiseFault_seq_data (k : FaultKind) (s : State) : (raiseFault k s).seq.data = [] := rfl
@[simp] theorem raiseFault_seq_drained (k : FaultKind) (s : State) : (raiseFault k s).seq.drained = s.seq.drained := rfl
@[simp] theorem raiseFault_seq_expCount (k : FaultKind) (s : State) : (raiseFault k s).seq.expCount = s.seq.expCount := rfl
@[simp] theorem raiseFault_host_cmds (k : FaultKind) (s : State) : (raiseFault k s).host.cmds = s.host.cmds := rfl
@[simp] theorem raiseFault_host_responses (k : FaultKind) (s : State) : (raiseFault k s).host.responses = s.host.responses ++ [.fault k.code] := rfl

@[simp] theorem State.setRand_ctrl (b : Bool) (s : State) : (s.setRand b).ctrl = s.ctrl := rfl
@[simp] theorem State.setRand_reader (b : Bool) (s : State) : (s.setRand b).reader = s.reader := rfl
@[simp] theorem State.setRand_blk_storedCrc (b : Bool) (s : State) : (s.setRand b).blk.storedCrc = s.blk.storedCrc := rfl
@[simp] theorem State.setRand_blk_rand (b : Bool) (s : State) : (s.setRand b).blk.rand = b := rfl
@[simp] theorem State.setRand_blk_origPtr (b : Bool) (s : State) : (s.setRand b).blk.origPtr = s.blk.origPtr := rfl
@[simp] theorem State.setRand_tab (b : Bool) (s : State) : (s.setRand b).tab = s.tab := rfl
@[simp] theorem State.setRand_sym (b : Bool) (s : State) : (s.setRand b).sym = s.sym := rfl
@[simp] theorem State.setRand_bwt (b : Bool) (s : State) : (s.setRand b).bwt = s.bwt := rfl
@[simp] theorem State.setRand_rnd (b : Bool) (s : State) : (s.setRand b).rnd = s.rnd := rfl
@[simp] theorem State.setRand_exp (b : Bool) (s : State) : (s.setRand b).exp = s.exp := rfl
@[simp] theorem State.setRand_crc (b : Bool) (s : State) : (s.setRand b).crc = s.crc := rfl
@[simp] theorem State.setRand_mem (b : Bool) (s : State) : (s.setRand b).mem = s.mem := rfl
@[simp] theorem State.setRand_freeCount (b : Bool) (s : State) : (s.setRand b).freeCount = s.freeCount := rfl
@[simp] theorem State.setRand_seq (b : Bool) (s : State) : (s.setRand b).seq = s.seq := rfl
@[simp] theorem State.setRand_host (b : Bool) (s : State) : (s.setRand b).host = s.host := rfl

@[simp] theorem State.setClosed_ctrl_ownsSource (s : State) : (s.setClosed).ctrl.ownsSource = s.ctrl.ownsSource := rfl
@[simp] theorem State.setClosed_ctrl_phase (s : State) : (s.setClosed).ctrl.phase = s.ctrl.phase := rfl
@[simp] theorem State.setClosed_ctrl_faultCode (s : State) : (s.setClosed).ctrl.faultCode = s.ctrl.faultCode := rfl
@[simp] theorem State.setClosed_ctrl_closed (s : State) : (s.setClosed).ctrl.closed = true := rfl
@[simp] theorem State.setClosed_ctrl_factor (s : State) : (s.setClosed).ctrl.factor = s.ctrl.factor := rfl
@[simp] theorem State.setClosed_ctrl_capacity (s : State) : (s.setClosed).ctrl.capacity = s.ctrl.capacity := rfl
@[simp] theorem State.setClosed_ctrl_sourceReleased (s : State) : (s.setClosed).ctrl.sourceReleased = s.ctrl.sourceReleased := rfl
@[simp] theorem State.setClosed_reader (s : State) : (s.setClosed).reader = s.reader := rfl
@[simp] theorem State.setClosed_blk (s : State) : (s.setClosed).blk = s.blk := rfl
@[simp] theorem State.setClosed_tab (s : State) : (s.setClosed).tab = s.tab := rfl
@[simp] theorem State.setClosed_sym (s : State) : (s.setClosed).sym = s.sym := rfl
@[simp] theorem State.setClosed_bwt (s : State) : (s.setClosed).bwt = s.bwt := rfl
@[simp] theorem State.setClosed_rnd (s : State) : (s.setClosed).rnd = s.rnd := rfl
@[simp] theorem State.setClosed_exp (s : State) : (s.setClosed).exp = s.exp := rfl
@[simp] theorem State.setClosed_crc (s : State) : (s.setClosed).crc = s.crc := rfl
@[simp] theorem State.setClosed_mem (s : State) : (s.setClosed).mem = s.mem := rfl
@[simp] theorem State.setClosed_freeCount (s : State) : (s.setClosed).freeCount = s.freeCount := rfl
@[simp] theorem State.setClosed_seq (s : State) : (s.setClosed).seq = s.seq := rfl
@[simp] theorem State.setClosed_host (s : State) : (s.setClosed).host = s.host := rfl

@[simp] theorem startRelease_ctrl (s : State) : (startRelease s).ctrl = s.ctrl := rfl
@[simp] theorem startRelease_reader (s : State) : (startRelease s).reader = s.reader := rfl
@[simp] theorem startRelease_blk (s : State) : (startRelease s).blk = s.blk := rfl
@[simp] theorem startRelease_tab (s : State) : (startRelease s).tab = s.tab := rfl
@[simp] theorem startRelease_sym (s : State) : (startRelease s).sym = s.sym := rfl
@[simp] theorem startRelease_bwt (s : State) : (startRelease s).bwt = s.bwt := rfl
@[simp] theorem startRelease_rnd (s : State) : (startRelease s).rnd = s.rnd := rfl
@[simp] theorem startRelease_exp (s : State) : (startRelease s).exp = s.exp := rfl
@[simp] theorem startRelease_crc (s : State) : (startRelease s).crc = s.crc := rfl
@[simp] theorem startRelease_mem (s : State) : (startRelease s).mem = s.mem := rfl
@[simp] theorem startRelease_freeCount (s : State) : (startRelease s).freeCount = s.freeCount := rfl
@[simp] theorem startRelease_seq_pos (s : State) : (startRelease s).seq.pos = .release := rfl
@[simp] theorem startRelease_seq_selIdx (s : State) : (startRelease s).seq.selIdx = s.seq.selIdx := rfl
@[simp] theorem startRelease_seq_treeIdx (s : State) : (startRelease s).seq.treeIdx = s.seq.treeIdx := rfl
@[simp] theorem startRelease_seq_symIdx (s : State) : (startRelease s).seq.symIdx = s.seq.symIdx := rfl
@[simp] theorem startRelease_seq_cur (s : State) : (startRelease s).seq.cur = s.seq.cur := rfl
@[simp] theorem startRelease_seq_readCount (s : State) : (startRelease s).seq.readCount = s.seq.readCount := rfl
@[simp] theorem startRelease_seq_readLeft (s : State) : (startRelease s).seq.readLeft = readAmount s.seq.readCount s.exp.remaining := rfl
@[simp] theorem startRelease_seq_data (s : State) : (startRelease s).seq.data = s.seq.data := rfl
@[simp] theorem startRelease_seq_drained (s : State) : (startRelease s).seq.drained = s.seq.drained := rfl
@[simp] theorem startRelease_seq_expCount (s : State) : (startRelease s).seq.expCount = s.seq.expCount := rfl
@[simp] theorem startRelease_host (s : State) : (startRelease s).host = s.host := rfl

@[simp] theorem drain_ctrl_ownsSource (s : State) : (drain s).ctrl.ownsSource = s.ctrl.ownsSource := rfl
@[simp] theorem drain_ctrl_phase (s : State) : (drain s).ctrl.phase = .blockPending := rfl
@[simp] theorem drain_ctrl_faultCode (s : State) : (drain s).ctrl.faultCode = s.ctrl.faultCode := rfl
@[simp] theorem drain_ctrl_closed (s : State) : (drain s).ctrl.closed = s.ctrl.closed := rfl
@[simp] theorem drain_ctrl_factor (s : State) : (drain s).ctrl.factor = s.ctrl.factor := rfl
@[simp] theorem drain_ctrl_capacity (s : State) : (drain s).ctrl.capacity = s.ctrl.capacity := rfl
@[simp] theorem drain_ctrl_sourceReleased (s : State) : (drain s).ctrl.sourceReleased = s.ctrl.sourceReleased := rfl
@[simp] theorem drain_reader (s : State) : (drain s).reader = s.reader := rfl
@[simp] theorem drain_blk (s : State) : (drain s).blk = s.blk := rfl
@[simp] theorem drain_tab (s : State) : (drain s).tab = s.tab := rfl
@[simp] theorem drain_sym (s : State) : (drain s).sym = s.sym := rfl
@[simp] theorem drain_bwt (s : State) : (drain s).bwt = s.bwt := rfl
@[simp] theorem drain_rnd (s : State) : (drain s).rnd = s.rnd := rfl
@[simp] theorem drain_exp (s : State) : (drain s).exp = s.exp := rfl
@[simp] theorem drain_crc_combined (s : State) : (drain s).crc.combined = foldCrc s.crc.combined s.crc.block := rfl
@[simp] theorem drain_crc_running (s : State) : (drain s).crc.running = s.crc.running := rfl
@[simp] theorem drain_crc_block (s : State) : (drain s).crc.block = s.crc.block := rfl
@[simp] theorem drain_mem (s : State) : (drain s).mem = s.mem := rfl
@[simp] theorem drain_freeCount (s : State) : (drain s).freeCount = s.freeCount := rfl
@[simp] theorem drain_seq_pos (s : State) : (drain s).seq.pos = .marker := rfl
@[simp] theorem drain_seq_selIdx (s : State) : (drain s).seq.selIdx = s.seq.selIdx := rfl
@[simp] theorem drain_seq_treeIdx (s : State) : (drain s).seq.treeIdx = s.seq.treeIdx := rfl
@[simp] theorem drain_seq_symIdx (s : State) : (drain s).seq.symIdx = s.seq.symIdx := rfl
@[simp] theorem drain_seq_cur (s : State) : (drain s).seq.cur = s.seq.cur := rfl
@[simp] theorem drain_seq_readCount (s : State) : (drain s).seq.readCount = s.seq.readCount := rfl
@[simp] theorem drain_seq_readLeft (s : State) : (drain s).seq.readLeft = s.seq.readLeft := rfl
@[simp] theorem drain_seq_data (s : State) : (drain s).seq.data = s.seq.data := rfl
@[simp] theorem drain_seq_drained (s : State) : (drain s).seq.drained = true := rfl
@[simp] theorem drain_seq_expCount (s : State) : (drain s).seq.expCount = s.seq.expCount := rfl
@[simp] theorem drain_host (s : State) : (drain s).host = s.host := rfl

@[simp] theorem State.resetWith_host (source : Source) (owns : Bool) (s : State) : (s.resetWith source owns).host = s.host := rfl
@[simp] theorem State.resetWith_freeCount (source : Source) (owns : Bool) (s : State) : (s.resetWith source owns).freeCount = s.freeCount + 1 := rfl
@[simp] theorem State.resetWith_ctrl_phase (source : Source) (owns : Bool) (s : State) : (s.resetWith source owns).ctrl.phase = .header := rfl
@[simp] theorem State.resetWith_ctrl_faultCode (source : Source) (owns : Bool) (s : State) : (s.resetWith source owns).ctrl.faultCode = 0 := rfl
@[simp] theorem State.resetWith_ctrl_closed (source : Source) (owns : Bool) (s : State) : (s.resetWith source owns).ctrl.closed = false := rfl
@[simp] theorem State.resetWith_ctrl_ownsSource (source : Source) (owns : Bool) (s : State) : (s.resetWith source owns).ctrl.ownsSource = owns := rfl
@[simp] theorem State.resetWith_ctrl_sourceReleased (source : Source) (owns : Bool) (s : State) : (s.resetWith source owns).ctrl.sourceReleased = false := rfl
@[simp] theorem State.resetWith_reader (source : Source) (owns : Bool) (s : State) : (s.resetWith source owns).reader = Reader.start source := rfl
@[simp] theorem State.resetWith_crc_combined (source : Source) (owns : Bool) (s : State) : (s.resetWith source owns).crc.combined = 0 := rfl
@[simp] theorem State.resetWith_mem (source : Source) (owns : Bool) (s : State) : (s.resetWith source owns).mem = ⟨false, [], [], []⟩ := rfl
@[simp] theorem State.resetWith_seq_pos (source : Source) (owns : Bool) (s : State) : (s.resetWith source owns).seq.pos = .idle := rfl

/-! ### ExpanderReset (46_output_rle.md R265) -/

@[simp] theorem expanderReset_ctrl (s : State) : (expanderReset s).ctrl = s.ctrl := rfl
@[simp] theorem expanderReset_reader (s : State) : (expanderReset s).reader = s.reader := rfl
@[simp] theorem expanderReset_blk (s : State) : (expanderReset s).blk = s.blk := rfl
@[simp] theorem expanderReset_tab (s : State) : (expanderReset s).tab = s.tab := rfl
@[simp] theorem expanderReset_sym (s : State) : (expanderReset s).sym = s.sym := rfl
@[simp] theorem expanderReset_bwt (s : State) : (expanderReset s).bwt = s.bwt := rfl
@[simp] theorem expanderReset_rnd (s : State) : (expanderReset s).rnd = s.rnd := rfl
@[simp] theorem expanderReset_crc (s : State) : (expanderReset s).crc = s.crc := rfl
@[simp] theorem expanderReset_mem (s : State) : (expanderReset s).mem = s.mem := rfl
@[simp] theorem expanderReset_seq (s : State) : (expanderReset s).seq = s.seq := rfl
@[simp] theorem expanderReset_host (s : State) : (expanderReset s).host = s.host := rfl
@[simp] theorem expanderReset_exp (s : State) : (expanderReset s).exp = ⟨0, 0, none, 0, s.exp.remaining⟩ := rfl
@[simp] theorem expanderReset_freeCount (s : State) : (expanderReset s).freeCount = s.freeCount + 1 := rfl

end Sys2Proof.Machine
end

