-- ==== Sys2Proof/Laws/Stages.lean ====
section
/-! SUPPORT. What each shared stage can do, said once: if it answers a state, this is the state. -/

namespace Sys2Proof.Machine

theorem outcomeOf_next {e : Except Fault State} {t : State} : outcomeOf e = .next t ↔ e = .ok t := by
  cases e <;> simp [outcomeOf]

@[simp] theorem outcomeOf_ok (s : State) : outcomeOf (.ok s) = .next s := rfl

/-- The whole of the run flush (42_mtf_symbols.md R197): only `BUF`, `N`, `RUN_LEN` and `RUN_SHIFT` change, and of `BUF`
only entries `N .. N + RUN_LEN - 1`, which become the head. -/
theorem flushRun_ok {s t : State} (h : flushRun s = .ok t) :
    ∃ buf, t = { s with
        mem := { s.mem with buf := buf }
        sym := { s.sym with
          n := s.sym.n + s.sym.runLen, runLen := 0
          runShift := if 0 < s.sym.runLen then 0 else s.sym.runShift } } ∧
      (Memory.wf s.mem.buf → Memory.wf buf) ∧
      ∀ a, cellRead buf a = if s.sym.n ≤ a ∧ a < s.sym.n + s.sym.runLen then some (mtfHead s) else cellRead s.mem.buf a := by
  unfold flushRun at h
  split at h
  · rename_i hpos
    cases hw : writeRun s.entries .buf s.mem.buf s.sym.n (List.replicate s.sym.runLen (mtfHead s)) with
    | error e => rw [hw] at h; cases h
    | ok buf =>
      rw [hw] at h
      obtain ⟨h1, h2⟩ := writeRun_ok hw
      refine ⟨buf, ?_, h2, fun a => ?_⟩
      · simp only [if_pos hpos]; exact (Except.ok.inj h).symm
      · rw [h1 a, List.length_replicate]
        split
        · rename_i ha
          rw [List.getElem?_replicate, if_pos (by omega)]
        · rfl
  · rename_i hpos
    obtain rfl : s = t := Except.ok.inj h
    have h0 : s.sym.runLen = 0 := by omega
    refine ⟨s.mem.buf, ?_, id, fun a => ?_⟩
    · simp only [h0, Nat.add_zero]
      obtain ⟨_, _, _, _, sym, _, _, _, _, _, _, _⟩ := s
      cases sym
      simp_all
    · rw [if_neg (by omega)]

/-- The flush answers when the run fits below the limit. -/
theorem flushRun_total {s : State} (h : s.sym.n + s.sym.runLen ≤ s.entries) : ∃ t, flushRun s = .ok t := by
  unfold flushRun
  split
  · obtain ⟨buf, hb⟩ := writeRun_total (name := .buf) s.mem.buf
      (vals := List.replicate s.sym.runLen (mtfHead s)) (base := s.sym.n) (limit := s.entries) (by simpa using h)
    rw [hb]
    exact ⟨_, rfl⟩
  · exact ⟨s, rfl⟩

/-- The whole of the MTF class after the flush (42_mtf_symbols.md R199). -/
theorem mtfSymbol_ok {v : Nat} {s t : State} (h : mtfSymbol v s = .ok t) :
    (s.ctrl.capacity < s.sym.n + 1 ∧ t = raiseFault .blockOverflow s) ∨
      (s.sym.n + 1 ≤ s.ctrl.capacity ∧ s.sym.n < s.entries ∧
        t = { s with
          mem := { s.mem with buf := cellWrite s.mem.buf s.sym.n ((getAndMove s.sym.mtf (mtfRank v)).1.getD 0) }
          sym := { s.sym with mtf := (getAndMove s.sym.mtf (mtfRank v)).2, n := s.sym.n + 1 }
          seq := { s.seq with pos := .symbol } }) := by
  unfold mtfSymbol at h
  split at h
  · rename_i ho
    exact .inl ⟨by simpa [overflows] using ho, (Except.ok.inj h).symm⟩
  · rename_i ho
    have hcap : s.sym.n + 1 ≤ s.ctrl.capacity := by simpa [overflows] using ho
    refine .inr ⟨hcap, ?_⟩
    cases hw : writeEntry s.entries .buf s.mem.buf s.sym.n ((getAndMove s.sym.mtf (mtfRank v)).1.getD 0) with
    | error e => simp only [hw] at h; cases h
    | ok buf =>
      simp only [hw] at h
      obtain ⟨h1, rfl⟩ := writeEntry_ok.1 hw
      exact ⟨h1, (Except.ok.inj h).symm⟩

/-- The MTF class answers when the memories hold `CAPACITY` entries. -/
theorem mtfSymbol_total {v : Nat} {s : State} (h : s.entries = s.ctrl.capacity) : ∃ t, mtfSymbol v s = .ok t := by
  unfold mtfSymbol
  split
  · exact ⟨_, rfl⟩
  · rename_i ho
    have hcap : s.sym.n + 1 ≤ s.ctrl.capacity := by simpa [overflows] using ho
    simp only [writeEntry, h, if_pos (show s.sym.n < s.ctrl.capacity by omega)]
    exact ⟨_, rfl⟩

/-- `EXP_PREV` with a value reads as it. -/
theorem prevByte_some {s : State} {b : Byte} (h : s.exp.prev = some b) : prevByte s = b := by simp [prevByte, h]

/-- Returning a byte changes the expander's `EXP_REMAINING`, the running CRC and the sequencer's counts, nothing else. -/
theorem returnByte_cases (b : Byte) (s : State) :
    (s.ctrl.phase = .blockActive ∧ returnByte b s = { s with
        exp := { s.exp with remaining := s.exp.remaining - 1 }
        seq := { s.seq with data := s.seq.data ++ [b], readLeft := s.seq.readLeft - 1 } }) ∨
      (s.ctrl.phase ≠ .blockActive ∧ returnByte b s = { s with
        crc := { s.crc with running := crcUpdate s.crc.running b }
        seq := { s.seq with expCount := s.seq.expCount + 1 } }) := by
  unfold returnByte
  split
  · exact .inl ⟨‹_›, rfl⟩
  · exact .inr ⟨‹_›, rfl⟩

/-- The pointer table's writes keep the canonical form. -/
theorem pointerLoop_wf {limit i : Nat} {bytes : List Byte} {cum cum' : List Nat} {tt tt' : List (Nat × Nat)}
    (h : pointerLoop limit i bytes cum tt = .ok (tt', cum')) (hw : Memory.wf tt) : Memory.wf tt' := by
  induction bytes generalizing i cum tt with
  | nil => cases h; exact hw
  | cons b rest ih =>
    rw [pointerLoop] at h
    cases hwr : writeEntry limit .tt tt (tableGet cum b.toNat) i with
    | error e => rw [hwr] at h; cases h
    | ok m =>
      rw [hwr] at h
      obtain ⟨-, rfl⟩ := writeEntry_ok.1 hwr
      exact ih h (wf_cellWrite hw _ _)

/-- The chain walk's writes keep the canonical form and write its `left` entries. -/
theorem chainWalk_ok {limit left k focus focus' : Nat} {buf recon recon' : List Host.Cell} {tt : List (Nat × Nat)}
    (h : chainWalk limit buf tt left k focus recon = .ok (recon', focus')) :
    (Memory.wf recon → Memory.wf recon') ∧ (Written recon k → Written recon' (k + left)) := by
  induction left generalizing k focus recon with
  | zero => cases h; exact ⟨id, id⟩
  | succ left ih =>
    rw [chainWalk] at h
    cases hb : readEntry limit .buf buf focus with
    | error e => rw [hb] at h; cases h
    | ok b =>
      cases hr : writeEntry limit .recon recon k b with
      | error e => rw [hb] at h; simp only [bind, Except.bind, hr] at h; cases h
      | ok m =>
        cases hf : readEntry limit .tt tt focus with
        | error e => rw [hb] at h; simp only [bind, Except.bind, hr, hf] at h; cases h
        | ok f =>
          rw [hb] at h
          simp only [bind, Except.bind, hr, hf] at h
          obtain ⟨-, rfl⟩ := writeEntry_ok.1 hr
          obtain ⟨h1, h2⟩ := ih h
          refine ⟨fun hw => h1 (wf_cellWrite hw _ _), fun hw => ?_⟩
          have := h2 (hw.cellWrite_next b)
          rwa [show k + 1 + left = k + (left + 1) by omega] at this

/-- The whole of the inverse transform (43_inverse_bwt.md R221 to R224): `FREQ`, `CUM`, `FOCUS`, `K`, `TT` and `RECON`
change, and the derandomiser is next. -/
theorem invertBlock_ok {s t : State} (h : invertBlock s = .ok t) :
    ∃ bytes tt cum first recon focus,
      readRun s.entries .buf s.mem.buf 0 s.sym.n = .ok bytes ∧
      pointerLoop s.entries 0 bytes (offsetsFrom 0 (byteCounts bytes)) s.mem.tt = .ok (tt, cum) ∧
      readEntry s.entries .tt tt s.blk.origPtr.toNat = .ok first ∧
      chainWalk s.entries s.mem.buf tt s.sym.n 0 first s.mem.recon = .ok (recon, focus) ∧
      t = { s with
        bwt := ⟨byteCounts bytes, cum, focus, s.sym.n - 1⟩
        mem := { s.mem with tt := tt, recon := recon }
        seq := { s.seq with pos := .derand } } := by
  unfold invertBlock at h
  cases h1 : readRun s.entries .buf s.mem.buf 0 s.sym.n with
  | error e => rw [h1] at h; cases h
  | ok bytes =>
    rw [h1] at h
    simp only [bind, Except.bind] at h
    cases h2 : pointerLoop s.entries 0 bytes (offsetsFrom 0 (byteCounts bytes)) s.mem.tt with
    | error e => rw [h2] at h; cases h
    | ok r =>
      obtain ⟨tt, cum⟩ := r
      rw [h2] at h
      simp only at h
      cases h3 : readEntry s.entries .tt tt s.blk.origPtr.toNat with
      | error e => rw [h3] at h; cases h
      | ok first =>
        rw [h3] at h
        simp only at h
        cases h4 : chainWalk s.entries s.mem.buf tt s.sym.n 0 first s.mem.recon with
        | error e => rw [h4] at h; cases h
        | ok r =>
          obtain ⟨recon, focus⟩ := r
          rw [h4] at h
          exact ⟨bytes, tt, cum, first, recon, focus, rfl, h2, h3, h4, (Except.ok.inj h).symm⟩

/-- One byte of the derandomiser (44_derandomizer.md R237): the loop's step, read or not. -/
theorem derandLoop_succ (limit left k : Nat) (d : Derand) (recon : List Host.Cell) :
    derandLoop limit (left + 1) k d recon =
      if (derandTick d).2 = true then
        match readEntry limit .recon recon k with
        | .ok b => derandLoop limit left (k + 1) (derandTick d).1 (cellWrite recon k (b ^^^ 0x01))
        | .error e => .error e
      else derandLoop limit left (k + 1) (derandTick d).1 recon := by
  rw [derandLoop]
  cases hf : (derandTick d).2 with
  | false => simp [hf, bind, Except.bind]
  | true =>
    simp only [bind, Except.bind, hf, if_true]
    cases hr : readEntry limit .recon recon k with
    | error e => rfl
    | ok b =>
      obtain ⟨h1, -⟩ := readEntry_ok.1 hr
      simp only [writeEntry, if_pos h1]

/-- The derandomiser keeps the canonical form and the written part. -/
theorem derandLoop_ok {limit left k : Nat} {d d' : Derand} {recon recon' : List Host.Cell}
    (h : derandLoop limit left k d recon = .ok (recon', d')) :
    (Memory.wf recon → Memory.wf recon') ∧ ∀ n, Written recon n → Written recon' n := by
  induction left generalizing k d recon with
  | zero => cases h; exact ⟨id, fun _ => id⟩
  | succ left ih =>
    rw [derandLoop_succ] at h
    split at h
    · cases hr : readEntry limit .recon recon k with
      | error e => rw [hr] at h; cases h
      | ok b =>
        rw [hr] at h
        obtain ⟨h1, h2⟩ := ih h
        exact ⟨fun hw => h1 (wf_cellWrite hw _ _), fun n hw => h2 n (hw.cellWrite _ _)⟩
    · exact ih h

/-- The derandomiser answers on a written block. -/
theorem derandLoop_total {limit left k : Nat} (d : Derand) {recon : List Host.Cell} (hw : Written recon (k + left))
    (hl : k + left ≤ limit) : ∃ r, derandLoop limit left k d recon = .ok r := by
  induction left generalizing k d recon with
  | zero => exact ⟨_, rfl⟩
  | succ left ih =>
    rw [derandLoop_succ]
    split
    · obtain ⟨b, hb, -⟩ := readEntry_written (name := .recon) hw (show k < k + (left + 1) by omega) hl
      rw [hb]
      exact ih _ (by rw [show k + 1 + left = k + (left + 1) by omega]; exact hw.cellWrite _ _) (by omega)
    · exact ih _ (by rwa [show k + 1 + left = k + (left + 1) by omega]) (by omega)

/-- The whole of the derandomiser stage (44_derandomizer.md R235 to R237). -/
theorem derandomise_ok {s t : State} (h : derandomise s = .ok t) :
    (s.blk.rand = false ∧ t = s.goto .prepassStart) ∨
      (s.blk.rand = true ∧ ∃ recon d, derandLoop s.entries s.sym.n 0 ⟨0, 0⟩ s.mem.recon = .ok (recon, d) ∧
        t = { s with
          rnd := d
          mem := { s.mem with recon := recon }
          seq := { s.seq with pos := .prepassStart } }) := by
  unfold derandomise at h
  split at h
  · rename_i hr
    cases hd : derandLoop s.entries s.sym.n 0 ⟨0, 0⟩ s.mem.recon with
    | error e => rw [hd] at h; cases h
    | ok r =>
      obtain ⟨recon, d⟩ := r
      rw [hd] at h
      exact .inr ⟨hr, recon, d, rfl, (Except.ok.inj h).symm⟩
  · rename_i hr
    exact .inl ⟨by simpa using hr, (Except.ok.inj h).symm⟩

/-- After NextMarker a READ answers, or goes on to release the active block (47_stream_control.md R287, R292). -/
theorem afterMarker_cases (s : State) :
    (s.seq.drained = true ∧ afterMarker s = s.respond (.data s.seq.data)) ∨
      (s.seq.drained = false ∧ s.ctrl.phase = .done ∧ afterMarker s = s.respond .eof) ∨
      (s.seq.drained = false ∧ s.ctrl.phase ≠ .done ∧ afterMarker s = startRelease s) := by
  unfold afterMarker
  cases hd : s.seq.drained with
  | true => exact .inl ⟨rfl, rfl⟩
  | false =>
    simp only [Bool.false_eq_true, if_false]
    split
    · exact .inr (.inl ⟨trivial, ‹_›, rfl⟩)
    · exact .inr (.inr ⟨trivial, ‹_›, rfl⟩)

/-- After the emitted bytes a READ drains the block or answers (47_stream_control.md R287). -/
theorem releaseDone_cases (s : State) :
    (s.exp.remaining = 0 ∧ releaseDone s = drain s) ∨
      (s.exp.remaining ≠ 0 ∧ releaseDone s = s.respond (.data s.seq.data)) := by
  unfold releaseDone
  split
  · exact .inl ⟨‹_›, rfl⟩
  · exact .inr ⟨‹_›, rfl⟩

/-- A READ that passes its checks parses the header or releases (47_stream_control.md R287). -/
theorem startRead_cases (count : Nat) (s : State) :
    (s.ctrl.phase = .header ∧ startRead count s = { s with seq := { s.seq with
        readCount := count, data := [], drained := false, pos := .header } }) ∨
      (s.ctrl.phase ≠ .header ∧ startRead count s = { s with seq := { s.seq with
        readCount := count, data := [], drained := false
        readLeft := readAmount count s.exp.remaining, pos := .release } }) := by
  unfold startRead
  simp only
  split
  · exact .inl ⟨‹_›, rfl⟩
  · exact .inr ⟨‹_›, rfl⟩

/-- The element after a SEL: the next SEL or the first base (30_encoding.md R100). -/
theorem nextSelector_cases (s : State) :
    (s.seq.selIdx < s.tab.numSel ∧ nextSelector s = s.goto .sel) ∨
      (s.tab.numSel ≤ s.seq.selIdx ∧
        nextSelector s = { s with seq := { s.seq with treeIdx := 0, pos := .lBase } }) := by
  unfold nextSelector
  split
  · exact .inl ⟨‹_›, rfl⟩
  · exact .inr ⟨by omega, rfl⟩

/-- After a symbol's length only `s`, `t` and the position move (41_huffman.md R176). -/
theorem afterLength_eq (s : State) : ∃ sym tree p, (p = .lCode ∨ p = .lBase ∨ p = .build) ∧
    afterLength s = { s with seq := { s.seq with symIdx := sym, treeIdx := tree, pos := p } } := by
  unfold afterLength
  split
  · exact ⟨_, _, .lCode, .inl rfl, rfl⟩
  · split
    · exact ⟨_, _, .lBase, .inr (.inl rfl), rfl⟩
    · exact ⟨_, _, .build, .inr (.inr rfl), rfl⟩

/-- BuildTree faults, or writes one tree's tables and moves on (41_huffman.md R161, R182). -/
theorem buildTree_cases (s : State) :
    (buildTree s = raiseFault .badCodeLength s) ∨ (buildTree s = raiseFault .huffmanOversubscribed s) ∨
      ∃ p, (p = .build ∨ p = .startSymbols) ∧ buildTree s = { s with
        tab := { s.tab with trees := s.tab.trees.set s.seq.treeIdx (buildTables (treeLengths s s.seq.treeIdx)) }
        seq := { s.seq with treeIdx := s.seq.treeIdx + 1, pos := p } } := by
  unfold buildTree
  simp only
  split
  · exact .inl rfl
  · split
    · exact .inr (.inl rfl)
    · refine .inr (.inr ⟨_, ?_, rfl⟩)
      split <;> simp

/-- A symbol slot changes only `GROUP_IDX`, `GROUP_LEFT` and `CUR_TREE` (41_huffman.md R180). -/
theorem takeSymbolSlot_eq (s : State) : ∃ idx left tree,
    takeSymbolSlot s = { s with sym := { s.sym with groupIdx := idx, groupLeft := left, curTree := tree } } := by
  unfold takeSymbolSlot nextGroup
  split
  · exact ⟨s.sym.groupIdx + 1, _, _, rfl⟩
  · exact ⟨s.sym.groupIdx, _, s.sym.curTree, rfl⟩

/-- The end of the pre-pass: the block check, then the block is active (46_output_rle.md R271, 45_crc.md R255). -/
theorem finishPrepass_cases (s : State) :
    (crcFinal s.crc.running ≠ s.blk.storedCrc ∧
      finishPrepass s = raiseFault .blockCrcMismatch { s with crc := { s.crc with block := crcFinal s.crc.running } }) ∨
    (crcFinal s.crc.running = s.blk.storedCrc ∧
      finishPrepass s = afterMarker { s with
        crc := { s.crc with block := crcFinal s.crc.running }
        exp := ⟨0, 0, none, 0, s.seq.expCount⟩
        ctrl := { s.ctrl with phase := .blockActive }
        freeCount := s.freeCount + 1 }) := by
  unfold finishPrepass
  simp only
  split
  · exact .inl ⟨‹_›, rfl⟩
  · rename_i h
    exact .inr ⟨Classical.not_not.1 h, rfl⟩

end Sys2Proof.Machine
end

