-- ==== Sys2Proof/Laws/Step.lean ====
section
/-! SUPPORT. What a step can do, said once: it is a stage, or the meaning of an instruction in a state that differs from
this one only in the group registers or in the command queue; and what every meaning does to the reader and the host's
side. -/

namespace Sys2Proof.Machine

/-- The check of 41_huffman.md R179. -/
theorem lengthOutOfRange_iff {cur : Nat} : lengthOutOfRange cur = true ↔ cur < 1 ∨ 20 < cur := by
  simp [lengthOutOfRange, Config.minCodeLen, Config.maxCodeLen]

/-- The check of 42_mtf_symbols.md R203. -/
theorem overflows_iff {total capacity : Nat} : overflows total capacity = true ↔ capacity < total := by
  simp [overflows]

/-- A step is a stage's outcome or an instruction's. -/
theorem step_cases {s : State} {r : Result} (h : step s = r) :
    (∃ r', nextWork s = .stage r' ∧ r = r') ∨ ∃ i u, nextWork s = .instr i u ∧ exec i u = r := by
  unfold step at h
  split at h
  · exact .inl ⟨_, ‹_›, h.symm⟩
  · exact .inr ⟨_, _, ‹_›, h⟩

/-- A run goes on from where its first step leads. -/
theorem run_next {s t : State} (h : step s = .next t) (k : Nat) :
    Host.Core.run Sys2Proof.core (k + 1) s = Host.Core.run Sys2Proof.core k t := by
  have unfoldRun (M : Host.Core) (x y : M.State) (hx : M.step x = .next y) : M.run (k + 1) x = M.run k y := by
    show (match M.step x with
      | .next z => M.run k z
      | .fault r => .fault r
      | .refused r => .refused r) = M.run k y
    rw [hx]
  exact unfoldRun core s t h

theorem workOf_instr {s u : State} {d : Decoded} {i : Instr} (h : workOf s d = .instr i u) :
    u = s ∧ ∃ rest, d = .ok (i, rest) := by
  unfold workOf at h
  split at h
  · cases h; exact ⟨rfl, _, rfl⟩
  · cases h

/-- The instruction of a step between commands is the oldest command's (47_stream_control.md R281). -/
theorem takeCommand_instr {s u : State} {i : Instr} (h : takeCommand s = .instr i u) :
    ∃ c rest, s.host.cmds = c :: rest ∧ decodeCommand c = some i ∧ u = { s with host := { s.host with cmds := rest } } := by
  unfold takeCommand at h
  split at h
  · cases h
  · rename_i c rest hc
    split at h
    · rename_i hi
      cases h
      exact ⟨c, rest, hc, hi, rfl⟩
    · cases h

/-- The instruction of an expander step (46_output_rle.md R266). -/
theorem expandNext_instr {s u : State} {i : Instr} {r : Result} (h : expandNext r s = .instr i u) :
    u = s ∧ s.exp.rep = 0 ∧ ∃ bits rest, reconBits s = .ok bits ∧ decode (.recon s.exp.run) bits = .ok (i, rest) := by
  unfold expandNext at h
  split at h
  · cases h
  · split at h
    · cases h
    · split at h
      · rename_i bits hb
        obtain ⟨rfl, rest, hd⟩ := workOf_instr h
        exact ⟨rfl, by omega, bits, rest, hb, hd⟩
      · cases h

/-- Waiting for the source changes when it answers and nothing else (47_stream_control.md R303). -/
theorem awaitSource_cases (s : State) :
    (s.reader.pace.later = [] ∧ s.awaitSource = s) ∨
      ∃ ready later, s.reader.pace.later = ready :: later ∧
        s.awaitSource = { s with reader := { s.reader with pace := ⟨ready, later⟩ } } := by
  unfold State.awaitSource
  split
  · exact .inl ⟨‹_›, rfl⟩
  · exact .inr ⟨_, _, ‹_›, rfl⟩

/-- The work of a step is the planned one, or the wait of an element whose requests are not all answered. -/
theorem nextWork_cases (s : State) :
    (∃ r, plannedWork s = .stage r ∧ nextWork s = .stage r) ∨
      ∃ i t, plannedWork s = .instr i t ∧
        ((t.reader.answers (readWidths i) = true ∧ nextWork s = .instr i t) ∨
          (t.reader.answers (readWidths i) = false ∧ nextWork s = .stage (.next s.awaitSource))) := by
  unfold nextWork
  cases plannedWork s with
  | stage r => exact .inl ⟨r, rfl, rfl⟩
  | instr i t =>
    refine .inr ⟨i, t, rfl, ?_⟩
    cases h : t.reader.answers (readWidths i)
    · exact .inr ⟨rfl, by simp [waitFor, h]⟩
    · exact .inl ⟨rfl, by simp [waitFor, h]⟩

/-- An instruction that is executed is the planned one, with every request answered. -/
theorem nextWork_planned {s u : State} {i : Instr} (h : nextWork s = .instr i u) :
    plannedWork s = .instr i u ∧ u.reader.answers (readWidths i) = true := by
  rcases nextWork_cases s with ⟨r, -, e⟩ | ⟨i', t, hp, ⟨ha, e⟩ | ⟨-, e⟩⟩ <;> rw [e] at h <;> cases h
  exact ⟨hp, ha⟩

/-- Where the instruction of a step comes from, and the state it is executed in. -/
theorem plannedWork_instr {s u : State} {i : Instr} (h : plannedWork s = .instr i u) :
    (s.seq.pos = .idle ∧ ∃ c rest, s.host.cmds = c :: rest ∧ decodeCommand c = some i ∧
        u = { s with host := { s.host with cmds := rest } }) ∨
      (∃ ctx rest, elementNext s = some (ctx, u) ∧
        decode ctx (streamBits s.reader.src s.reader.bitpos ctx.window) = .ok (i, rest)) ∨
      ((s.seq.pos = .prepass ∨ (s.seq.pos = .release ∧ s.seq.readLeft ≠ 0)) ∧ u = s ∧ s.exp.rep = 0 ∧
        ∃ bits rest, reconBits s = .ok bits ∧ decode (.recon s.exp.run) bits = .ok (i, rest)) := by
  unfold plannedWork at h
  split at h <;> rename_i hp
  · exact .inl ⟨hp, takeCommand_instr h⟩
  · obtain ⟨rfl, rest, hd⟩ := workOf_instr h
    exact .inr (.inl ⟨_, rest, by simp only [elementNext, hp], hd⟩)
  · obtain ⟨rfl, rest, hd⟩ := workOf_instr h
    exact .inr (.inl ⟨_, rest, by simp only [elementNext, hp], hd⟩)
  · obtain ⟨rfl, rest, hd⟩ := workOf_instr h
    exact .inr (.inl ⟨_, rest, by simp only [elementNext, hp], hd⟩)
  · obtain ⟨rfl, rest, hd⟩ := workOf_instr h
    exact .inr (.inl ⟨_, rest, by simp only [elementNext, hp], hd⟩)
  · obtain ⟨rfl, rest, hd⟩ := workOf_instr h
    exact .inr (.inl ⟨_, rest, by simp only [elementNext, hp], hd⟩)
  · obtain ⟨rfl, rest, hd⟩ := workOf_instr h
    exact .inr (.inl ⟨_, rest, by simp only [elementNext, hp], hd⟩)
  · obtain ⟨rfl, rest, hd⟩ := workOf_instr h
    exact .inr (.inl ⟨_, rest, by simp only [elementNext, hp], hd⟩)
  · unfold fetchLengthCode at h
    split at h
    · cases h
    · rename_i hr
      obtain ⟨rfl, rest, hd⟩ := workOf_instr h
      refine .inr (.inl ⟨_, rest, ?_, hd⟩)
      rw [lengthOutOfRange_iff] at hr
      simp only [elementNext, hp]
      rw [if_pos (by omega)]
  · cases h
  · cases h
  · unfold fetchSymbol at h
    split at h
    · cases h
    · rename_i hr
      obtain ⟨rfl, rest, hd⟩ := workOf_instr h
      refine .inr (.inl ⟨.symbol (currentTree (takeSymbolSlot s)) (takeSymbolSlot s).tab.numInUse, rest, ?_, ?_⟩)
      · simp only [selectorsUsedUp, decide_eq_true_eq] at hr
        simp only [elementNext, hp]
        rw [if_neg hr]
      · obtain ⟨_, _, _, e⟩ := takeSymbolSlot_eq s
        have hreader : (takeSymbolSlot s).reader = s.reader := by rw [e]
        rw [← hreader]
        exact hd
  · cases h
  · cases h
  · cases h
  · obtain ⟨h1, h2, h3⟩ := expandNext_instr h
    exact .inr (.inr ⟨.inl hp, h1, h2, h3⟩)
  · split at h
    · cases h
    · rename_i hr
      obtain ⟨h1, h2, h3⟩ := expandNext_instr h
      exact .inr (.inr ⟨.inr ⟨hp, hr⟩, h1, h2, h3⟩)

/-- The state an element is executed in differs only in the group registers (41_huffman.md R180). -/
theorem elementNext_eq {s u : State} {ctx : DecodeCtx} (h : elementNext s = some (ctx, u)) :
    ∃ idx left tree, u = { s with sym := { s.sym with groupIdx := idx, groupLeft := left, curTree := tree } } := by
  unfold elementNext at h
  split at h
  case h_8 => split at h <;> cases h; exact ⟨s.sym.groupIdx, s.sym.groupLeft, s.sym.curTree, rfl⟩
  case h_9 => split at h <;> cases h; exact takeSymbolSlot_eq s
  case h_10 => cases h
  all_goals cases h; exact ⟨s.sym.groupIdx, s.sym.groupLeft, s.sym.curTree, rfl⟩

/-- Where the position names an element, the planned work is what its bits decode to. -/
theorem plannedWork_element {s u : State} {ctx : DecodeCtx} (h : elementNext s = some (ctx, u)) :
    plannedWork s = workOf u (decode ctx (streamBits s.reader.src s.reader.bitpos ctx.window)) := by
  obtain ⟨_, _, _, e⟩ := elementNext_eq h
  have hr : u.reader = s.reader := by rw [e]
  unfold elementNext at h
  split at h <;> rename_i hp
  case h_8 =>
    split at h <;> cases h
    rename_i hc
    have : lengthOutOfRange s.seq.cur = false := by
      rw [← Bool.not_eq_true, lengthOutOfRange_iff]; omega
    simp [plannedWork, hp, fetchLengthCode, this, fetchStream, State.fetchBits]
  case h_9 =>
    split at h <;> cases h
    rename_i hc
    have : selectorsUsedUp s = false := by simpa [selectorsUsedUp] using hc
    simp only [plannedWork, hp, fetchSymbol, this, fetchStream, State.fetchBits, hr]
    rfl
  case h_10 => cases h
  all_goals
    cases h
    simp only [plannedWork, hp]
    rfl

/-- A computation that answers, answers at each step. -/
theorem bind_ok {ε α β : Type} {e : Except ε α} {f : α → Except ε β} {b : β} (h : (e >>= f) = .ok b) :
    ∃ a, e = .ok a ∧ f a = .ok b := by
  cases e with
  | error x => cases h
  | ok a => exact ⟨a, rfl, h⟩

theorem nextSelector_reader (s : State) : (nextSelector s).reader = s.reader := by
  rcases nextSelector_cases s with ⟨-, e⟩ | ⟨-, e⟩ <;> simp [e]

theorem afterMarker_reader (s : State) : (afterMarker s).reader = s.reader := by
  rcases afterMarker_cases s with ⟨-, e⟩ | ⟨-, -, e⟩ | ⟨-, -, e⟩ <;> rw [e] <;> rfl

/-- A flush leaves the reader and the host's side. -/
theorem flushRun_reader_host {s t : State} (h : flushRun s = .ok t) : t.reader = s.reader ∧ t.host = s.host := by
  obtain ⟨_, rfl, -⟩ := flushRun_ok h
  exact ⟨rfl, rfl⟩

theorem mtfSymbol_reader {v : Nat} {s t : State} (h : mtfSymbol v s = .ok t) : t.reader = s.reader := by
  rcases mtfSymbol_ok h with ⟨-, rfl⟩ | ⟨-, -, rfl⟩ <;> rfl

theorem returnByte_reader (b : Byte) (s : State) : (returnByte b s).reader = s.reader := by
  rcases returnByte_cases b s with ⟨-, e⟩ | ⟨-, e⟩ <;> rw [e]

/-- Every meaning but RESET moves the reader by exactly the reads of its element (40_bit_reader.md R149). -/
theorem exec_reader {i : Instr} {s t : State} (h : exec i s = .next t) :
    t.reader = s.reader.advance (readWidths i) ∨ ∃ source owns, i = .reset source owns ∧ t.reader = Reader.start source := by
  cases i with
  | hdr d => cases h; exact .inl rfl
  | hdrBadMagic m => cases h; exact .inl rfl
  | hdrBadSize d => cases h; exact .inl rfl
  | blk bcrc rand origPtr => exact .inl (by rw [← Host.Outcome.next.inj h]; simp [State.setRand])
  | eos scrc =>
    simp only [exec, execEos] at h
    split at h
    · cases h; exact .inl rfl
    · rw [← Host.Outcome.next.inj h]
      exact .inl (afterMarker_reader _)
  | badMark m => cases h; exact .inl rfl
  | inUse groupMap groupBits =>
    simp only [exec, execInUse] at h
    split at h <;> (rw [← Host.Outcome.next.inj h]; exact .inl rfl)
  | nTrees n =>
    simp only [exec, execNTrees] at h
    split at h <;> (rw [← Host.Outcome.next.inj h]; exact .inl rfl)
  | nSel n =>
    simp only [exec, execNSel] at h
    split at h <;> rw [← Host.Outcome.next.inj h]
    · exact .inl rfl
    · exact .inl (nextSelector_reader _)
  | sel j =>
    rw [← Host.Outcome.next.inj h]
    exact .inl (nextSelector_reader _)
  | selOverrun ones => cases h; exact .inl rfl
  | lBase l => cases h; exact .inl rfl
  | lEnd =>
    rw [← Host.Outcome.next.inj h]
    obtain ⟨_, _, _, -, e⟩ := afterLength_eq { s.consume .lEnd with tab := { s.tab with
      len := setLen s.tab.len s.seq.treeIdx s.seq.symIdx s.seq.cur } }
    exact .inl (congrArg State.reader e)
  | lInc => cases h; exact .inl rfl
  | lDec => cases h; exact .inl rfl
  | runA code =>
    rw [← Host.Outcome.next.inj h]
    unfold runSymbol
    simp only
    split <;> exact .inl rfl
  | runB code =>
    rw [← Host.Outcome.next.inj h]
    unfold runSymbol
    simp only
    split <;> exact .inl rfl
  | mtf v code =>
    obtain ⟨u, hu, ht⟩ := bind_ok (outcomeOf_next.1 h)
    exact .inl ((mtfSymbol_reader ht).trans (flushRun_reader_host hu).1)
  | eob code =>
    obtain ⟨u, hu, ht⟩ := bind_ok (outcomeOf_next.1 h)
    cases ht
    exact .inl (flushRun_reader_host hu).1
  | huffNoMatch bits => cases h; exact .inl rfl
  | invalidSym v code =>
    obtain ⟨u, hu, ht⟩ := bind_ok (outcomeOf_next.1 h)
    cases ht
    exact .inl (flushRun_reader_host hu).1
  | lit b => rw [← Host.Outcome.next.inj h]; exact .inl (returnByte_reader _ _)
  | count n =>
    rw [← Host.Outcome.next.inj h]
    split
    · exact .inl (returnByte_reader _ _)
    · exact .inl rfl
  | rleTrunc => cases h; exact .inl rfl
  | reset source owns => cases h; exact .inr ⟨source, owns, rfl, rfl⟩
  | read count =>
    simp only [exec, execRead] at h
    split at h
    · cases h; exact .inl rfl
    split at h
    · cases h; exact .inl rfl
    split at h
    · cases h; exact .inl rfl
    split at h
    · cases h; exact .inl rfl
    rw [← Host.Outcome.next.inj h]
    rcases startRead_cases count s with ⟨-, e⟩ | ⟨-, e⟩ <;> rw [e] <;> exact .inl rfl
  | close =>
    simp only [exec, execClose] at h
    split at h <;> (cases h; exact .inl rfl)
  | getCaps =>
    simp only [exec, execGetCaps] at h
    split at h <;> (cases h; exact .inl rfl)
  | getLength args => cases h; exact .inl rfl
  | getPosition args => cases h; exact .inl rfl
  | setPosition args => cases h; exact .inl rfl
  | seek args => cases h; exact .inl rfl
  | setLength args => cases h; exact .inl rfl
  | write args => cases h; exact .inl rfl

end Sys2Proof.Machine
end

