-- ==== Sys2Proof/Tests/Slice0.lean ====
section
/-! SUPPORT. The model's own tests. Expected values are the spec's worked examples and tables (the rule is named), or
words written out by hand from 30_encoding.md. The witnesses show that the hypotheses of each statement can be met. -/

namespace Sys2Proof.Tests

open Sys2Proof Sys2Proof.Machine

set_option Elab.async false

/-! ### Helpers -/

/-- Bits written as digits. -/
def digits (ds : List Nat) : List Bool := ds.map fun d => d == 1

/-- The outcome is a next state with a property. -/
def onNext (r : Result) (p : State → Bool) : Bool :=
  match r with
  | .next t => p t
  | .fault _ => false
  | .refused _ => false

/-- The reset state, at a position and phase, before a source. -/
def at' (p : Position) (ph : Phase) (source : List Byte) : State :=
  { State.reset with
    reader := Reader.start (.prompt source)
    ctrl := { State.reset.ctrl with phase := ph }
    seq := { State.reset.seq with pos := p } }

/-- Memories of one unit, in a block of `n` bytes. -/
def withBlock (n : Nat) (buf recon : List Host.Cell) (s : State) : State :=
  { s with
    ctrl := { s.ctrl with factor := 1, capacity := 100000 }
    sym := { s.sym with n := n }
    mem := ⟨true, buf, [], recon⟩ }

/-- The commands waiting. -/
def withCmds (cmds : List HostCmd) (s : State) : State := { s with host := { s.host with cmds := cmds } }

/-! ### Ill-formed terms are refused (one for each check of WellFormed) -/

theorem test_wf_hdr_digit_zero : (Instr.hdr 0).wf = false := by decide
theorem test_wf_hdr_digit_ten : (Instr.hdr 10).wf = false := by decide
theorem test_wf_badMagic_is_magic : (Instr.hdrBadMagic 0x425A68).wf = false := by decide
theorem test_wf_badSize_is_digit : (Instr.hdrBadSize 0x31).wf = false ∧ (Instr.hdrBadSize 0x39).wf = false := by decide
theorem test_wf_badMark_is_marker :
    (Instr.badMark 0x314159265359).wf = false ∧ (Instr.badMark 0x177245385090).wf = false := by decide
theorem test_wf_inUse_fields : (Instr.inUse 0x0200 []).wf = false ∧ (Instr.inUse 0x0200 [0x6002]).wf = true := by decide
theorem test_wf_sel_rank : (Instr.sel 6).wf = false := by decide
theorem test_wf_selOverrun_limits : (Instr.selOverrun 1).wf = false ∧ (Instr.selOverrun 7).wf = false := by decide
theorem test_wf_runA_code : (Instr.runA []).wf = false ∧ (Instr.runA (List.replicate 21 true)).wf = false := by decide
theorem test_wf_runB_code : (Instr.runB []).wf = false := by decide
theorem test_wf_mtf_value : (Instr.mtf 1 [true]).wf = false ∧ (Instr.mtf 257 [true]).wf = false := by decide
theorem test_wf_mtf_code : (Instr.mtf 2 []).wf = false := by decide
theorem test_wf_eob_code : (Instr.eob []).wf = false := by decide
theorem test_wf_huffNoMatch_code : (Instr.huffNoMatch []).wf = false := by decide
theorem test_wf_invalidSym : (Instr.invalidSym 2 [true]).wf = false ∧ (Instr.invalidSym 3 []).wf = false := by decide

/-! ### Every constructor's decoding, from words written out from 30_encoding.md -/

/-- R102: `0x42 0x5A 0x68`, digit `0x39`. -/
theorem test_decode_hdr : decode .header (digits
    [0,1,0,0,0,0,1,0, 0,1,0,1,1,0,1,0, 0,1,1,0,1,0,0,0, 0,0,1,1,1,0,0,1]) = .ok (.hdr 9, []) := by decide

/-- R116: the third magic byte `0x69`; the digit is not read. -/
theorem test_decode_hdrBadMagic : decode .header (digits
    [0,1,0,0,0,0,1,0, 0,1,0,1,1,0,1,0, 0,1,1,0,1,0,0,1, 1]) = .ok (.hdrBadMagic 0x425A69, [true]) := by decide

/-- R116: the digit `0x30`. -/
theorem test_decode_hdrBadSize : decode .header (digits
    [0,1,0,0,0,0,1,0, 0,1,0,1,1,0,1,0, 0,1,1,0,1,0,0,0, 0,0,1,1,0,0,0,0]) = .ok (.hdrBadSize 0x30, []) := by decide

/-- The block marker of R103, bit by bit. -/
def blkm : List Nat :=
  [0,0,1,1,0,0,0,1, 0,1,0,0,0,0,0,1, 0,1,0,1,1,0,0,1, 0,0,1,0,0,1,1,0, 0,1,0,1,0,0,1,1, 0,1,0,1,1,0,0,1]

/-- The end marker of R103, bit by bit. -/
def endm : List Nat :=
  [0,0,0,1,0,1,1,1, 0,1,1,1,0,0,1,0, 0,1,0,0,0,1,0,1, 0,0,1,1,1,0,0,0, 0,1,0,1,0,0,0,0, 1,0,0,1,0,0,0,0]

/-- R104: bcrc `0xEFB6EC01`, rand 1, origPtr 3. -/
theorem test_decode_blk : decode .marker (digits (blkm ++
    [1,1,1,0,1,1,1,1, 1,0,1,1,0,1,1,0, 1,1,1,0,1,1,0,0, 0,0,0,0,0,0,0,1] ++ [1] ++
    [0,0,0,0,0,0,0,0, 0,0,0,0,0,0,0,0, 0,0,0,0,0,0,1,1])) = .ok (.blk 0xEFB6EC01 true 3, []) := by decide

/-- R113: scrc `0xEFB6EC01`. -/
theorem test_decode_eos : decode .marker (digits (endm ++
    [1,1,1,0,1,1,1,1, 1,0,1,1,0,1,1,0, 1,1,1,0,1,1,0,0, 0,0,0,0,0,0,0,1])) = .ok (.eos 0xEFB6EC01, []) := by decide

/-- R116: the block marker with its last bit 0. -/
theorem test_decode_badMark :
    decode .marker (digits (blkm.take 47 ++ [0])) = .ok (.badMark 0x314159265358, []) := by decide

/-- R105, R106 (R190's example): group 6, then 'a', 'b' and 'n' within it. -/
theorem test_decode_inUse : decode .inUse (digits
    ([0,0,0,0,0,0,1,0, 0,0,0,0,0,0,0,0] ++ [0,1,1,0,0,0,0,0, 0,0,0,0,0,0,1,0])) =
    .ok (.inUse 0x0200 [0x6002], []) := by decide

/-- R107. -/
theorem test_decode_nTrees : decode .nTrees (digits [1,1,0]) = .ok (.nTrees 6, []) := by decide

/-- R108. -/
theorem test_decode_nSel : decode .nSel (digits [1,0,0,0,0,0,0,0,0,0,0,0,0,0,1]) = .ok (.nSel 0x4001, []) := by decide

/-- R109: two ones and a zero. -/
theorem test_decode_sel : decode (.sel 3) (digits [1,1,0,1]) = .ok (.sel 2, [true]) := by decide

/-- R109: with 3 trees the third one-bit ends it. -/
theorem test_decode_selOverrun : decode (.sel 3) (digits [1,1,1,0]) = .ok (.selOverrun 3, [false]) := by decide

/-- R110: the 5-bit base. -/
theorem test_decode_lBase : decode .lBase (digits [1,0,0,1,0]) = .ok (.lBase 18, []) := by decide

/-- R110. -/
theorem test_decode_lEnd : decode .lCode (digits [0,1]) = .ok (.lEnd, [true]) := by decide

/-- R110. -/
theorem test_decode_lInc : decode .lCode (digits [1,0]) = .ok (.lInc, []) := by decide

/-- R110. -/
theorem test_decode_lDec : decode .lCode (digits [1,1]) = .ok (.lDec, []) := by decide

/-- The tree of lengths 2 2 2 3 3: `00` `01` `10` `110` `111` (41_huffman.md R168). -/
def tree5 : Tree := buildTables [2, 2, 2, 3, 3]

/-- R111: value 0. -/
theorem test_decode_runA : decode (.symbol tree5 3) (digits [0,0,1]) = .ok (.runA (digits [0,0]), [true]) := by decide

/-- R111: value 1. -/
theorem test_decode_runB : decode (.symbol tree5 3) (digits [0,1,0]) = .ok (.runB (digits [0,1]), [false]) := by decide

/-- R111: value 3. -/
theorem test_decode_mtf : decode (.symbol tree5 3) (digits [1,1,0]) = .ok (.mtf 3 (digits [1,1,0]), []) := by decide

/-- R111: value `NUM_IN_USE + 1`. -/
theorem test_decode_eob : decode (.symbol tree5 3) (digits [1,1,1]) = .ok (.eob (digits [1,1,1]), []) := by decide

/-- R116 and 41_huffman.md R168: `11` is unused by the lengths 2 2 2. -/
theorem test_decode_huffNoMatch : decode (.symbol (buildTables [2, 2, 2]) 1) (digits [1,1,0]) =
    .ok (.huffNoMatch (digits [1,1]), [false]) := by decide

/-- 42_mtf_symbols.md R201: a value above `NUM_IN_USE + 1`, with a tree over too many symbols. -/
theorem test_decode_invalidSym : decode (.symbol tree5 1) (digits [1,1,0]) =
    .ok (.invalidSym 3 (digits [1,1,0]), []) := by decide

/-- R115 item 5: the run counter selects; 'a'. -/
theorem test_decode_lit : decode (.recon 3) (digits [0,1,1,0,0,0,0,1]) = .ok (.lit 0x61, []) := by decide

/-- R115 item 5. -/
theorem test_decode_count : decode (.recon 4) (digits [0,1,1,0,0,0,0,1]) = .ok (.count 0x61, []) := by decide

/-- 46_output_rle.md R270: no byte where a count is due; elsewhere the end of the block is no element. -/
theorem test_decode_rleTrunc :
    decode (.recon 4) [] = .ok (.rleTrunc, []) ∧ decode (.recon 3) [] = .error .blockEnd := by decide

/-- A list that ends inside a field is rejected by name. -/
theorem test_decode_truncated : decode .nTrees (digits [1,1]) = .error .truncated := by decide

/-- 47_stream_control.md R280: each command is its instruction, and one R280 does not name is none. -/
theorem test_decode_commands :
    decodeCommand (.reset (.prompt [1]) true) = some (.reset (.prompt [1]) true) ∧ decodeCommand (.read 3) = some (.read 3) ∧
    decodeCommand .close = some .close ∧ decodeCommand .getCaps = some .getCaps ∧
    decodeCommand (.getLength []) = some (.getLength []) ∧ decodeCommand (.getPosition []) = some (.getPosition []) ∧
    decodeCommand (.setPosition [1]) = some (.setPosition [1]) ∧ decodeCommand (.seek [2]) = some (.seek [2]) ∧
    decodeCommand (.setLength [3]) = some (.setLength [3]) ∧ decodeCommand (.write [4]) = some (.write [4]) ∧
    decodeCommand (.other 9 []) = none := by decide

/-- 30_encoding.md R121: the first 188 bits' fields of the banana stream decode in order from its bytes. -/
theorem test_decode_banana_inUse : decode .inUse (streamBits
    [0x42, 0x5A, 0x68, 0x31, 0x31, 0x41, 0x59, 0x26, 0x53, 0x59, 0xEF, 0xB6, 0xEC, 0x01, 0x00, 0x00, 0x01, 0x81,
     0x00, 0x30, 0x01, 0x20] 137 32) = .ok (.inUse 0x0200 [0x6002], []) := by decide

/-! ### Words of the opcode table, decoded and run as the first instruction after reset -/

theorem test_word_hdr : decodeTableWord 32 0x425A6831 = some (.hdr 1) := by decide
theorem test_word_lEnd : decodeTableWord 8 0 = some .lEnd := by decide
theorem test_word_lDec : decodeTableWord 8 3 = some .lDec := by decide
theorem test_word_lit : decodeTableWord 8 0x61 = some (.lit 0x61) := by decide

theorem test_step_word_hdr :
    onNext (step (State.reset.withFetchWord 32 0x425A6831)) (fun t => t.ctrl.capacity == 100000) = true := by
  decide +kernel

theorem test_step_word_eos : onNext (step (State.reset.withFetchWord 80 0x17724538509000000000))
    (fun t => t.ctrl.phase == .done) = true := by decide +kernel

theorem test_step_word_lit : onNext (step (State.reset.withFetchWord 8 0x61))
    (fun t => t.exp.prev == some 0x61 && t.seq.expCount == 1) = true := by decide +kernel

/-! ### The bit reader: 40_bit_reader.md R153 -/

/-- The source of R153. -/
def traceSource : List Byte := [0xB5, 0x3C, 0xF0, 0x0F, 0xAA]

/-- The reader after the first four rows. -/
def traceReader : Reader :=
  ((((Reader.start (.prompt traceSource)).readBits 3).2.readBits 5).2.peekBits 4).2.consumeBits 2

theorem test_trace_first : ((Reader.start (.prompt traceSource)).readBits 3).1 = 5 ∧ traceReader.bitpos = 10 ∧
    traceReader.srcPos = 4 ∧ traceReader.cnt = 22 := by decide

theorem test_trace_rest :
    (traceReader.readBits 12).1 = 0xF3C ∧ ((traceReader.readBits 12).2.peekBits 16).1 = 0x03EA ∧
    (((traceReader.readBits 12).2.peekBits 16).2.readBits 20).1 = 0x3EA8 ∧
    (((traceReader.readBits 12).2.peekBits 16).2.readBits 20).2.srcPos = 8 := by decide

/-! ### The source's answers: 40_bit_reader.md R141, 47_stream_control.md R303 -/

/-- The same state before a source that answers at a pace. -/
def paced (ready : Option Nat) (later : List (Option Nat)) (s : State) : State :=
  { s with reader := { s.reader with pace := ⟨ready, later⟩ } }

/-- The header of a stream. Its last read requests bytes 4 and 5 (60_exceptions.md R325: SRC_POS 6). -/
def beforeHeader : State := at' .header .header [0x42, 0x5A, 0x68, 0x31]

/-- R303, K1-18: byte 5 is never answered, and the READ never responds. -/
theorem test_wait_forever :
    onNext (step (paced (some 5) [] beforeHeader)) (fun t => t == paced (some 5) [] beforeHeader) = true := by decide +kernel

/-- R141: the source is slow, and the header is executed once byte 5 is answered. -/
theorem test_wait_slow :
    onNext (step (paced (some 5) [some 6] beforeHeader)) (fun t => t == paced (some 6) [] beforeHeader) = true ∧
    onNext (step (paced (some 6) [] beforeHeader)) (fun t => t.ctrl.capacity == 100000) = true := by decide +kernel

/-! ### Results of instructions and stages, one step each -/

/-- 47_stream_control.md R288: digit 9. -/
theorem test_exec_hdr : onNext (exec (.hdr 9) (at' .header .header [0x42, 0x5A, 0x68, 0x39]))
    (fun t => t.ctrl.factor == 9 && t.ctrl.capacity == 900000 && t.ctrl.phase == .blockPending &&
      t.reader.bitpos == 32) = true := by decide +kernel

/-- 60_exceptions.md R325: BITPOS 24, SRC_POS 4. -/
theorem test_exec_hdrBadMagic : onNext (exec (.hdrBadMagic 0x425A69) (at' .header .header [0x42, 0x5A, 0x69, 0x39]))
    (fun t => t.ctrl.faultCode == 1 && t.reader.bitpos == 24 && t.reader.srcPos == 4) = true := by decide +kernel

/-- 60_exceptions.md R325: BITPOS 32, SRC_POS 6. -/
theorem test_exec_hdrBadSize : onNext (exec (.hdrBadSize 0x30) (at' .header .header [0x42, 0x5A, 0x68, 0x30]))
    (fun t => t.ctrl.faultCode == 2 && t.reader.bitpos == 32 && t.reader.srcPos == 6 &&
      t.host.responses == [.fault 2]) = true := by decide +kernel

/-- 47_stream_control.md R290. -/
theorem test_exec_blk : onNext (exec (.blk 0xEFB6EC01 true 3) (at' .marker .blockPending []))
    (fun t => t.blk == ⟨0xEFB6EC01, true, 3⟩ && t.reader.bitpos == 105) = true := by decide +kernel

/-- 45_crc.md R257: a stream with no block needs scrc 0. -/
theorem test_exec_eos : onNext (exec (.eos 0) (at' .marker .blockPending []))
    (fun t => t.ctrl.phase == .done && t.host.responses == [.eof]) = true := by decide +kernel

/-- 60_exceptions.md R310: code 17. -/
theorem test_exec_eos_mismatch : onNext (exec (.eos 1) (at' .marker .blockPending []))
    (fun t => t.ctrl.phase == .faulted && t.host.responses == [.fault 17]) = true := by decide +kernel

/-- 47_stream_control.md R294: the 48 bits and nothing after them. -/
theorem test_exec_badMark : onNext (exec (.badMark 0x314159265358) (at' .marker .blockPending []))
    (fun t => t.ctrl.faultCode == 3 && t.reader.bitpos == 48) = true := by decide +kernel

/-- 42_mtf_symbols.md R190's example. -/
theorem test_exec_inUse : onNext (exec (.inUse 0x0200 [0x6002]) (at' .inUse .blockPending []))
    (fun t => t.tab.inUseList == [0x61, 0x62, 0x6E] && t.tab.numInUse == 3 && t.tab.alpha == 5) = true := by
  decide +kernel

/-- 42_mtf_symbols.md R202. -/
theorem test_exec_inUse_none : onNext (exec (.inUse 0x0001 [0]) (at' .inUse .blockPending []))
    (fun t => t.ctrl.faultCode == 4 && t.reader.bitpos == 32) = true := by decide +kernel

/-- 41_huffman.md R170's example. -/
theorem test_exec_nTrees : onNext (exec (.nTrees 2) (at' .nTrees .blockPending []))
    (fun t => t.tab.numTrees == 2) = true := by decide +kernel

/-- 41_huffman.md R170: 7 faults. -/
theorem test_exec_nTrees_seven : onNext (exec (.nTrees 7) (at' .nTrees .blockPending []))
    (fun t => t.ctrl.faultCode == 5 && t.tab.numTrees == 0) = true := by decide +kernel

/-- The selector table of three trees. -/
def threeTrees : State :=
  let s := at' .sel .blockPending []
  { s with tab := { s.tab with numTrees := 3, numSel := 2, selMtf := [0, 1, 2, 0, 0, 0] } }

/-- 41_huffman.md R171, R172. -/
theorem test_exec_nSel : onNext (exec (.nSel 1) { threeTrees with tab := { threeTrees.tab with selMtf := [5, 5, 5, 9] } })
    (fun t => t.tab.numSel == 1 && t.tab.selMtf == [0, 1, 2, 9] && t.seq.pos == .sel) = true := by decide +kernel

/-- 41_huffman.md R171: 0 faults. -/
theorem test_exec_nSel_zero : onNext (exec (.nSel 0) threeTrees) (fun t => t.ctrl.faultCode == 6) = true := by
  decide +kernel

/-- 41_huffman.md R173's example: `10` then `110`, the first. -/
theorem test_exec_sel : onNext (exec (.sel 1) threeTrees)
    (fun t => t.tab.selMtf.take 3 == [1, 0, 2] && t.tab.selector == [1] && t.seq.pos == .sel) = true := by decide +kernel

/-- 41_huffman.md R173's example, the second. -/
theorem test_exec_sel_second : onNext (exec (.sel 2) { threeTrees with
      tab := { threeTrees.tab with selMtf := [1, 0, 2, 0, 0, 0], selector := [1] }
      seq := { threeTrees.seq with selIdx := 1 } })
    (fun t => t.tab.selMtf.take 3 == [2, 1, 0] && t.tab.selector == [1, 2] && t.seq.pos == .lBase) = true := by
  decide +kernel

/-- 41_huffman.md R174: the fault with three one-bits read. -/
theorem test_exec_selOverrun : onNext (exec (.selOverrun 3) threeTrees)
    (fun t => t.ctrl.faultCode == 7 && t.reader.bitpos == 3) = true := by decide +kernel

/-- At a length code of symbol 1 of tree 0. -/
def atLength (cur : Nat) : State :=
  let s := at' .lCode .blockPending []
  { s with tab := { s.tab with alpha := 3, numTrees := 2 }, seq := { s.seq with cur := cur, symIdx := 1 } }

/-- 41_huffman.md R175. -/
theorem test_exec_lBase : onNext (exec (.lBase 2) (atLength 7))
    (fun t => t.seq.cur == 2 && t.seq.symIdx == 0 && t.reader.bitpos == 5) = true := by decide +kernel

/-- 41_huffman.md R176's example. -/
theorem test_exec_lEnd : onNext (exec .lEnd (atLength 5))
    (fun t => (t.tab.len.getD 0 []).take 3 == [0, 5, 0] && t.seq.symIdx == 2 && t.seq.pos == .lCode) = true := by
  decide +kernel

/-- 41_huffman.md R176: after the last symbol, the next tree's base. -/
theorem test_exec_lEnd_last : onNext (exec .lEnd { atLength 5 with seq := { (atLength 5).seq with symIdx := 2 } })
    (fun t => t.seq.treeIdx == 1 && t.seq.pos == .lBase) = true := by decide +kernel

/-- 41_huffman.md R177's example. -/
theorem test_exec_lInc : onNext (exec .lInc (atLength 2)) (fun t => t.seq.cur == 3 && t.reader.bitpos == 2) = true := by
  decide +kernel

/-- 41_huffman.md R178's example. -/
theorem test_exec_lDec : onNext (exec .lDec (atLength 6)) (fun t => t.seq.cur == 5) = true := by decide +kernel

/-- 41_huffman.md R179: at 21 the fault comes with no bit read. -/
theorem test_step_length_range : onNext (step (atLength 21))
    (fun t => t.ctrl.faultCode == 8 && t.reader.bitpos == 0 && t.reader.srcPos == 0) = true := by decide +kernel

/-- 41_huffman.md R168: worked codes. -/
theorem test_canonCode : (List.range 5).map (canonCode [1, 3, 3, 3, 3]) =
    [digits [0], digits [1,0,0], digits [1,0,1], digits [1,1,0], digits [1,1,1]] := by decide

/-- 41_huffman.md R168: oversubscribed lists. -/
theorem test_kraftSum : 2 ^ 20 < kraftSum [1, 1, 2] ∧ 2 ^ 20 < kraftSum [1, 1, 1] ∧ kraftSum [1, 2, 3, 3] = 2 ^ 20 := by
  decide

/-- In the symbol stream, with the table `a b n`, `N` bytes and a pending run. -/
def inSymbols (n runLen runShift : Nat) : State :=
  let s := withBlock n [] [] (at' .symbol .blockPending [])
  { s with
    tab := { s.tab with numInUse := 3 }
    sym := { s.sym with mtf := [0x61, 0x62, 0x6E], runLen := runLen, runShift := runShift } }

/-- 42_mtf_symbols.md R196: RUNA RUNA gives 3. -/
theorem test_exec_runA : onNext (exec (.runA [false]) (inSymbols 0 1 1))
    (fun t => t.sym.runLen == 3 && t.sym.runShift == 2 && t.mem.buf == []) = true := by decide +kernel

/-- 42_mtf_symbols.md R203: one byte over the capacity. -/
theorem test_exec_runA_overflow : onNext (exec (.runA [false]) (inSymbols 100000 0 0))
    (fun t => t.ctrl.faultCode == 13 && t.sym.runLen == 1) = true := by decide +kernel

/-- 42_mtf_symbols.md R204: RUNA RUNB gives 5. -/
theorem test_exec_runB : onNext (exec (.runB [false]) (inSymbols 0 1 1))
    (fun t => t.sym.runLen == 5 && t.sym.runShift == 2) = true := by decide +kernel

/-- 42_mtf_symbols.md R198: the last byte of the capacity is legal, the next is not. -/
theorem test_exec_runB_limit :
    onNext (exec (.runB [false]) (inSymbols 99998 0 0)) (fun t => t.ctrl.faultCode == 0) = true ∧
    onNext (exec (.runB [false]) (inSymbols 99999 0 0)) (fun t => t.ctrl.faultCode == 13) = true := by decide +kernel

/-- 42_mtf_symbols.md R199's example. -/
theorem test_exec_mtf : onNext (exec (.mtf 3 [true]) (inSymbols 0 0 0))
    (fun t => t.mem.buf == [(0, 0x6E)] && t.sym.mtf == [0x6E, 0x61, 0x62] && t.sym.n == 1) = true := by decide +kernel

/-- 42_mtf_symbols.md R197, R199: the run of the head comes first. -/
theorem test_exec_mtf_flush : onNext (exec (.mtf 2 [true]) (inSymbols 1 2 1))
    (fun t => t.mem.buf == [(1, 0x61), (2, 0x61), (3, 0x62)] && t.sym.n == 4 && t.sym.runLen == 0) = true := by
  decide +kernel

/-- 42_mtf_symbols.md R206: the last row. -/
theorem test_exec_eob : onNext (exec (.eob [true]) (inSymbols 4 2 1))
    (fun t => t.mem.buf == [(4, 0x61), (5, 0x61)] && t.sym.n == 6 && t.seq.pos == .invBwt) = true := by decide +kernel

/-- 41_huffman.md R165. -/
theorem test_exec_huffNoMatch : onNext (exec (.huffNoMatch [true, true]) (inSymbols 0 0 0))
    (fun t => t.ctrl.faultCode == 10 && t.reader.bitpos == 2) = true := by decide +kernel

/-- 42_mtf_symbols.md R195, R201. -/
theorem test_exec_invalidSym : onNext (exec (.invalidSym 5 [true]) (inSymbols 0 1 1))
    (fun t => t.ctrl.faultCode == 12 && t.mem.buf == [(0, 0x61)]) = true := by decide +kernel

/-- 41_huffman.md R181: no bit is read. -/
theorem test_step_selectors_exhausted : onNext (step (inSymbols 0 0 0))
    (fun t => t.ctrl.faultCode == 11 && t.reader.srcPos == 0) = true := by decide +kernel

/-- 42_mtf_symbols.md R205's calls on the identity over 6. -/
theorem test_getAndMove : getAndMove [2, 0, 1, 3, 4, 5] 5 = (some 5, [5, 2, 0, 1, 3, 4]) ∧
    getAndMove [2, 5, 0, 1, 3, 4] 3 = (some 1, [1, 2, 5, 0, 3, 4]) := by decide

/-- 42_mtf_symbols.md R204's table. -/
theorem test_runValue : runValue [true, true, true] = 14 ∧ runValue (List.replicate 8 true) = 510 := by decide

/-- `nnbaaa` in `BUF`, row 3 (43_inverse_bwt.md R229). -/
def nnbaaa (row : BitVec 24) : State :=
  let s := withBlock 6 [(0, 0x6E), (1, 0x6E), (2, 0x62), (3, 0x61), (4, 0x61), (5, 0x61)] [] (at' .invBwt .blockPending [])
  { s with blk := { s.blk with origPtr := row } }

/-- 43_inverse_bwt.md R229: TT and `banana`. -/
theorem test_step_inverseBwt : onNext (step (nnbaaa 3)) (fun t =>
    t.mem.tt == [(0, 3), (1, 4), (2, 5), (3, 2), (4, 0), (5, 1)] &&
    t.mem.recon == [(0, 0x62), (1, 0x61), (2, 0x6E), (3, 0x61), (4, 0x6E), (5, 0x61)]) = true := by decide +kernel

/-- 43_inverse_bwt.md R220's example. -/
theorem test_step_badOrigPtr : onNext (step (nnbaaa 6)) (fun t => t.ctrl.faultCode == 14 && t.mem.tt == []) = true := by
  decide +kernel

/-- 44_derandomizer.md R238: the table's length and sum. -/
theorem test_rnums : rnums.length = 512 ∧ rnums.sum = 278212 ∧ rnums.all (fun v => 50 ≤ v && v ≤ 999) = true := by
  decide +kernel

/-- 44_derandomizer.md R239: the first flips. -/
theorem test_derandSum : (List.range 4).map (fun m => derandSum m - 2) = [617, 1337, 1464, 1945] := by decide +kernel

/-- 45_crc.md R251. -/
theorem test_crcTable : crcTable 1 = 0x04C11DB7 ∧ crcTable 128 = 0x690CE0EE ∧ crcTable 255 = 0xB1F740B4 := by
  decide +kernel

/-- 45_crc.md R259. -/
theorem test_blockCrc : blockCrc [0x31, 0x32, 0x33, 0x34, 0x35, 0x36, 0x37, 0x38, 0x39] = 0xFC891918 ∧
    blockCrc [0x62, 0x61, 0x6E, 0x61, 0x6E, 0x61] = 0xEFB6EC01 ∧ blockCrc [] = 0 := by decide +kernel

/-- 45_crc.md R256. -/
theorem test_foldCrc : foldCrc 0xEFB6EC01 0x5BB1AC41 = 0x84DC7442 ∧ foldCrc 0x84DC7442 0x3550D0ED = 0x3CE83868 := by
  decide

/-- 46_output_rle.md R274. -/
theorem test_expand : expand [88, 88, 88, 88, 3, 89, 90] = some [88, 88, 88, 88, 88, 88, 88, 89, 90] ∧
    expand [88, 88, 88, 89, 90] = some [88, 88, 88, 89, 90] ∧ expand [88, 88, 88, 88, 0, 88] = some [88, 88, 88, 88, 88] ∧
    expand [97, 98, 97, 97, 97, 97] = none := by decide +kernel

/-- In the pre-pass of a block, after a run of `run` bytes 'X'. -/
def inPrepass (run : Nat) (recon : List Host.Cell) (n : Nat) : State :=
  let s := withBlock n [] recon (at' .prepass .blockPending [])
  { s with exp := { s.exp with run := run, prev := some 88 }, crc := { s.crc with running := crcInit } }

/-- 45_crc.md R252's example, through LIT. -/
theorem test_exec_lit : onNext (exec (.lit 0x61) (inPrepass 0 [] 1))
    (fun t => t.crc.running == 0xE66C6494 && t.exp.run == 1 && t.seq.expCount == 1) = true := by decide +kernel

/-- 46_output_rle.md R267: the fourth equal byte makes a count due. -/
theorem test_exec_lit_run : onNext (exec (.lit 88) (inPrepass 3 [] 1)) (fun t => t.exp.run == 4) = true := by decide +kernel

/-- 46_output_rle.md R268: 3 owes three copies, the first returned at once. -/
theorem test_exec_count : onNext (exec (.count 3) (inPrepass 4 [] 1))
    (fun t => t.exp.rep == 2 && t.exp.run == 0 && t.seq.expCount == 1) = true := by decide +kernel

/-- 46_output_rle.md R268: a count of 0 outputs nothing. -/
theorem test_exec_count_zero : onNext (exec (.count 0) (inPrepass 4 [] 1))
    (fun t => t.exp.rep == 0 && t.exp.run == 0 && t.seq.expCount == 0) = true := by decide +kernel

/-- 46_output_rle.md R268 while EXP_PREV is without value (R265): the count runs, whatever the byte it copies. -/
theorem test_exec_count_without_prev :
    onNext (exec (.count 2) { inPrepass 4 [] 1 with exp := ⟨0, 4, none, 0, 0⟩ })
      (fun t => t.exp.rep == 1 && t.exp.run == 0 && t.seq.expCount == 1) = true := by decide +kernel

/-- 46_output_rle.md R270, through a step. -/
theorem test_exec_rleTrunc : onNext (step (inPrepass 4 [] 0)) (fun t => t.ctrl.faultCode == 15) = true := by decide +kernel

/-- 47_stream_control.md R298. -/
theorem test_exec_reset : onNext (exec (.reset ⟨[1, 2], ⟨some 1, []⟩⟩ true) (at' .idle .faulted [9]))
    (fun t => t.ctrl.phase == .header && t.reader == ⟨[1, 2], 0, 0, 0, 0, ⟨some 1, []⟩⟩ && t.ctrl.ownsSource &&
      t.host.responses == [.ok]) = true := by decide +kernel

/-- 47_stream_control.md R285. -/
theorem test_exec_read_zero : onNext (exec (.read 0) (at' .idle .faulted []))
    (fun t => t.host.responses == [.refused .badArgument]) = true := by decide +kernel

/-- 47_stream_control.md R284: faulted before anything else. -/
theorem test_exec_read_header : onNext (exec (.read 4) (at' .idle .header []))
    (fun t => t.seq.pos == .header && t.seq.readCount == 4 && t.host.responses == []) = true := by decide +kernel

/-- 47_stream_control.md R300. -/
theorem test_exec_close : onNext (exec .close (withBlock 1 [(0, 1)] [] (at' .idle .blockActive [])))
    (fun t => t.ctrl.closed && t.mem == ⟨false, [], [], []⟩ && !t.ctrl.sourceReleased) = true := by decide +kernel

/-- 47_stream_control.md R299's example. -/
theorem test_exec_getCaps : onNext (exec .getCaps State.reset)
    (fun t => t.host.responses == [.caps true false false]) = true := by decide +kernel

/-- 47_stream_control.md R302, one for each command. -/
theorem test_exec_unsupported :
    ([Instr.getLength [], .getPosition [], .setPosition [1], .seek [1], .setLength [1], .write [1]].all fun i =>
      onNext (exec i State.reset) fun t => t.host.responses == [.refused .unsupported]) = true := by decide +kernel

/-- 47_stream_control.md R292, 45_crc.md R256: the drain. -/
theorem test_step_drain : onNext (step { at' .release .blockActive [] with crc := ⟨0xEFB6EC01, 0, 0xEFB6EC01⟩ })
    (fun t => t.crc.combined == 0x30DB3402 && t.ctrl.phase == .blockPending && t.seq.pos == .marker) = true := by
  decide +kernel

/-! ### Witnesses: the hypotheses of each statement can be met -/

theorem accepted5 : AcceptedLengths [2, 2, 2, 3, 3] := by unfold AcceptedLengths; decide

theorem witness_DecodeInvertsEncode :
    (Instr.hdr 9).wf = true ∧ DecodeCtx.header.admits (.hdr 9) = true ∧
    (Instr.sel 5).wf = true ∧ (DecodeCtx.sel 6).admits (.sel 5) = true ∧
    (Instr.selOverrun 2).wf = true ∧ (DecodeCtx.sel 2).admits (.selOverrun 2) = true ∧
    (Instr.inUse 0xFFFF (List.replicate 16 1)).wf = true ∧ DecodeCtx.inUse.admits (.inUse 0xFFFF (List.replicate 16 1)) = true ∧
    (Instr.count 255).wf = true ∧ (DecodeCtx.recon 4).admits (.count 255) = true := by decide

theorem witness_EncodeInvertsDecode : decode (.sel 3) [true, true, true] = .ok (.selOverrun 3, []) := by decide

theorem witness_CanonicalCodeDecodes : AcceptedLengths [2, 2, 2, 3, 3] ∧ 4 < [2, 2, 2, 3, 3].length :=
  ⟨accepted5, by decide⟩

theorem witness_UnusedCodeSpaceIsNoMatch_open :
    AcceptedLengths [2, 2, 2] ∧ (buildTables [2, 2, 2]).maxLen ≤ [true, true].length ∧
    ∀ v < [2, 2, 2].length, ∀ tail, [true, true] ≠ canonCode [2, 2, 2] v ++ tail := by
  refine ⟨by unfold AcceptedLengths; decide, by decide, fun v hv tail h => ?_⟩
  have key : ∀ v < 3, (canonCode [2, 2, 2] v).length = 2 ∧ canonCode [2, 2, 2] v ≠ [true, true] := by decide
  obtain ⟨hl, hne⟩ := key v hv
  have h2 := congrArg (List.take 2) h
  rw [List.take_left' hl] at h2
  exact hne h2.symm

theorem witness_UnusedCodeSpaceIsNoMatch_complete :
    AcceptedLengths [2, 2, 2, 3, 3] ∧ (buildTables [2, 2, 2, 3, 3]).maxLen ≤ [true, true, true].length ∧
    kraftSum [2, 2, 2, 3, 3] = 2 ^ 20 := ⟨accepted5, by decide, by decide⟩

theorem witness_DecodedSymbolInAlphabet : [2, 2, 2, 3, 3].length = 3 + 2 ∧
    decode (.symbol tree5 3) (digits [1,1,0]) = .ok (.mtf 3 (digits [1,1,0]), []) := by decide

theorem witness_TreeTablesFollowLengths : ∀ l ∈ [1, 20, 20], 1 ≤ l ∧ l ≤ 20 := by decide

/-- At BuildTree of tree 0 with lengths. -/
def atBuild (lens : List Nat) : State :=
  let s := at' .build .blockPending []
  { s with tab := { s.tab with alpha := lens.length, len := lens :: List.replicate 5 [], numTrees := 2 } }

theorem witness_OversubscribedTreeIsRejected :
    ((atBuild [1, 1, 2]).seq.pos = .build ∧ (∀ l ∈ treeLengths (atBuild [1, 1, 2]) 0, 1 ≤ l ∧ l ≤ 20) ∧
      2 ^ 20 < kraftSum (treeLengths (atBuild [1, 1, 2]) 0)) ∧
    ((atBuild [1, 2, 2]).seq.pos = .build ∧ (∀ l ∈ treeLengths (atBuild [1, 2, 2]) 0, 1 ≤ l ∧ l ≤ 20) ∧
      kraftSum (treeLengths (atBuild [1, 2, 2]) 0) ≤ 2 ^ 20) := by decide

theorem atHeader_answered : AllAnswered beforeHeader.reader (readWidths (.hdr 1)) := allAnswered_of_prompt rfl _

/-- The element waits: for a slow source and for one that never answers. -/
theorem witness_StepExecutesElement_wait (later : List (Option Nat)) :
    elementNext (paced (some 5) later beforeHeader) = some (.header, paced (some 5) later beforeHeader) ∧
    decode .header (streamBits [0x42, 0x5A, 0x68, 0x31] 0 32) = .ok (.hdr 1, []) ∧
    ¬ AllAnswered (paced (some 5) later beforeHeader).reader (readWidths (.hdr 1)) := by
  refine ⟨rfl, by decide, fun h => ?_⟩
  have hm : ((paced (some 5) later beforeHeader).reader.advance (readWidths (.hdr 1))).srcPos = 6 := rfl
  exact absurd (h 5 (Nat.zero_le _) (by rw [hm]; decide) 5 rfl) (by decide)

theorem witness_StepExecutesElement :
    elementNext (at' .header .header [0x42, 0x5A, 0x68, 0x39]) = some (.header, at' .header .header [0x42, 0x5A, 0x68, 0x39]) ∧
    decode .header (streamBits [0x42, 0x5A, 0x68, 0x39] 0 32) = .ok (.hdr 9, []) := ⟨rfl, by decide⟩

/-- In the symbol stream of tree `tree5`, with a symbol left in the group. -/
def beforeCode (source : List Byte) : State :=
  let s := at' .symbol .blockPending source
  { s with
    tab := { s.tab with numInUse := 3, trees := List.replicate 6 tree5 }
    sym := { s.sym with groupLeft := 1 } }

theorem witness_StepExecutesEncoding :
    (elementNext (at' .nTrees .blockPending [0xDF]) = some (.nTrees, at' .nTrees .blockPending [0xDF]) ∧
      (Instr.nTrees 6).wf = true ∧ DecodeCtx.nTrees.admits (.nTrees 6) = true ∧
      streamBits [0xDF] 0 (encode (.nTrees 6)).length = encode (.nTrees 6)) ∧
    (elementNext (beforeCode [0xC0]) = some (.symbol tree5 3, takeSymbolSlot (beforeCode [0xC0])) ∧
      AcceptedLengths [2, 2, 2, 3, 3] ∧ 3 < [2, 2, 2, 3, 3].length ∧
      streamBits [0xC0] 0 (canonCode [2, 2, 2, 3, 3] 3).length = canonCode [2, 2, 2, 3, 3] 3) :=
  ⟨⟨rfl, by decide, by decide, by decide⟩, rfl, accepted5, by decide, by decide⟩

theorem witness_StepExecutesEncoding_answered : AllAnswered (at' .nTrees .blockPending [0xDF]).reader (readWidths (.nTrees 6)) ∧
    AllAnswered (beforeCode [0xC0]).reader (List.replicate (canonCode [2, 2, 2, 3, 3] 3).length 1) :=
  ⟨allAnswered_of_prompt rfl _, allAnswered_of_prompt rfl _⟩

theorem witness_StepExecutesReconByte :
    (inPrepass 0 [(0, 65)] 1).seq.pos = .prepass ∧ (inPrepass 0 [(0, 65)] 1).exp.rep = 0 ∧
    (inPrepass 0 [(0, 65)] 1).exp.pos ≠ (inPrepass 0 [(0, 65)] 1).sym.n ∧
    (inPrepass 0 [(0, 65)] 1).exp.pos < (inPrepass 0 [(0, 65)] 1).entries ∧
    cellRead (inPrepass 0 [(0, 65)] 1).mem.recon (inPrepass 0 [(0, 65)] 1).exp.pos = some 65 ∧
    (inPrepass 4 [] 0).exp.rep = 0 ∧ (inPrepass 4 [] 0).exp.pos = (inPrepass 4 [] 0).sym.n ∧
    (inPrepass 4 [] 0).exp.run = 4 := by decide

/-- A copy owed, with `EXP_PREV` a byte and without value. -/
theorem witness_StepExecutesReconByte_owed (prev : Option Byte) : ∃ s : State, (s.seq.pos = .release ∧ s.seq.readLeft ≠ 0) ∧
    0 < s.exp.rep ∧ s.exp.prev = prev :=
  ⟨{ inPrepass 0 [] 0 with
      seq := { (inPrepass 0 [] 0).seq with pos := .release, readLeft := 1 }
      exp := ⟨0, 0, prev, 1, 1⟩ }, ⟨rfl, Nat.one_ne_zero⟩, Nat.zero_lt_one, rfl⟩

theorem witness_StepTakesCommand :
    State.reset.seq.pos = .idle ∧ State.reset.host.cmds = [] ∧
    encodeCommand (.read 3) = some (.read 3) ∧ (withCmds [.read 3] State.reset).host.cmds = [.read 3] ∧
    (withCmds [.other 7 []] State.reset).host.cmds = [.other 7 []] := by decide

theorem witness_SelMovesRankToFront : threeTrees.tab.selMtf[2]? = some 2 ∧
    threeTrees.seq.selIdx ≤ threeTrees.tab.selector.length := by decide

theorem witness_LengthCodesStep : (atLength 20).seq.cur = 19 + 1 ∧ (atLength 1).seq.cur = 0 + 1 := by decide

theorem witness_LendStoresLength : (atLength 5).seq.treeIdx < (atLength 5).tab.len.length ∧
    (atLength 5).seq.symIdx < ((atLength 5).tab.len.getD (atLength 5).seq.treeIdx []).length := by decide +kernel

theorem witness_RunDigitsExtendRun :
    ((1 = 1 ∧ Instr.runA [true] = .runA [true]) ∨ (1 = 2 ∧ Instr.runA [true] = .runB [true])) ∧
    ((2 = 1 ∧ Instr.runB [true] = .runA [true]) ∨ (2 = 2 ∧ Instr.runB [true] = .runB [true])) := by decide

/-- Both sides of the capacity: room for one byte, and none. -/
theorem witness_MtfWritesRankedByte :
    ((inSymbols 99999 0 0).mem.allocated = true ∧
      (inSymbols 99999 0 0).sym.n + (inSymbols 99999 0 0).sym.runLen ≤ (inSymbols 99999 0 0).ctrl.capacity ∧
      (inSymbols 99999 0 0).sym.mtf[0]? = some 0x61 ∧ (inSymbols 99999 0 0).sym.mtf[3 - 1]? = some 0x6E) ∧
    (inSymbols 99999 1 1).sym.n + (inSymbols 99999 1 1).sym.runLen ≤ (inSymbols 99999 1 1).ctrl.capacity ∧
    (inSymbols 99999 1 1).ctrl.capacity < (inSymbols 99999 1 1).sym.n + (inSymbols 99999 1 1).sym.runLen + 1 := by decide

theorem witness_EobFlushesAndEnds : (inSymbols 4 2 1).mem.allocated = true ∧
    (inSymbols 4 2 1).sym.n + (inSymbols 4 2 1).sym.runLen ≤ (inSymbols 4 2 1).ctrl.capacity ∧
    (inSymbols 4 2 1).sym.mtf[0]? = some 0x61 := by decide

theorem witness_LitAndCountExpand : (1 : Byte) ≠ 0 := by decide

theorem witness_ExpansionBound : expand [88, 88, 88, 88, 255] = some (List.replicate 259 88) := by decide +kernel

theorem witness_ReadChecksThenStarts :
    (at' .idle .faulted []).seq.pos = .idle ∧ (at' .idle .faulted []).ctrl.closed = false ∧
    (at' .idle .faulted []).ctrl.phase = .faulted ∧ (at' .idle .done []).ctrl.phase = .done ∧
    (at' .idle .header []).ctrl.phase = .header ∧ (at' .idle .blockActive []).ctrl.phase = .blockActive ∧ (1 : Nat) ≠ 0 := by
  decide

/-- Closed. -/
def closedState : State := { State.reset with ctrl := { State.reset.ctrl with closed := true } }

theorem witness_CloseReleases : State.reset.seq.pos = .idle ∧ State.reset.ctrl.closed = false ∧
    closedState.seq.pos = .idle ∧ closedState.ctrl.closed = true := by decide

theorem witness_CapsAndRefusals : closedState.seq.pos = .idle ∧ closedState.ctrl.closed = true ∧
    encodeCommand .close = some .close ∧ (∀ source owns, Instr.close ≠ .reset source owns) ∧
    Instr.seek [1] ∈ [Instr.getLength [1], .getPosition [1], .setPosition [1], .seek [1], .setLength [1], .write [1]] :=
  ⟨rfl, rfl, rfl, fun _ _ => by simp, by decide⟩

theorem witness_LengthRangeCheckedFirst :
    (atLength 21).seq.pos = .lCode ∧ 20 < (atLength 21).seq.cur ∧ (atLength 0).seq.cur < 1 ∧
    1 ≤ (atLength 20).seq.cur ∧ (atLength 20).seq.cur ≤ 20 ∧ 1 ≤ (atLength 1).seq.cur ∧
    decode .lCode (streamBits [] 0 2) = .ok (.lEnd, [false]) := by decide

theorem witness_LengthRangeCheckedFirst_answered : AllAnswered (atLength 20).reader (readWidths .lEnd) :=
  allAnswered_of_prompt rfl _

theorem witness_LengthRangeCheckedFirst_base : ∃ t, exec (.lBase 21) (atLength 1) = .next t ∧ 20 < (21 : BitVec 5).toNat :=
  ⟨_, rfl, by decide⟩

theorem witness_GroupSwitching :
    (inSymbols 0 0 0).seq.pos = .symbol ∧ (inSymbols 0 0 0).sym.groupLeft = 0 ∧
    ((inSymbols 0 0 0).tab.numSel : Int) ≤ (inSymbols 0 0 0).sym.groupIdx + 1 ∧
    (beforeCode [0xC0]).seq.pos = .symbol ∧ (beforeCode [0xC0]).sym.groupLeft ≠ 0 ∧
    decode (.symbol tree5 3) (streamBits [0xC0] 0 tree5.maxLen) = .ok (.mtf 3 (digits [1,1,0]), []) := by decide +kernel

/-- The start of a block's first group: `GROUP_IDX = -1` and one selector. -/
def firstGroup : State :=
  let s := beforeCode [0xC0]
  { s with
    tab := { s.tab with numSel := 1, selector := [0] }
    sym := { s.sym with groupIdx := -1, groupLeft := 0 } }

theorem witness_GroupSwitching_next : firstGroup.sym.groupLeft = 0 ∧
    firstGroup.sym.groupIdx + 1 < firstGroup.tab.numSel := by decide

theorem witness_GroupSwitching_answered : AllAnswered firstGroup.reader (readWidths (.mtf 3 (digits [1,1,0]))) ∧
    AllAnswered (beforeCode [0xC0]).reader (readWidths (.mtf 3 (digits [1,1,0]))) :=
  ⟨allAnswered_of_prompt rfl _, allAnswered_of_prompt rfl _⟩

theorem witness_SymbolsStart : (at' .startSymbols .blockPending []).seq.pos = .startSymbols := by decide

theorem witness_RunLengthIsBijective : (inSymbols 0 0 0).sym.runLen = 0 ∧ (inSymbols 0 0 0).sym.runShift = 0 ∧
    (inSymbols 0 0 0).sym.n + runValue [true, false, true] ≤ (inSymbols 0 0 0).ctrl.capacity := by decide

theorem witness_GetAndMoveMovesToFront : [2, 0, 1, 3, 4, 5][5]? = some 5 := by decide

theorem witness_BadOrigPtrFaults : (nnbaaa 6).seq.pos = .invBwt ∧ (nnbaaa 6).sym.n ≤ (nnbaaa 6).blk.origPtr.toNat := by
  decide

theorem nnbaaa_written : Written (nnbaaa 5).mem.buf (nnbaaa 5).sym.n := by unfold Written; decide

theorem witness_PointerTableSortsStably : (nnbaaa 5).seq.pos = .invBwt ∧ (nnbaaa 5).mem.allocated = true ∧
    (nnbaaa 5).sym.n ≤ (nnbaaa 5).ctrl.capacity ∧ Written (nnbaaa 5).mem.buf (nnbaaa 5).sym.n ∧
    (nnbaaa 5).blk.origPtr.toNat < (nnbaaa 5).sym.n := ⟨rfl, rfl, by decide, nnbaaa_written, by decide⟩

theorem witness_ChainWalkFollowsPointers : (nnbaaa 5).seq.pos = .invBwt ∧ (nnbaaa 5).mem.allocated = true ∧
    (nnbaaa 5).sym.n ≤ (nnbaaa 5).ctrl.capacity ∧ Written (nnbaaa 5).mem.buf (nnbaaa 5).sym.n ∧
    (nnbaaa 5).blk.origPtr.toNat < (nnbaaa 5).sym.n := witness_PointerTableSortsStably

/-- A randomised block of one byte, before the derandomiser. -/
def randomised : State :=
  let s := withBlock 1 [] [(0, 65)] (at' .derand .blockPending [])
  { s with blk := { s.blk with rand := true } }

theorem witness_DerandomiserFlipsAtSums : randomised.seq.pos = .derand ∧ randomised.blk.rand = true ∧
    randomised.mem.allocated = true ∧ randomised.sym.n ≤ randomised.ctrl.capacity ∧
    Written randomised.mem.recon randomised.sym.n ∧ (at' .derand .blockPending []).blk.rand = false :=
  ⟨rfl, rfl, rfl, by decide, by unfold Written; decide, rfl⟩

/-- Entries `a ..` of `n` equal bytes. -/
def sameBytes (b : Byte) : (a n : Nat) → List Host.Cell
  | _, 0 => []
  | a, n + 1 => (a, b) :: sameBytes b (a + 1) n

theorem cellRead_sameBytes (b : Byte) (n a k : Nat) (h1 : a ≤ k) (h2 : k < a + n) : cellRead (sameBytes b a n) k = some b := by
  induction n generalizing a with
  | zero => omega
  | succ n ih =>
    simp only [sameBytes, cellRead]
    by_cases h : a = k
    · rw [if_pos h]
    · rw [if_neg h, ih (a + 1) (by omega) (by omega)]

/-- A randomised block of 618 bytes: its last byte is the first place flipped (44_derandomizer.md R239: `RNUMS[0] - 2`). -/
def randomised618 : State :=
  let s := withBlock 618 [] (sameBytes 65 0 618) (at' .derand .blockPending [])
  { s with blk := { s.blk with rand := true } }

theorem witness_DerandomiserFlipsAtSums_flip : randomised618.seq.pos = .derand ∧ randomised618.blk.rand = true ∧
    randomised618.mem.allocated = true ∧ randomised618.sym.n ≤ randomised618.ctrl.capacity ∧
    Written randomised618.mem.recon randomised618.sym.n ∧ 617 < randomised618.sym.n ∧ 617 + 2 = derandSum 0 :=
  ⟨rfl, rfl, rfl, by decide,
    fun k hk => congrArg Option.isSome (cellRead_sameBytes 65 618 0 k (Nat.zero_le k) (Nat.lt_of_lt_of_eq hk (Nat.zero_add 618).symm)),
    by decide, by decide +kernel⟩

/-- A block of one byte before the pre-pass, drained or not, with the CRC it has or another. -/
def beforePrepass (stored : Word) : State :=
  let s := withBlock 1 [] [(0, 0x61)] (at' .prepassStart .blockPending [])
  { s with blk := { s.blk with storedCrc := stored } }

/-- 45_crc.md R259: the CRC of `a`. -/
theorem witness_PrepassChecksBlockCrc : (beforePrepass 0x19939B6B).seq.pos = .prepassStart ∧
    (beforePrepass 0x19939B6B).ctrl.phase = .blockPending ∧ (beforePrepass 0x19939B6B).mem.allocated = true ∧
    (beforePrepass 0x19939B6B).sym.n ≤ (beforePrepass 0x19939B6B).ctrl.capacity ∧
    Written (beforePrepass 0x19939B6B).mem.recon (beforePrepass 0x19939B6B).sym.n ∧
    expand (reconFrom (beforePrepass 0x19939B6B) 0) = some [0x61] ∧
    blockCrc [0x61] = (beforePrepass 0x19939B6B).blk.storedCrc ∧ blockCrc [0x61] ≠ (beforePrepass 0).blk.storedCrc :=
  ⟨rfl, rfl, rfl, by decide, by unfold Written; decide, by decide +kernel, by decide +kernel, by decide +kernel⟩

/-- The same block in a READ that has drained the block before it. -/
theorem witness_PrepassChecksBlockCrc_drained : ∃ s : State, s.seq.pos = .prepassStart ∧ s.ctrl.phase = .blockPending ∧
    s.mem.allocated = true ∧ s.sym.n ≤ s.ctrl.capacity ∧ Written s.mem.recon s.sym.n ∧
    expand (reconFrom s 0) = some [0x61] ∧ blockCrc [0x61] = s.blk.storedCrc ∧ s.seq.drained = true :=
  ⟨{ beforePrepass 0x19939B6B with seq := { (beforePrepass 0x19939B6B).seq with drained := true } },
    rfl, rfl, rfl, by decide, by unfold Written; decide, by decide +kernel, by decide +kernel, rfl⟩

/-- Four equal bytes and no count byte (46_output_rle.md R270). -/
theorem witness_PrepassChecksBlockCrc_missing : ∃ s : State, s.seq.pos = .prepassStart ∧ s.ctrl.phase = .blockPending ∧
    s.mem.allocated = true ∧ s.sym.n ≤ s.ctrl.capacity ∧ Written s.mem.recon s.sym.n ∧
    expand (reconFrom s 0) = none :=
  ⟨withBlock 4 [] (sameBytes 0x61 0 4) (at' .prepassStart .blockPending []),
    rfl, rfl, rfl, by decide, by unfold Written; decide, by decide +kernel⟩

/-- An active block of one byte, between commands, with a READ waiting. -/
def activeOne : State :=
  let s := withBlock 1 [] [(0, 65)] (at' .idle .blockActive [])
  withCmds [.read 1] { s with exp := { s.exp with remaining := 1 } }

theorem activeOne_sound : Sound activeOne where
  phase := ⟨by decide, by decide, by decide, by decide, by decide, by decide⟩
  memory := ⟨by decide, (fun h => by cases h), (fun h => by cases h), fun _ => ⟨by decide, by unfold Written; decide⟩, fun _ => by decide⟩
  release := ⟨by decide, fun _ => by decide +kernel, by decide⟩

theorem witness_ReadReleasesNextBytes : Sound activeOne ∧ activeOne.seq.pos = .idle ∧ activeOne.ctrl.closed = false ∧
    activeOne.ctrl.phase = .blockActive ∧ activeOne.host.cmds = [.read 1] ∧ expansionLeft activeOne = some [65] :=
  ⟨activeOne_sound, rfl, rfl, rfl, rfl, by decide +kernel⟩

/-- An active block of two bytes and a READ of one. -/
def activeTwo : State :=
  let s := withBlock 2 [] [(0, 65), (1, 66)] (at' .idle .blockActive [])
  withCmds [.read 1] { s with exp := { s.exp with remaining := 2 } }

theorem activeTwo_sound : Sound activeTwo where
  phase := ⟨by decide, by decide, by decide, by decide, by decide, by decide⟩
  memory := ⟨by decide, (fun h => by cases h), (fun h => by cases h), fun _ => ⟨by decide, by unfold Written; decide⟩, fun _ => by decide⟩
  release := ⟨by decide, fun _ => by decide +kernel, by decide⟩

theorem witness_ReadReleasesNextBytes_part : Sound activeTwo ∧ activeTwo.seq.pos = .idle ∧ activeTwo.ctrl.closed = false ∧
    activeTwo.ctrl.phase = .blockActive ∧ activeTwo.host.cmds = [.read 1] ∧ expansionLeft activeTwo = some [65, 66] ∧
    1 < [65, 66].length :=
  ⟨activeTwo_sound, rfl, rfl, rfl, rfl, by decide +kernel, by decide⟩

theorem witness_DrainFoldsBlockCrc : (at' .release .blockActive []).seq.pos = .release ∧
    (at' .release .blockActive []).seq.readLeft = 0 ∧ (at' .release .blockActive []).exp.remaining = 0 ∧
    ({ at' .release .blockActive [] with exp := ⟨0, 0, none, 0, 1⟩ } : State).exp.remaining ≠ 0 := by decide

theorem witness_ReadBitsReturnsStreamBits : (Reader.start (.prompt traceSource)).Inv := Reader.start_inv _

theorem witness_SourcePositionFormula : (Reader.start (.prompt traceSource)).Inv ∧ (1 ≤ 16 ∧ 16 ≤ 16) ∧ (16 < 17 ∧ 32 ≤ 32) :=
  ⟨Reader.start_inv _, by decide, by decide⟩

/-- A step of the invariants' statements that is not idle: the header of the banana stream. -/
theorem header_steps : ∃ t, step (at' .header .header [0x42, 0x5A, 0x68, 0x31]) = .next t := ⟨_, rfl⟩

theorem header_phaseInv : PhaseInv (at' .header .header [0x42, 0x5A, 0x68, 0x31]) :=
  ⟨by decide, by decide, by decide, by decide, by decide, by decide⟩

theorem witness_ReaderInvKept : (at' .header .header [0x42, 0x5A, 0x68, 0x31]).reader.Inv ∧
    ∃ t, step (at' .header .header [0x42, 0x5A, 0x68, 0x31]) = .next t := ⟨Reader.start_inv _, header_steps⟩

theorem witness_MemoryCanonicalKept : MemoryCanonical (nnbaaa 5) ∧ (nnbaaa 5).mem.buf ≠ [] ∧ ∃ t, step (nnbaaa 6) = .next t :=
  ⟨by unfold MemoryCanonical; decide, by decide, ⟨_, rfl⟩⟩

theorem witness_PhaseInvKept : PhaseInv (at' .header .header [0x42, 0x5A, 0x68, 0x31]) ∧
    ∃ t, step (at' .header .header [0x42, 0x5A, 0x68, 0x31]) = .next t := ⟨header_phaseInv, header_steps⟩

theorem witness_SoundStatesGoOn : Sound activeOne := activeOne_sound

/-- In a READ of one byte, before the header. -/
def reading : State :=
  { at' .header .header [0x42, 0x5A, 0x68, 0x31] with
    seq := { (at' .header .header []).seq with readCount := 1 } }

theorem witness_ReadBoundsKept : PhaseInv reading ∧ ReadBounds reading ∧ ∃ t, step reading = .next t :=
  ⟨⟨by decide, by decide, by decide, by decide, by decide, by decide⟩,
   ⟨by decide, by decide, fun _ => by decide, by decide, by decide, by decide, by decide⟩, ⟨_, rfl⟩⟩

/-- The READ of `activeOne` at its end answers one byte. -/
theorem witness_ReadBoundsKept_data : ∃ s t : State, PhaseInv s ∧ ReadBounds s ∧ step s = .next t ∧
    t.host.responses = s.host.responses ++ [.data [65]] :=
  ⟨{ at' .release .blockActive [] with
      exp := ⟨0, 0, none, 0, 1⟩
      seq := { (at' .release .blockActive []).seq with readCount := 1, data := [65] } }, _,
    ⟨by decide, by decide, by decide, by decide, by decide, by decide⟩,
    ⟨by decide, by decide, by decide, by decide, by decide, by decide, by decide⟩, rfl, rfl⟩

theorem witness_RegisterRangesKept : RegisterRanges reading ∧ ∃ t, step reading = .next t :=
  ⟨⟨by decide, by decide, by decide, by decide, by decide, by decide, by decide, by decide, by decide, by decide, by decide,
    by decide, by decide, by decide, by decide⟩, ⟨_, rfl⟩⟩

/-- In the symbol stream of a block with two trees and one selector. -/
def inBlockSymbols : State :=
  let s := at' .symbol .blockPending [0xC0]
  { s with
    tab := { s.tab with
      inUseList := [0x61, 0x62, 0x6E], numInUse := 3, alpha := 5, numTrees := 2, numSel := 1
      selMtf := [0, 1, 0, 0, 0, 0], selector := [0], trees := List.replicate 6 tree5 }
    sym := { s.sym with mtf := [0x61, 0x62, 0x6E], groupIdx := -1 }
    seq := { s.seq with selIdx := 1 } }

theorem inBlockSymbols_tables : TablesInv inBlockSymbols where
  shape := by decide +kernel
  inUse := by decide
  alpha := by decide
  numTrees := by decide
  selMtf := by decide
  selector := fun _ k hk => by
    obtain rfl : k = 0 := Nat.lt_one_iff.1 hk
    exact ⟨0, rfl, by decide⟩
  selectorsRead := by decide
  building := by decide
  trees := fun _ t ht => by
    have ht' : t < 2 := ht
    obtain rfl | rfl : t = 0 ∨ t = 1 := by omega
    · exact ⟨[2, 2, 2, 3, 3], accepted5, rfl, rfl⟩
    · exact ⟨[2, 2, 2, 3, 3], accepted5, rfl, rfl⟩
  mtf := by decide
  group := by decide

theorem witness_TablesInvKept : TablesInv inBlockSymbols ∧ ∃ t, step (atLength 21) = .next t :=
  ⟨inBlockSymbols_tables, ⟨_, rfl⟩⟩

theorem witness_InvalidSymbolNeverRaised : TablesInv inBlockSymbols ∧ inBlockSymbols.seq.pos = .symbol :=
  ⟨inBlockSymbols_tables, rfl⟩

theorem witness_PhaseTransitions : PhaseInv (at' .header .header [0x42, 0x5A, 0x68, 0x31]) ∧
    ∃ t, step (at' .header .header [0x42, 0x5A, 0x68, 0x31]) = .next t ∧
      t.ctrl.phase ≠ (at' .header .header [0x42, 0x5A, 0x68, 0x31]).ctrl.phase :=
  ⟨header_phaseInv, _, rfl, by decide +kernel⟩

/-- The premises of `Obligations.PhaseTransitions` for a change to a phase. -/
abbrev ChangesTo (s : State) (p : Phase) : Prop :=
  PhaseInv s ∧ ∃ t, step s = .next t ∧ t.ctrl.phase = p ∧ t.ctrl.phase ≠ s.ctrl.phase

theorem witness_PhaseTransitions_reset : ChangesTo (withCmds [.reset (.prompt []) false] (at' .idle .done [])) .header :=
  ⟨⟨by decide, by decide, by decide, by decide, by decide, by decide⟩, _, rfl, by decide +kernel, by decide +kernel⟩

theorem witness_PhaseTransitions_active :
    ChangesTo { inPrepass 0 [] 0 with crc := ⟨0, 0xFFFFFFFF, 0⟩ } .blockActive :=
  ⟨⟨by decide, by decide, by decide, by decide, by decide, by decide⟩, _, rfl, by decide +kernel, by decide +kernel⟩

/-- 47_stream_control.md R298's stream: no block, scrc 0. -/
theorem witness_PhaseTransitions_done :
    ChangesTo (at' .marker .blockPending [0x17, 0x72, 0x45, 0x38, 0x50, 0x90, 0, 0, 0, 0]) .done :=
  ⟨⟨by decide, by decide, by decide, by decide, by decide, by decide⟩, _, rfl, by decide +kernel, by decide +kernel⟩

theorem witness_PhaseTransitions_drain : ChangesTo (at' .release .blockActive []) .blockPending :=
  ⟨⟨by decide, by decide, by decide, by decide, by decide, by decide⟩, _, rfl, by decide +kernel, by decide +kernel⟩

theorem witness_PhaseTransitions_fault : ChangesTo (at' .marker .blockPending [1]) .faulted :=
  ⟨⟨by decide, by decide, by decide, by decide, by decide, by decide⟩, _, rfl, by decide +kernel, by decide +kernel⟩

/-- Faulted, with a READ waiting. -/
def faultedReading : State := withCmds [.read 1] ((at' .idle .header []).faultedWith 3)

theorem witness_OnlyResetLeavesFaultedAndDone : PhaseInv faultedReading ∧ faultedReading.ctrl.phase = .faulted ∧
    (∀ source owns rest, faultedReading.host.cmds ≠ .reset source owns :: rest) ∧ ∃ t, step faultedReading = .next t :=
  ⟨⟨by decide, by decide, by decide, by decide, by decide, by decide⟩, rfl,
    fun _ _ _ => by simp [faultedReading, withCmds], ⟨_, rfl⟩⟩

theorem witness_OneResponsePerCommand : ∃ t, step faultedReading = .next t := ⟨_, rfl⟩

theorem witness_StreamOnlyAdvances : ∃ t, step reading = .next t := ⟨_, rfl⟩

theorem witness_MemoryWrittenByItsStage : (nnbaaa 6).seq.pos ≠ .idle ∧ (nnbaaa 6).seq.pos ≠ .header ∧
    ∃ t, step (nnbaaa 6) = .next t := ⟨by decide, by decide, _, rfl⟩

/-- A length code is one step that reads at most the first two bytes. -/
theorem witness_OnlyRequestedBytesMatter : ∃ t, (atLength 5).reader.Inv ∧ (atLength 5).seq.pos ≠ .idle ∧
    step (atLength 5) = .next t ∧ ∀ k, k < t.reader.srcPos ∨
      (Waiting (atLength 5) ∧ ∃ m, (atLength 5).reader.pace.ready = some m ∧ k < m) →
        ([0, 0, 7] : List Byte).getD k 0 = (atLength 5).reader.src.getD k 0 := by
  refine ⟨_, Reader.start_inv _, by decide, rfl, fun k hk => ?_⟩
  rcases hk with hk | ⟨-, m, hm, -⟩
  · have hall : ∀ k < 2, ([0, 0, 7] : List Byte).getD k 0 = ([] : List Byte).getD k 0 := by decide
    exact hall k hk
  · cases hm

/-- A header that waits for byte 5, and another source with the same first five. -/
theorem witness_OnlyRequestedBytesMatter_wait : ∃ t, Waiting (paced (some 5) [] beforeHeader) ∧
    (paced (some 5) [] beforeHeader).reader.Inv ∧ step (paced (some 5) [] beforeHeader) = .next t ∧
    (paced (some 5) [] beforeHeader).reader.pace.ready = some 5 ∧
    ∀ k < 5, ([0x42, 0x5A, 0x68, 0x31, 0, 7] : List Byte).getD k 0 = (paced (some 5) [] beforeHeader).reader.src.getD k 0 :=
  ⟨_, ⟨_, _, _, _, witness_StepExecutesElement_wait []⟩,
    Reader.start_inv ⟨[0x42, 0x5A, 0x68, 0x31], ⟨some 5, []⟩⟩, rfl, rfl, by decide⟩

end Sys2Proof.Tests
end

section
/-! PROOF. What the decoder answers at each grammar position, and everything a step can do: an inversion of `step`,
one named case for each element, command and stage. -/

namespace Sys2Proof

/-- A header field is the magic and a digit 1 to 9, or one of the two illegal forms (30_encoding.md R102, R116). -/
theorem decodeHeader_ok {bits rest : List Bool} {i : Instr} (h : decodeHeader bits = .ok (i, rest)) :
    (∃ m, i = .hdrBadMagic m) ∨ (∃ d, i = .hdrBadSize d) ∨ ∃ d : BitVec 4, i = .hdr d ∧ 1 ≤ d.toNat ∧ d.toNat ≤ 9 := by
  obtain ⟨⟨m, r1⟩, -, h⟩ := Machine.bind_ok h
  dsimp only at h
  split at h
  · cases h; exact .inl ⟨_, rfl⟩
  · obtain ⟨⟨d, r2⟩, -, h⟩ := Machine.bind_ok h
    dsimp only at h
    split at h
    · cases h; exact .inr (.inl ⟨_, rfl⟩)
    · cases h
      refine .inr (.inr ⟨_, rfl, ?_⟩)
      rw [BitVec.toNat_ofNat]
      omega

/-- A marker is BLK, EOS or BADMARK (30_encoding.md R103, R104, R113). -/
theorem decodeMarker_ok {bits rest : List Bool} {i : Instr} (h : decodeMarker bits = .ok (i, rest)) :
    (∃ bcrc rand origPtr, i = .blk bcrc rand origPtr) ∨ (∃ scrc, i = .eos scrc) ∨ ∃ m, i = .badMark m := by
  obtain ⟨⟨m, r1⟩, -, h⟩ := Machine.bind_ok h
  dsimp only at h
  split at h
  · obtain ⟨_, -, h⟩ := Machine.bind_ok h
    obtain ⟨_, -, h⟩ := Machine.bind_ok h
    obtain ⟨_, -, h⟩ := Machine.bind_ok h
    cases h; exact .inl ⟨_, _, _, rfl⟩
  · split at h
    · obtain ⟨_, -, h⟩ := Machine.bind_ok h
      cases h; exact .inr (.inl ⟨_, rfl⟩)
    · cases h; exact .inr (.inr ⟨_, rfl⟩)

theorem decodeInUse_ok {bits rest : List Bool} {i : Instr} (h : decodeInUse bits = .ok (i, rest)) :
    ∃ g fields, i = .inUse g fields := by
  obtain ⟨_, -, h⟩ := Machine.bind_ok h
  obtain ⟨_, -, h⟩ := Machine.bind_ok h
  cases h; exact ⟨_, _, rfl⟩

theorem decodeLCode_ok {bits rest : List Bool} {i : Instr} (h : decodeLCode bits = .ok (i, rest)) :
    i = .lEnd ∨ i = .lInc ∨ i = .lDec := by
  unfold decodeLCode at h
  split at h
  · cases h; exact .inl rfl
  · cases h; exact .inr (.inl rfl)
  · cases h; exact .inr (.inr rfl)
  · cases h

/-- The elements a symbol's code can be, in a block of `numInUse` values (30_encoding.md R111, R116). -/
inductive SymbolElement (numInUse : Nat) : Instr → Prop
  | runA (code : List Bool) : SymbolElement numInUse (.runA code)
  | runB (code : List Bool) : SymbolElement numInUse (.runB code)
  | mtf (v : Nat) (code : List Bool) (lo : 2 ≤ v) (hi : v ≤ numInUse) : SymbolElement numInUse (.mtf v code)
  | eob (code : List Bool) : SymbolElement numInUse (.eob code)
  | invalidSym (v : Nat) (code : List Bool) : SymbolElement numInUse (.invalidSym v code)
  | huffNoMatch (bits : List Bool) : SymbolElement numInUse (.huffNoMatch bits)

theorem symbolInstr_element (numInUse v : Nat) (code : List Bool) : SymbolElement numInUse (symbolInstr numInUse v code) := by
  unfold symbolInstr
  split
  · exact .runA code
  · split
    · exact .runB code
    · split
      · exact .mtf v code (by omega) ‹_›
      · split
        · exact .eob code
        · exact .invalidSym v code

theorem decodeSymbol_ok {t : Tree} {numInUse : Nat} {bits rest : List Bool} {i : Instr}
    (h : decodeSymbol t numInUse bits = .ok (i, rest)) : SymbolElement numInUse i := by
  obtain ⟨⟨o, code, r⟩, -, h⟩ := Machine.bind_ok h
  cases o with
  | none => cases h; exact .huffNoMatch code
  | some v => cases h; exact symbolInstr_element numInUse v code


/-- The byte classes of `RECON`: the run counter selects, not the byte (46_output_rle.md R266). -/
inductive ReconElement (run : Nat) : Instr → Prop
  | lit (b : Byte) (h : run ≠ 4) : ReconElement run (.lit b)
  | count (n : Byte) (h : run = 4) : ReconElement run (.count n)
  | rleTrunc (h : run = 4) : ReconElement run .rleTrunc

theorem decodeRecon_ok {run : Nat} {bits rest : List Bool} {i : Instr} (h : decodeRecon run bits = .ok (i, rest)) :
    ReconElement run i := by
  unfold decodeRecon at h
  split at h
  · split at h <;> cases h
    exact .rleTrunc ‹_›
  · obtain ⟨⟨b, r⟩, -, h⟩ := Machine.bind_ok h
    dsimp only at h
    split at h <;> cases h
    · exact .count _ ‹_›
    · exact .lit _ ‹_›

namespace Machine

/-- The element a step executes, by position, and the state it is executed in: this one, but for the group registers of a
symbol (41_huffman.md R180). -/
inductive ElementAt (s : State) : Instr → State → Prop
  | hdr (d : BitVec 4) (hp : s.seq.pos = .header) (lo : 1 ≤ d.toNat) (hi : d.toNat ≤ 9) : ElementAt s (.hdr d) s
  | hdrBadMagic (m : BitVec 24) (hp : s.seq.pos = .header) : ElementAt s (.hdrBadMagic m) s
  | hdrBadSize (d : Byte) (hp : s.seq.pos = .header) : ElementAt s (.hdrBadSize d) s
  | blk (bcrc : Word) (rand : Bool) (origPtr : BitVec 24) (hp : s.seq.pos = .marker) : ElementAt s (.blk bcrc rand origPtr) s
  | eos (scrc : Word) (hp : s.seq.pos = .marker) : ElementAt s (.eos scrc) s
  | badMark (m : BitVec 48) (hp : s.seq.pos = .marker) : ElementAt s (.badMark m) s
  | inUse (g : BitVec 16) (fields : List (BitVec 16)) (hp : s.seq.pos = .inUse) : ElementAt s (.inUse g fields) s
  | nTrees (t : BitVec 3) (hp : s.seq.pos = .nTrees) : ElementAt s (.nTrees t) s
  | nSel (n : BitVec 15) (hp : s.seq.pos = .nSel) : ElementAt s (.nSel n) s
  | sel (j : Nat) (hp : s.seq.pos = .sel) (hj : 0 < s.tab.numTrees → j < s.tab.numTrees) : ElementAt s (.sel j) s
  | selOverrun (ones : Nat) (hp : s.seq.pos = .sel) : ElementAt s (.selOverrun ones) s
  | lBase (l : BitVec 5) (hp : s.seq.pos = .lBase) : ElementAt s (.lBase l) s
  | lEnd (hp : s.seq.pos = .lCode) : ElementAt s .lEnd s
  | lInc (hp : s.seq.pos = .lCode) : ElementAt s .lInc s
  | lDec (hp : s.seq.pos = .lCode) : ElementAt s .lDec s
  | symbol {i : Instr} (hp : s.seq.pos = .symbol) (hu : selectorsUsedUp s = false) (hi : SymbolElement s.tab.numInUse i) :
      ElementAt s i (takeSymbolSlot s)

/-- A symbol slot touches the group registers alone (41_huffman.md R180). -/
@[simp] theorem takeSymbolSlot_tab (s : State) : (takeSymbolSlot s).tab = s.tab := by
  obtain ⟨_, _, _, e⟩ := takeSymbolSlot_eq s
  rw [e]

@[simp] theorem takeSymbolSlot_reader (s : State) : (takeSymbolSlot s).reader = s.reader := by
  obtain ⟨_, _, _, e⟩ := takeSymbolSlot_eq s
  rw [e]

@[simp] theorem takeSymbolSlot_seq (s : State) : (takeSymbolSlot s).seq = s.seq := by
  obtain ⟨_, _, _, e⟩ := takeSymbolSlot_eq s
  rw [e]

/-- The element at a position is one that position admits (30_encoding.md R115). -/
theorem elementAt_of_decode {s u : State} {ctx : DecodeCtx} {i : Instr} {bits rest : List Bool}
    (h : elementNext s = some (ctx, u)) (hd : decode ctx bits = .ok (i, rest)) : ElementAt s i u := by
  unfold elementNext at h
  split at h <;> rename_i hp
  case h_8 =>
    split at h <;> cases h
    rcases decodeLCode_ok hd with rfl | rfl | rfl
    · exact .lEnd hp
    · exact .lInc hp
    · exact .lDec hp
  case h_9 =>
    split at h <;> cases h
    rename_i hu
    have hi := decodeSymbol_ok hd
    rw [takeSymbolSlot_tab] at hi
    exact .symbol hp (by simpa [selectorsUsedUp] using hu) hi
  case h_10 => cases h
  all_goals cases h
  · rcases decodeHeader_ok hd with ⟨m, rfl⟩ | ⟨d, rfl⟩ | ⟨d, rfl, lo, hi⟩
    · exact .hdrBadMagic m hp
    · exact .hdrBadSize d hp
    · exact .hdr d hp lo hi
  · rcases decodeMarker_ok hd with ⟨bcrc, rand, orig, rfl⟩ | ⟨scrc, rfl⟩ | ⟨m, rfl⟩
    · exact .blk bcrc rand orig hp
    · exact .eos scrc hp
    · exact .badMark m hp
  · obtain ⟨g, fields, rfl⟩ := decodeInUse_ok hd
    exact .inUse g fields hp
  · obtain ⟨_, -, hd⟩ := bind_ok hd
    cases hd; exact .nTrees _ hp
  · obtain ⟨_, -, hd⟩ := bind_ok hd
    cases hd; exact .nSel _ hp
  · rcases decodeSel_ok hd with ⟨j, rfl, -, hj⟩ | ⟨j, rfl, -, -⟩
    · exact .sel _ hp hj
    · exact .selOverrun _ hp
  · obtain ⟨_, -, hd⟩ := bind_ok hd
    cases hd; exact .lBase _ hp

/-- What the stages that have no instruction can answer, by position. -/
inductive StageTo (s : State) : State → Prop
  | noCommand (hp : s.seq.pos = .idle) (hc : s.host.cmds = []) : StageTo s s
  | unknownCommand (c : HostCmd) (rest : List HostCmd) (hp : s.seq.pos = .idle) (hc : s.host.cmds = c :: rest)
      (hd : decodeCommand c = none) : StageTo s (refuseUnsupported { s with host := { s.host with cmds := rest } })
  | badLength (hp : s.seq.pos = .lCode) (hr : lengthOutOfRange s.seq.cur = true) : StageTo s (raiseFault .badCodeLength s)
  | build (hp : s.seq.pos = .build) : StageTo s (buildTree s)
  | startSymbols (hp : s.seq.pos = .startSymbols) : StageTo s (startSymbols s)
  | usedUp (hp : s.seq.pos = .symbol) (hu : selectorsUsedUp s = true) :
      StageTo s (raiseFault .selectorsExhausted (nextGroup s))
  | invBwt {t : State} (hp : s.seq.pos = .invBwt) (h : inverseBwt s = .ok t) : StageTo s t
  | derand {t : State} (hp : s.seq.pos = .derand) (h : derandomise s = .ok t) : StageTo s t
  | prepassStart (hp : s.seq.pos = .prepassStart) : StageTo s (startPrepass s)
  | owedCopy (hp : s.seq.pos = .prepass ∨ (s.seq.pos = .release ∧ s.seq.readLeft ≠ 0)) (hr : 0 < s.exp.rep) :
      StageTo s (owedCopy s)
  | finishPrepass (hp : s.seq.pos = .prepass) (hr : s.exp.rep = 0) (hn : s.exp.pos = s.sym.n) (h4 : s.exp.run ≠ 4) :
      StageTo s (finishPrepass s)
  | releaseDone (hp : s.seq.pos = .release) (hl : s.seq.readLeft = 0) : StageTo s (releaseDone s)

/-- The stages of an expander step: an owed copy, or the end of the block (46_output_rle.md R266). -/
theorem expandNext_stage {s t : State} {r : Result} (h : expandNext r s = .stage (.next t)) :
    (0 < s.exp.rep ∧ t = owedCopy s) ∨ (s.exp.rep = 0 ∧ s.exp.pos = s.sym.n ∧ s.exp.run ≠ 4 ∧ r = .next t) := by
  unfold expandNext at h
  split at h
  · cases h; exact .inl ⟨‹_›, rfl⟩
  · split at h
    · rename_i he
      cases h; exact .inr ⟨by omega, he.1, he.2, rfl⟩
    · split at h
      · unfold workOf at h
        split at h <;> cases h
      · cases h

/-- Decoded bits are never a stage that goes on. -/
theorem workOf_stage {s t : State} {d : Decoded} : workOf s d ≠ .stage (.next t) := by
  unfold workOf
  split <;> nofun

/-- Between commands a step without an instruction does nothing or refuses a command (47_stream_control.md R282, R302). -/
theorem takeCommand_stage {s t : State} (hp : s.seq.pos = .idle) (h : takeCommand s = .stage (.next t)) : StageTo s t := by
  unfold takeCommand at h
  split at h
  · cases h; exact .noCommand hp ‹_›
  · split at h <;> cases h
    exact .unknownCommand _ _ hp ‹_› ‹_›

theorem plannedWork_stage {s t : State} (h : plannedWork s = .stage (.next t)) : StageTo s t := by
  unfold plannedWork at h
  split at h <;> rename_i hp
  case h_1 => exact takeCommand_stage hp h
  case h_9 =>
    unfold fetchLengthCode at h
    split at h
    · cases h; exact .badLength hp ‹_›
    · exact absurd h workOf_stage
  case h_10 => cases h; exact .build hp
  case h_11 => cases h; exact .startSymbols hp
  case h_12 =>
    unfold fetchSymbol at h
    split at h
    · cases h; exact .usedUp hp ‹_›
    · exact absurd h workOf_stage
  case h_13 => exact .invBwt hp (outcomeOf_next.1 (Work.stage.inj h))
  case h_14 => exact .derand hp (outcomeOf_next.1 (Work.stage.inj h))
  case h_15 => cases h; exact .prepassStart hp
  case h_16 =>
    rcases expandNext_stage h with ⟨hr, rfl⟩ | ⟨hr, hn, h4, e⟩
    · exact .owedCopy (.inl hp) hr
    · cases e; exact .finishPrepass hp hr hn h4
  case h_17 =>
    split at h
    · cases h; exact .releaseDone hp ‹_›
    · rcases expandNext_stage h with ⟨hr, rfl⟩ | ⟨-, -, -, e⟩
      · exact .owedCopy (.inr ⟨hp, ‹_›⟩) hr
      · cases e
  all_goals exact absurd h workOf_stage

/-- Everything a step can do: a stage, a wait for the source, or the meaning of a command, of an element of the stream or
of a byte of `RECON`. -/
inductive StepTo (s : State) : State → Prop
  | stage {t : State} (h : StageTo s t) : StepTo s t
  | wait (hp : s.seq.pos ≠ .idle) : StepTo s s.awaitSource
  | command {t : State} {i : Instr} (c : HostCmd) (rest : List HostCmd) (hp : s.seq.pos = .idle)
      (hc : s.host.cmds = c :: rest) (hd : decodeCommand c = some i)
      (hx : exec i { s with host := { s.host with cmds := rest } } = .next t) : StepTo s t
  | element {t u : State} {i : Instr} (he : ElementAt s i u) (hx : exec i u = .next t) : StepTo s t
  | recon {t : State} {i : Instr} (hp : s.seq.pos = .prepass ∨ (s.seq.pos = .release ∧ s.seq.readLeft ≠ 0))
      (hr : s.exp.rep = 0) (hi : ReconElement s.exp.run i) (hx : exec i s = .next t) : StepTo s t

/-- A command reads nothing from the stream. -/
theorem readWidths_command {c : HostCmd} {i : Instr} (h : decodeCommand c = some i) : readWidths i = [] := by
  cases c <;> cases h <;> rfl

theorem stepTo_of_step {s t : State} (h : step s = .next t) : StepTo s t := by
  have planned : ∀ {i u}, plannedWork s = .instr i u → exec i u = .next t → StepTo s t := by
    intro i u hw hx
    rcases plannedWork_instr hw with
      ⟨hp, c, rest, hc, hd, rfl⟩ | ⟨ctx, rest, he, hd⟩ | ⟨hp, rfl, hr, bits, rest, -, hd⟩
    · exact .command c rest hp hc hd hx
    · exact .element (elementAt_of_decode he hd) hx
    · exact .recon hp hr (decodeRecon_ok hd) hx
  unfold step at h
  rcases nextWork_cases s with ⟨r, hw, e⟩ | ⟨i, u, hw, ⟨-, e⟩ | ⟨ha, e⟩⟩ <;> rw [e] at h
  · exact .stage (plannedWork_stage (h ▸ hw))
  · exact planned hw h
  · cases h
    refine .wait fun hp => ?_
    rcases plannedWork_instr hw with ⟨-, c, rest, -, hd, -⟩ | ⟨ctx, rest, he, -⟩ | ⟨hp' | ⟨hp', -⟩, -⟩
    · rw [readWidths_command hd, answers_nil] at ha
      cases ha
    · rw [elementNext, hp] at he
      cases he
    · rw [hp] at hp'
      cases hp'
    · rw [hp] at hp'
      cases hp'

end Machine

end Sys2Proof
end

section
/-! PROOF. The bit reader over a step: stages leave it, elements move it forward, RESET alone gives a new source. -/

namespace Sys2Proof.Machine

theorem finishPrepass_reader (s : State) : (finishPrepass s).reader = s.reader := by
  rcases finishPrepass_cases s with ⟨-, e⟩ | ⟨-, e⟩ <;> rw [e]
  · rfl
  · exact afterMarker_reader _

theorem buildTree_reader (s : State) : (buildTree s).reader = s.reader := by
  rcases buildTree_cases s with e | e | ⟨_, -, e⟩ <;> rw [e] <;> rfl

theorem nextGroup_reader (s : State) : (nextGroup s).reader = s.reader := by
  unfold nextGroup
  split <;> rfl

theorem inverseBwt_reader {s t : State} (h : inverseBwt s = .ok t) : t.reader = s.reader := by
  unfold inverseBwt at h
  split at h
  · cases h; rfl
  · obtain ⟨_, _, _, _, _, _, -, -, -, -, rfl⟩ := invertBlock_ok h
    rfl

theorem derandomise_reader {s t : State} (h : derandomise s = .ok t) : t.reader = s.reader := by
  rcases derandomise_ok h with ⟨-, rfl⟩ | ⟨-, _, _, -, rfl⟩ <;> rfl

/-- A stage reads no bit of the stream. -/
theorem StageTo.reader {s t : State} (h : StageTo s t) : t.reader = s.reader := by
  cases h with
  | noCommand => rfl
  | unknownCommand => rfl
  | badLength => rfl
  | build => exact buildTree_reader s
  | startSymbols => rfl
  | usedUp => exact nextGroup_reader s
  | invBwt _ h => exact inverseBwt_reader h
  | derand _ h => exact derandomise_reader h
  | prepassStart => rfl
  | owedCopy => exact returnByte_reader _ _
  | finishPrepass => exact finishPrepass_reader s
  | releaseDone =>
    rcases releaseDone_cases s with ⟨-, e⟩ | ⟨-, e⟩ <;> rw [e] <;> rfl

/-- The reader a state's element is executed with is the state's. -/
theorem ElementAt.reader {s u : State} {i : Instr} (h : ElementAt s i u) : u.reader = s.reader := by
  cases h
  case symbol => exact takeSymbolSlot_reader s
  all_goals rfl

/-- An element is none of the host's commands. -/
theorem ElementAt.ne_reset {s u : State} {i : Instr} (h : ElementAt s i u) (source : Source) (owns : Bool) :
    i ≠ .reset source owns := by
  rintro rfl
  cases h with
  | symbol _ _ hi => cases hi

theorem ElementAt.pos_ne_idle {s u : State} {i : Instr} (h : ElementAt s i u) : s.seq.pos ≠ .idle := by
  intro hi
  cases h <;> simp_all

/-- One reader comes after another in the same stream. -/
def Reader.Forward (r r' : Reader) : Prop := r'.src = r.src ∧ r.bitpos ≤ r'.bitpos ∧ r.srcPos ≤ r'.srcPos

theorem Reader.Forward.refl (r : Reader) : r.Forward r := ⟨rfl, le_refl _, le_refl _⟩

theorem Reader.forward_advance (ws : List Nat) (r : Reader) : r.Forward (r.advance ws) := by
  obtain ⟨hb, hs, hp⟩ := advance_moves ws r
  exact ⟨hs, by omega, hp⟩

theorem awaitSource_forward (s : State) : s.reader.Forward s.awaitSource.reader := by
  rcases awaitSource_cases s with ⟨-, e⟩ | ⟨_, _, -, e⟩ <;> rw [e] <;> exact .refl _

/-- Settles O58: each way a step can go moves the reader forward, and the commands but RESET leave it. -/
theorem streamOnlyAdvances : Obligations.StreamOnlyAdvances := by
  intro s t h
  have forward (hf : s.reader.Forward t.reader) (hi : s.seq.pos = .idle → t.reader = s.reader) :
      t.reader.src = s.reader.src ∧ s.reader.bitpos ≤ t.reader.bitpos ∧ s.reader.srcPos ≤ t.reader.srcPos ∧
        (s.seq.pos = .idle → t.reader = s.reader) := ⟨hf.1, hf.2.1, hf.2.2, hi⟩
  cases stepTo_of_step h with
  | stage hs => exact .inl (forward (hs.reader ▸ .refl _) fun _ => hs.reader)
  | wait hp => exact .inl (forward (awaitSource_forward s) fun hi => absurd hi hp)
  | command c rest hp hc hd hx =>
    rcases exec_reader hx with hr | ⟨source, owns, rfl, hr⟩
    · rw [readWidths_command hd] at hr
      exact .inl (forward (hr ▸ .refl _) fun _ => hr)
    · cases c <;> cases hd
      exact .inr ⟨source, owns, rest, hp, hc, hr⟩
  | element he hx =>
    rcases exec_reader hx with hr | ⟨source, owns, rfl, -⟩
    · rw [he.reader] at hr
      exact .inl (forward (hr ▸ Reader.forward_advance _ _) fun hi => absurd hi he.pos_ne_idle)
    · exact absurd rfl (he.ne_reset source owns)
  | recon hp hr hi hx =>
    have hne : s.seq.pos ≠ .idle := by rcases hp with hp | ⟨hp, -⟩ <;> simp [hp]
    rcases exec_reader hx with hr | ⟨_, _, rfl, -⟩
    · exact .inl (forward (hr ▸ Reader.forward_advance _ _) fun hi => absurd hi hne)
    · cases hi

end Sys2Proof.Machine
end

section
/-! PROOF. The steps that leave the block's tables and symbol registers alone, told from those that write them: what the
invariants over the registers and over the tables share. -/

namespace Sys2Proof.Machine

/-- The legal values of the derandomiser's registers (10_state.md R59). -/
def Derand.InRange (d : Derand) : Prop := d.ntogo ≤ 999 ∧ d.tpos ≤ 511

/-- The legal values of `EXP_RUN` and `EXP_REP` (10_state.md R60). -/
def Expander.InRange (e : Expander) : Prop := e.run ≤ 4 ∧ e.rep ≤ 255

/-- No entry of `RNUMS` is above 999 (44_derandomizer.md R238), and past its end a table reads as 0. -/
theorem tableGet_rnums_le (i : Nat) : tableGet rnums i ≤ 999 := by
  have hall : ∀ x ∈ rnums, x ≤ 999 := by decide +kernel
  unfold tableGet
  rw [List.getD_eq_getElem?_getD]
  cases h : rnums[i]? with
  | none => exact Nat.zero_le _
  | some x => exact hall x (List.mem_of_getElem? h)

theorem derandTick_inRange {d : Derand} (h : d.InRange) : (derandTick d).1.InRange := by
  obtain ⟨hn, ht⟩ := h
  unfold derandTick
  have hr := tableGet_rnums_le d.tpos
  split
  · refine ⟨?_, ?_⟩
    · show tableGet rnums d.tpos - 1 ≤ 999
      omega
    · show (d.tpos + 1) % 512 ≤ 511
      omega
  · refine ⟨?_, ht⟩
    show d.ntogo - 1 ≤ 999
    omega

theorem derandLoop_inRange {limit left k : Nat} {d d' : Derand} {recon recon' : List Host.Cell} (hd : d.InRange)
    (h : derandLoop limit left k d recon = .ok (recon', d')) : d'.InRange := by
  induction left generalizing k d recon with
  | zero => cases h; exact hd
  | succ left ih =>
    rw [derandLoop_succ] at h
    split at h
    · split at h
      · exact ih (derandTick_inRange hd) h
      · cases h
    · exact ih (derandTick_inRange hd) h

/-- `t` stands outside the set-up of a block's tables and has what `s` has in the size registers, the tables and the symbol
registers; the derandomiser and the expander are in their ranges if they were. -/
structure KeepsBlock (s t : State) : Prop where
  factor : t.ctrl.factor = s.ctrl.factor
  capacity : t.ctrl.capacity = s.ctrl.capacity
  tab : t.tab = s.tab
  sym : t.sym = s.sym
  rnd : s.rnd.InRange → t.rnd.InRange
  exp : s.exp.InRange → t.exp.InRange
  outside : t.seq.pos.setupRank = 0

theorem KeepsBlock.of_host {s t : State} {p : HostPort} (h : KeepsBlock { s with host := p } t) : KeepsBlock s t :=
  ⟨h.factor, h.capacity, h.tab, h.sym, h.rnd, h.exp, h.outside⟩

theorem KeepsBlock.of_consume {i : Instr} {s t : State} (h : KeepsBlock (s.consume i) t) : KeepsBlock s t :=
  ⟨h.factor, h.capacity, h.tab, h.sym, h.rnd, h.exp, h.outside⟩

theorem raiseFault_keepsBlock (k : FaultKind) (s : State) : KeepsBlock s (raiseFault k s) :=
  ⟨rfl, rfl, rfl, rfl, id, id, rfl⟩

theorem respond_keepsBlock (r : Response) (s : State) : KeepsBlock s (s.respond r) := ⟨rfl, rfl, rfl, rfl, id, id, rfl⟩

theorem refuseUnsupported_keepsBlock (s : State) : KeepsBlock s (refuseUnsupported s) := respond_keepsBlock _ s

theorem goto_keepsBlock {p : Position} (hp : p.setupRank = 0) (s : State) : KeepsBlock s (s.goto p) :=
  ⟨rfl, rfl, rfl, rfl, id, id, hp⟩

theorem afterMarker_keepsBlock (s : State) : KeepsBlock s (afterMarker s) := by
  rcases afterMarker_cases s with ⟨-, e⟩ | ⟨-, -, e⟩ | ⟨-, -, e⟩ <;> rw [e]
  · exact respond_keepsBlock _ s
  · exact respond_keepsBlock _ s
  · exact ⟨rfl, rfl, rfl, rfl, id, id, rfl⟩

theorem releaseDone_keepsBlock (s : State) : KeepsBlock s (releaseDone s) := by
  rcases releaseDone_cases s with ⟨-, e⟩ | ⟨-, e⟩ <;> rw [e] <;> exact ⟨rfl, rfl, rfl, rfl, id, id, rfl⟩

theorem finishPrepass_keepsBlock (s : State) : KeepsBlock s (finishPrepass s) := by
  rcases finishPrepass_cases s with ⟨-, e⟩ | ⟨-, e⟩ <;> rw [e]
  · exact ⟨rfl, rfl, rfl, rfl, id, id, rfl⟩
  · obtain ⟨hf, hc, ht, hs, hr, hx, hp⟩ := afterMarker_keepsBlock { s with
      crc := { s.crc with block := crcFinal s.crc.running }
      exp := ⟨0, 0, none, 0, s.seq.expCount⟩
      ctrl := { s.ctrl with phase := .blockActive }
      freeCount := s.freeCount + 1 }
    exact ⟨hf, hc, ht, hs, hr, fun _ => hx ⟨Nat.zero_le _, Nat.zero_le _⟩, hp⟩

/-- A returned byte leaves the block, and of the expander only `EXP_REMAINING` moves. -/
theorem returnByte_keepsBlock (b : Byte) {s : State} (hp : s.seq.pos.setupRank = 0) : KeepsBlock s (returnByte b s) := by
  rcases returnByte_cases b s with ⟨-, e⟩ | ⟨-, e⟩ <;> rw [e] <;> exact ⟨rfl, rfl, rfl, rfl, id, id, hp⟩

theorem owedCopy_keepsBlock {s : State} (hp : s.seq.pos.setupRank = 0) : KeepsBlock s (owedCopy s) := by
  obtain ⟨hf, hc, ht, hs, hr, hx, ho⟩ := returnByte_keepsBlock (prevByte s)
    (s := { s with exp := { s.exp with rep := s.exp.rep - 1 } }) hp
  exact ⟨hf, hc, ht, hs, hr, fun he => hx ⟨he.1, (Nat.sub_le _ _).trans he.2⟩, ho⟩

theorem inverseBwt_keepsBlock {s t : State} (h : inverseBwt s = .ok t) : KeepsBlock s t := by
  unfold inverseBwt at h
  split at h
  · cases h; exact raiseFault_keepsBlock _ s
  · obtain ⟨_, _, _, _, _, _, -, -, -, -, rfl⟩ := invertBlock_ok h
    exact ⟨rfl, rfl, rfl, rfl, id, id, rfl⟩

theorem derandomise_keepsBlock {s t : State} (h : derandomise s = .ok t) : KeepsBlock s t := by
  rcases derandomise_ok h with ⟨-, rfl⟩ | ⟨-, _, _, hd, rfl⟩
  · exact goto_keepsBlock rfl s
  · exact ⟨rfl, rfl, rfl, rfl, fun _ => derandLoop_inRange ⟨Nat.zero_le _, Nat.zero_le _⟩ hd, id, rfl⟩

theorem execBlk_keepsBlock {bcrc : Word} {rand : Bool} {origPtr : BitVec 24} {s t : State}
    (h : execBlk bcrc rand origPtr s = .next t) : KeepsBlock s t := by
  rw [← Host.Outcome.next.inj h]
  exact ⟨by simp, by simp, by simp, by simp, by simp, by simp, rfl⟩

theorem execEos_keepsBlock {scrc : Word} {s t : State} (h : execEos scrc s = .next t) : KeepsBlock s t := by
  unfold execEos at h
  simp only at h
  split at h <;> cases h
  · exact (raiseFault_keepsBlock _ _).of_consume
  · obtain ⟨hf, hc, ht, hs, hr, hx, hp⟩ := afterMarker_keepsBlock ((s.consume (.eos scrc)).setPhase .done)
    exact ⟨hf, hc, ht, hs, hr, hx, hp⟩

/-- LIT keeps `EXP_RUN` at most 4: it stands where the counter is not 4 (46_output_rle.md R267). -/
theorem execLit_keepsBlock {b : Byte} {s t : State} (hp : s.seq.pos.setupRank = 0) (h4 : s.exp.run ≠ 4)
    (h : execLit b s = .next t) : KeepsBlock s t := by
  cases h
  obtain ⟨hf, hc, ht, hs, hr, hx, ho⟩ := returnByte_keepsBlock b (s := { s with exp := { s.exp with
    pos := s.exp.pos + 1, run := if 1 ≤ s.exp.run ∧ b = prevByte s then s.exp.run + 1 else 1, prev := some b } }) hp
  refine ⟨hf, hc, ht, hs, hr, fun he => hx ⟨?_, he.2⟩, ho⟩
  have := he.1
  dsimp only
  split <;> omega

/-- COUNT sets `EXP_REP` to a byte's value (46_output_rle.md R268). -/
theorem execCount_keepsBlock {n : Byte} {s t : State} (hp : s.seq.pos.setupRank = 0) (h : execCount n s = .next t) :
    KeepsBlock s t := by
  have hn : n.toNat ≤ 255 := by have := n.isLt; omega
  unfold execCount at h
  simp only at h
  split at h <;> cases h
  · obtain ⟨hf, hc, ht, hs, hr, hx, ho⟩ := owedCopy_keepsBlock (s := { s with exp := { s.exp with
      pos := s.exp.pos + 1, rep := countCopies n, run := 0 } }) hp
    exact ⟨hf, hc, ht, hs, hr, fun _ => hx ⟨Nat.zero_le _, hn⟩, ho⟩
  · exact ⟨rfl, rfl, rfl, rfl, id, fun _ => ⟨Nat.zero_le _, hn⟩, hp⟩

theorem exec_recon_keepsBlock {s t : State} {i : Instr} (hi : ReconElement s.exp.run i)
    (hp : s.seq.pos.setupRank = 0) (hx : exec i s = .next t) : KeepsBlock s t := by
  cases hi with
  | lit b h4 => exact execLit_keepsBlock hp h4 hx
  | count n => exact execCount_keepsBlock hp hx
  | rleTrunc => cases hx; exact raiseFault_keepsBlock _ s

theorem execRead_keepsBlock {count : Nat} {s t : State} (h : execRead count s = .next t) : KeepsBlock s t := by
  unfold execRead at h
  split at h
  · cases h; exact respond_keepsBlock _ s
  split at h
  · cases h; exact respond_keepsBlock _ s
  split at h
  · cases h; exact respond_keepsBlock _ s
  split at h <;> cases h
  · exact respond_keepsBlock _ s
  · rcases startRead_cases count s with ⟨-, e⟩ | ⟨-, e⟩ <;> rw [e] <;> exact ⟨rfl, rfl, rfl, rfl, id, id, rfl⟩

theorem execClose_keepsBlock {s t : State} (h : execClose s = .next t) : KeepsBlock s t := by
  unfold execClose at h
  split at h <;> cases h <;> exact ⟨rfl, rfl, rfl, rfl, id, id, rfl⟩

theorem execGetCaps_keepsBlock {s t : State} (h : execGetCaps s = .next t) : KeepsBlock s t := by
  unfold execGetCaps at h
  split at h <;> cases h <;> exact respond_keepsBlock _ s

/-- A host command keeps the block, or is RESET and leaves the state of 70_reset_and_hazards.md R340. -/
theorem exec_command_cases {c : HostCmd} {i : Instr} {s t : State} (hd : decodeCommand c = some i)
    (hx : exec i s = .next t) :
    KeepsBlock s t ∨ ∃ source owns host k, t = State.resetTo source owns host k := by
  cases c <;> cases hd
  case reset source owns => cases hx; exact .inr ⟨source, owns, _, _, rfl⟩
  case read => exact .inl (execRead_keepsBlock hx)
  case close => exact .inl (execClose_keepsBlock hx)
  case getCaps => exact .inl (execGetCaps_keepsBlock hx)
  all_goals cases hx; exact .inl (respond_keepsBlock _ s)

/-- A step seen from the block's registers: it keeps them, moves the reader alone, resets, or is one of the steps that set
the size, set up the tables or decode a symbol. -/
inductive BlockTo (s : State) : State → Prop
  | keeps {t : State} (h : KeepsBlock s t) : BlockTo s t
  | reader (r : Reader) : BlockTo s { s with reader := r }
  | reset (source : Source) (owns : Bool) (host : HostPort) (k : Nat) : BlockTo s (State.resetTo source owns host k)
  | hdr {t : State} (d : BitVec 4) (hi : d.toNat ≤ 9) (hx : execHdr d s = .next t) : BlockTo s t
  | inUse {t : State} (g : BitVec 16) (fields : List (BitVec 16)) (hp : s.seq.pos = .inUse)
      (hx : execInUse g fields s = .next t) : BlockTo s t
  | nTrees {t : State} (n : BitVec 3) (hp : s.seq.pos = .nTrees) (hx : execNTrees n s = .next t) : BlockTo s t
  | nSel {t : State} (n : BitVec 15) (hp : s.seq.pos = .nSel) (hx : execNSel n s = .next t) : BlockTo s t
  | sel {t : State} (j : Nat) (hp : s.seq.pos = .sel) (hj : 0 < s.tab.numTrees → j < s.tab.numTrees)
      (hx : execSel j s = .next t) : BlockTo s t
  | lBase {t : State} (l : BitVec 5) (hp : s.seq.pos = .lBase) (hx : execLBase l s = .next t) : BlockTo s t
  | lEnd {t : State} (hp : s.seq.pos = .lCode) (hx : execLEnd s = .next t) : BlockTo s t
  | lInc {t : State} (hp : s.seq.pos = .lCode) (hx : execLInc s = .next t) : BlockTo s t
  | lDec {t : State} (hp : s.seq.pos = .lCode) (hx : execLDec s = .next t) : BlockTo s t
  | build (hp : s.seq.pos = .build) : BlockTo s (buildTree s)
  | startSymbols (hp : s.seq.pos = .startSymbols) : BlockTo s (startSymbols s)
  | usedUp (hp : s.seq.pos = .symbol) (hu : selectorsUsedUp s = true) :
      BlockTo s (raiseFault .selectorsExhausted (nextGroup s))
  | symbol {t : State} {i : Instr} (hp : s.seq.pos = .symbol) (hu : selectorsUsedUp s = false)
      (hi : SymbolElement s.tab.numInUse i) (hx : exec i (takeSymbolSlot s) = .next t) : BlockTo s t

theorem StageTo.blockTo {s t : State} (h : StageTo s t) : BlockTo s t := by
  cases h with
  | noCommand => exact .reader s.reader
  | unknownCommand => exact .keeps (refuseUnsupported_keepsBlock _).of_host
  | badLength => exact .keeps (raiseFault_keepsBlock _ s)
  | build hp => exact .build hp
  | startSymbols hp => exact .startSymbols hp
  | usedUp hp hu => exact .usedUp hp hu
  | invBwt _ h => exact .keeps (inverseBwt_keepsBlock h)
  | derand _ h => exact .keeps (derandomise_keepsBlock h)
  | prepassStart => exact .keeps ⟨rfl, rfl, rfl, rfl, id, fun _ => ⟨Nat.zero_le _, Nat.zero_le _⟩, rfl⟩
  | owedCopy hp => exact .keeps (owedCopy_keepsBlock (by rcases hp with hp | ⟨hp, -⟩ <;> rw [hp] <;> rfl))
  | finishPrepass => exact .keeps (finishPrepass_keepsBlock s)
  | releaseDone => exact .keeps (releaseDone_keepsBlock s)

theorem ElementAt.blockTo {s t u : State} {i : Instr} (h : ElementAt s i u) (hx : exec i u = .next t) : BlockTo s t := by
  cases h with
  | hdr d _ _ hi => exact .hdr d hi hx
  | hdrBadMagic => cases hx; exact .keeps (raiseFault_keepsBlock _ _).of_consume
  | hdrBadSize => cases hx; exact .keeps (raiseFault_keepsBlock _ _).of_consume
  | blk => exact .keeps (execBlk_keepsBlock hx)
  | eos => exact .keeps (execEos_keepsBlock hx)
  | badMark => cases hx; exact .keeps (raiseFault_keepsBlock _ _).of_consume
  | inUse g fields hp => exact .inUse g fields hp hx
  | nTrees n hp => exact .nTrees n hp hx
  | nSel n hp => exact .nSel n hp hx
  | sel j hp hj => exact .sel j hp hj hx
  | selOverrun => cases hx; exact .keeps (raiseFault_keepsBlock _ _).of_consume
  | lBase l hp => exact .lBase l hp hx
  | lEnd hp => exact .lEnd hp hx
  | lInc hp => exact .lInc hp hx
  | lDec hp => exact .lDec hp hx
  | symbol hp hu hi => exact .symbol hp hu hi hx

theorem awaitSource_blockTo (s : State) : BlockTo s s.awaitSource := by
  rcases awaitSource_cases s with ⟨-, e⟩ | ⟨_, _, -, e⟩ <;> rw [e]
  · exact .reader s.reader
  · exact .reader _

theorem blockTo_of_step {s t : State} (h : step s = .next t) : BlockTo s t := by
  cases stepTo_of_step h with
  | stage hs => exact hs.blockTo
  | wait => exact awaitSource_blockTo s
  | command c rest hp hc hd hx =>
    rcases exec_command_cases hd hx with hk | ⟨source, owns, host, k, rfl⟩
    · exact .keeps hk.of_host
    · exact .reset source owns host k
  | element he hx => exact he.blockTo hx
  | recon hp hr hi hx => exact .keeps (exec_recon_keepsBlock hi (by rcases hp with hp | ⟨hp, -⟩ <;> rw [hp] <;> rfl) hx)

end Sys2Proof.Machine
end

section
/-! PROOF. What the elements that write a block's registers answer: one lemma each, by the branches of its rule. -/

namespace Sys2Proof.Machine

theorem groupValues_length_le (i : Nat) (field : BitVec 16) : (groupValues i field).length ≤ 16 := by
  unfold groupValues
  rw [List.length_map]
  exact (List.length_filter_le _ _).trans_eq List.length_range

theorem inUseOfGroups_length_le (g : BitVec 16) (groups : List Nat) (fields : List (BitVec 16)) :
    (inUseOfGroups g groups fields).length ≤ 16 * groups.length := by
  induction groups generalizing fields with
  | nil => exact Nat.zero_le _
  | cons i groups ih =>
    rw [List.length_cons]
    have hnil := ih []
    have hall := ih fields
    unfold inUseOfGroups
    split
    · cases fields with
      | nil => dsimp only; omega
      | cons f fields =>
        have hrest := ih fields
        have hf := groupValues_length_le i f
        simp only [List.length_append]
        omega
    · omega

/-- At most 256 byte values are in use (10_state.md R46). -/
theorem inUseList_length_le (g : BitVec 16) (fields : List (BitVec 16)) : (inUseList g fields).length ≤ 256 := by
  have h := inUseOfGroups_length_le g (List.range 16) fields
  rwa [List.length_range] at h

/-- INUSE writes the list and its count, and `ALPHA` where there is a value in use (42_mtf_symbols.md R190, R202). -/
theorem execInUse_cases {g : BitVec 16} {fields : List (BitVec 16)} {s t : State} (h : execInUse g fields s = .next t) :
    t = raiseFault .noSymbolsInUse { s.consume (.inUse g fields) with
        tab := { s.tab with inUseList := inUseList g fields, numInUse := (inUseList g fields).length } } ∨
      t = State.goto .nTrees { s.consume (.inUse g fields) with
        tab := { s.tab with
          inUseList := inUseList g fields, numInUse := (inUseList g fields).length
          alpha := (inUseList g fields).length + 2 } } := by
  unfold execInUse at h
  simp only at h
  split at h <;> cases h
  · exact .inl rfl
  · exact .inr rfl

/-- NTREES takes 2 to 6 trees (41_huffman.md R170). -/
theorem execNTrees_cases {n : BitVec 3} {s t : State} (h : execNTrees n s = .next t) :
    t = raiseFault .badTreeCount (s.consume (.nTrees n)) ∨
      (2 ≤ n.toNat ∧ n.toNat ≤ 6 ∧
        t = State.goto .nSel { s.consume (.nTrees n) with tab := { s.tab with numTrees := n.toNat } }) := by
  unfold execNTrees at h
  simp only at h
  split at h <;> rename_i hn <;> cases h
  · exact .inl rfl
  · simp only [Config.minTrees, Config.maxTrees] at hn
    exact .inr ⟨by omega, by omega, rfl⟩

/-- NSEL takes at least one selector and seeds the selectors' list (41_huffman.md R171, R172). -/
theorem execNSel_cases {n : BitVec 15} {s t : State} (h : execNSel n s = .next t) :
    t = raiseFault .badSelectorCount (s.consume (.nSel n)) ∨
      t = nextSelector { s.consume (.nSel n) with
        tab := { s.tab with numSel := n.toNat, selMtf := seedSelMtf s.tab.numTrees s.tab.selMtf }
        seq := { s.seq with selIdx := 0 } } := by
  unfold execNSel at h
  simp only at h
  split at h <;> cases h
  · exact .inl rfl
  · exact .inr rfl

/-- The two ways a symbol slot is taken (41_huffman.md R180): the next group's first, or the next of this group. -/
theorem takeSymbolSlot_cases (s : State) :
    (s.sym.groupLeft = 0 ∧ takeSymbolSlot s = { s with sym := { s.sym with
        groupIdx := s.sym.groupIdx + 1
        curTree := tableGet s.tab.selector (s.sym.groupIdx + 1).toNat
        groupLeft := 49 } }) ∨
      (s.sym.groupLeft ≠ 0 ∧ takeSymbolSlot s = { s with sym := { s.sym with groupLeft := s.sym.groupLeft - 1 } }) := by
  unfold takeSymbolSlot nextGroup
  split
  · exact .inl ⟨‹_›, rfl⟩
  · exact .inr ⟨‹_›, rfl⟩

theorem selectorsUsedUp_iff {s : State} :
    selectorsUsedUp s = true ↔ s.sym.groupLeft = 0 ∧ (s.tab.numSel : Int) ≤ s.sym.groupIdx + 1 := decide_eq_true_iff

end Sys2Proof.Machine
end

section
/-! PROOF. The registers keep to their ranges (10_state.md R36, R37, R46 to R48, R54, R55, R59, R60): each operation that
writes one keeps them, and so does every step. -/

namespace Sys2Proof.Machine

theorem runDigit_eq (v shift : Nat) : runDigit v shift = (v + 1) * 2 ^ shift := Nat.shiftLeft_eq _ _

/-- A position whose table set-up rank is 0 is not the symbol stream. -/
theorem ne_symbol_of_rank {p : Position} (h : p.setupRank = 0) : p ≠ .symbol := by
  rintro rfl
  cases h

namespace RegisterRanges

variable {s t : State}

theorem keeps (hr : RegisterRanges s) (hk : KeepsBlock s t) : RegisterRanges t := by
  obtain ⟨hf, hc, ht, hs, hd, hx, hp⟩ := hk
  have hne := ne_symbol_of_rank hp
  obtain ⟨hntogo, htpos⟩ := hd ⟨hr.ntogo, hr.tpos⟩
  obtain ⟨hrun, hrep⟩ := hx ⟨hr.expRun, hr.expRep⟩
  exact {
    factor := hf ▸ hr.factor
    capacity := by rw [hc, hf]; exact hr.capacity
    numTrees := ht ▸ hr.numTrees
    numSel := ht ▸ hr.numSel
    numInUse := ht ▸ hr.numInUse
    alpha := ht ▸ hr.alpha
    groupLeft := hs ▸ hr.groupLeft
    groupIdx := hs ▸ hr.groupIdx
    group := fun h => absurd h hne
    runShift := hs ▸ hr.runShift
    runLen := fun h => absurd h hne
    ntogo := hntogo
    tpos := htpos
    expRun := hrun
    expRep := hrep }

theorem raise (hr : RegisterRanges s) (k : FaultKind) : RegisterRanges (raiseFault k s) :=
  hr.keeps (raiseFault_keepsBlock k s)

/-- A move to a position outside the symbol stream. -/
theorem moved (hr : RegisterRanges s) (q : Sequencer) (hq : q.pos ≠ .symbol) : RegisterRanges { s with seq := q } :=
  { hr with group := fun h => absurd h hq, runLen := fun h => absurd h hq }

theorem consume (hr : RegisterRanges s) (i : Instr) : RegisterRanges (s.consume i) := { hr with }

theorem resetTo (source : Source) (owns : Bool) (host : HostPort) (k : Nat) :
    RegisterRanges (State.resetTo source owns host k) where
  factor := Nat.zero_le _
  capacity := (Nat.zero_mul _).symm
  numTrees := Nat.zero_le _
  numSel := Nat.zero_le _
  numInUse := ⟨Nat.zero_le _, rfl⟩
  alpha := Nat.zero_le _
  groupLeft := Nat.zero_le _
  groupIdx := by show (-1 : Int) ≤ 0 ∧ (0 : Int) ≤ 32767; decide
  group := nofun
  runShift := Nat.zero_le _
  runLen := nofun
  ntogo := Nat.zero_le _
  tpos := Nat.zero_le _
  expRun := Nat.zero_le _
  expRep := Nat.zero_le _

theorem hdr_step {d : BitVec 4} (hr : RegisterRanges s) (hi : d.toNat ≤ 9) (hx : execHdr d s = .next t) :
    RegisterRanges t := by
  cases hx
  exact { hr with factor := hi, capacity := rfl, group := nofun, runLen := nofun }

theorem inUse_step {g : BitVec 16} {fields : List (BitVec 16)} (hr : RegisterRanges s) (hx : execInUse g fields s = .next t) :
    RegisterRanges t := by
  have hlen := inUseList_length_le g fields
  rcases execInUse_cases hx with rfl | rfl
  · exact { hr with numInUse := ⟨hlen, rfl⟩, group := nofun, runLen := nofun }
  · exact { hr with numInUse := ⟨hlen, rfl⟩, alpha := Nat.add_le_add_right hlen 2, group := nofun, runLen := nofun }

theorem nTrees_step {n : BitVec 3} (hr : RegisterRanges s) (hx : execNTrees n s = .next t) : RegisterRanges t := by
  rcases execNTrees_cases hx with rfl | ⟨-, h6, rfl⟩
  · exact (hr.consume _).raise _
  · exact { hr with numTrees := h6, group := nofun, runLen := nofun }

/-- The move after a selector leaves every register with a range; from here only the position counts. -/
theorem nextSelector (hr : RegisterRanges (s.goto .sel)) : RegisterRanges (nextSelector s) := by
  rcases nextSelector_cases s with ⟨-, e⟩ | ⟨-, e⟩ <;> rw [e]
  · exact hr
  · exact { hr with group := nofun, runLen := nofun }

theorem nSel_step {n : BitVec 15} (hr : RegisterRanges s) (hx : execNSel n s = .next t) : RegisterRanges t := by
  have hn : n.toNat ≤ 32767 := by have := n.isLt; omega
  rcases execNSel_cases hx with rfl | rfl
  · exact (hr.consume _).raise _
  · exact nextSelector { hr with numSel := hn, group := nofun, runLen := nofun }

theorem sel_step {j : Nat} (hr : RegisterRanges s) (hx : execSel j s = .next t) : RegisterRanges t := by
  cases hx
  exact nextSelector { hr with group := nofun, runLen := nofun }

theorem lEnd_step (hr : RegisterRanges s) (hx : execLEnd s = .next t) : RegisterRanges t := by
  cases hx
  obtain ⟨sym, tree, p, hp, e⟩ := afterLength_eq { s.consume .lEnd with
    tab := { s.tab with len := setLen s.tab.len s.seq.treeIdx s.seq.symIdx s.seq.cur } }
  have hne : p ≠ .symbol := by rcases hp with rfl | rfl | rfl <;> nofun
  exact e ▸ { hr with group := fun h => absurd h hne, runLen := fun h => absurd h hne }

theorem build_step (hr : RegisterRanges s) : RegisterRanges (buildTree s) := by
  rcases buildTree_cases s with e | e | ⟨p, hp, e⟩ <;> rw [e]
  · exact hr.raise _
  · exact hr.raise _
  · have hne : p ≠ .symbol := by rcases hp with rfl | rfl <;> nofun
    exact { hr with group := fun h => absurd h hne, runLen := fun h => absurd h hne }

/-- Before the first group `GROUP_IDX` is -1, and the run and the block are empty (42_mtf_symbols.md R195). -/
theorem startSymbols_step (hr : RegisterRanges s) : RegisterRanges (startSymbols s) :=
  { hr with
    groupLeft := Nat.zero_le _
    groupIdx := ⟨le_refl _, by show (-1 : Int) ≤ 32767; decide⟩
    group := fun _ => by show (-1 : Int) < s.tab.numSel; omega
    runShift := Nat.zero_le _
    runLen := fun _ => ⟨le_refl _, Nat.zero_le _⟩ }

/-- The fault at the end of the selectors comes with `GROUP_IDX` at `NUM_SEL` at most (41_huffman.md R180, R181). -/
theorem usedUp_step (hr : RegisterRanges s) (hp : s.seq.pos = .symbol) (hu : selectorsUsedUp s = true) :
    RegisterRanges (raiseFault .selectorsExhausted (nextGroup s)) := by
  have hg := hr.group hp
  have hn := hr.numSel
  have hi := hr.groupIdx
  unfold nextGroup
  rw [if_pos (selectorsUsedUp_iff.1 hu).1]
  exact { hr with groupIdx := ⟨by show -1 ≤ s.sym.groupIdx + 1; omega, by show s.sym.groupIdx + 1 ≤ 32767; omega⟩
                  group := nofun, runLen := nofun }

theorem takeSlot (hr : RegisterRanges s) (hu : selectorsUsedUp s = false) : RegisterRanges (takeSymbolSlot s) := by
  have hn := hr.numSel
  have hi := hr.groupIdx
  have hl := hr.groupLeft
  rw [← Bool.not_eq_true, selectorsUsedUp_iff] at hu
  rcases takeSymbolSlot_cases s with ⟨h0, e⟩ | ⟨-, e⟩ <;> rw [e]
  · have hlt : s.sym.groupIdx + 1 < s.tab.numSel := by omega
    exact { hr with
      groupLeft := by show 49 ≤ 50; decide
      groupIdx := ⟨by show -1 ≤ s.sym.groupIdx + 1; omega, by show s.sym.groupIdx + 1 ≤ 32767; omega⟩
      group := fun _ => hlt }
  · exact { hr with groupLeft := (Nat.sub_le _ _).trans hl }

/-- In the symbol stream a run that has `2^RUN_SHIFT - 1` bytes or more fits the block, so the shift is at most 19. -/
theorem runShift_lt (hr : RegisterRanges s) (hp : s.seq.pos = .symbol) : s.sym.runShift < 20 := by
  obtain ⟨hpow, hfit⟩ := hr.runLen hp
  have hcap := hr.capacity
  have hfac := hr.factor
  simp only [Config.blockUnit] at hcap
  by_contra hge
  have : 2 ^ 20 ≤ 2 ^ s.sym.runShift := Nat.pow_le_pow_right (by decide) (by omega)
  omega

/-- A run digit at least doubles the run's bound (42_mtf_symbols.md R196, R203). -/
theorem runSymbol_step (hr : RegisterRanges s) (hp : s.seq.pos = .symbol) (v : Nat) : RegisterRanges (runSymbol v s) := by
  have hshift := hr.runShift_lt hp
  obtain ⟨hpow, -⟩ := hr.runLen hp
  unfold Machine.runSymbol
  dsimp only
  split
  · exact { hr with runShift := hshift, group := nofun, runLen := nofun }
  · rename_i ho
    rw [overflows_iff] at ho
    have hdigit : 2 ^ s.sym.runShift ≤ runDigit v s.sym.runShift := by
      rw [runDigit_eq]
      exact Nat.le_mul_of_pos_left _ (Nat.succ_pos v)
    refine { hr with group := fun _ => hr.group hp, runShift := hshift, runLen := fun _ => ⟨?_, by exact not_lt.1 ho⟩ }
    show 2 ^ (s.sym.runShift + 1) ≤ s.sym.runLen + runDigit v s.sym.runShift + 1
    rw [pow_succ]
    omega

/-- After the flush no run is pending (42_mtf_symbols.md R197). -/
theorem flush_step (hr : RegisterRanges s) (hp : s.seq.pos = .symbol) (h : flushRun s = .ok t) : RegisterRanges t := by
  obtain ⟨buf, rfl, -⟩ := flushRun_ok h
  obtain ⟨hpow, hfit⟩ := hr.runLen hp
  have hshift : (if 0 < s.sym.runLen then 0 else s.sym.runShift) = 0 := by
    split
    · rfl
    · have := Nat.lt_two_pow_self (n := s.sym.runShift)
      omega
  rw [hshift]
  exact { hr with runShift := Nat.zero_le _, runLen := fun _ => ⟨le_refl _, hfit⟩ }

theorem mtfSymbol_step {v : Nat} (hr : RegisterRanges s) (hp : s.seq.pos = .symbol) (h0 : s.sym.runLen = 0)
    (h : mtfSymbol v s = .ok t) : RegisterRanges t := by
  obtain ⟨hpow, -⟩ := hr.runLen hp
  rcases mtfSymbol_ok h with ⟨-, rfl⟩ | ⟨hcap, -, rfl⟩
  · exact hr.raise _
  · refine { hr with group := fun _ => hr.group hp, runLen := fun _ => ⟨hpow, ?_⟩ }
    show s.sym.n + 1 + s.sym.runLen ≤ s.ctrl.capacity
    omega

theorem symbol_step {i : Instr} {n : Nat} (hr : RegisterRanges s) (hp : s.seq.pos = .symbol) (hi : SymbolElement n i)
    (hx : exec i s = .next t) : RegisterRanges t := by
  cases hi with
  | runA code => cases hx; exact (hr.consume (.runA code)).runSymbol_step hp 0
  | runB code => cases hx; exact (hr.consume (.runB code)).runSymbol_step hp 1
  | mtf v code =>
    obtain ⟨u, hu, ht⟩ := bind_ok (outcomeOf_next.1 hx)
    have hru := (hr.consume _).flush_step hp hu
    obtain ⟨_, rfl, -⟩ := flushRun_ok hu
    exact hru.mtfSymbol_step hp rfl ht
  | eob code =>
    obtain ⟨u, hu, ht⟩ := bind_ok (outcomeOf_next.1 hx)
    cases ht
    exact ((hr.consume _).flush_step hp hu).keeps (goto_keepsBlock rfl u)
  | invalidSym v code =>
    obtain ⟨u, hu, ht⟩ := bind_ok (outcomeOf_next.1 hx)
    cases ht
    exact ((hr.consume _).flush_step hp hu).raise _
  | huffNoMatch bits => cases hx; exact (hr.consume _).raise _

theorem blockTo (hr : RegisterRanges s) (h : BlockTo s t) : RegisterRanges t := by
  cases h with
  | keeps hk => exact hr.keeps hk
  | reader r => exact { hr with }
  | reset source owns host k => exact resetTo source owns host k
  | hdr d hi hx => exact hr.hdr_step hi hx
  | inUse g fields _ hx => exact hr.inUse_step hx
  | nTrees n _ hx => exact hr.nTrees_step hx
  | nSel n _ hx => exact hr.nSel_step hx
  | sel j _ _ hx => exact hr.sel_step hx
  | lBase l _ hx => cases hx; exact (hr.consume (.lBase l)).moved _ nofun
  | lEnd _ hx => exact hr.lEnd_step hx
  | lInc hp hx => cases hx; exact (hr.consume .lInc).moved _ (by simp [hp])
  | lDec hp hx => cases hx; exact (hr.consume .lDec).moved _ (by simp [hp])
  | build => exact hr.build_step
  | startSymbols => exact hr.startSymbols_step
  | usedUp hp hu => exact hr.usedUp_step hp hu
  | symbol hp hu hi hx => exact (hr.takeSlot hu).symbol_step (by rw [takeSymbolSlot_seq]; exact hp) hi hx

end RegisterRanges

/-- Settles O52: `BlockTo` lists what a step can do to the registers, and each way keeps the ranges. -/
theorem registerRangesKept : Obligations.RegisterRangesKept := fun _ _ hr h => hr.blockTo (blockTo_of_step h)

end Sys2Proof.Machine
end

section
/-! PROOF. The tables of the block being decoded (10_state.md R46 to R54, 41_huffman.md R160): each step of their set-up adds
its table and keeps those before it. -/

namespace Sys2Proof.Machine

/-- `GetAndMove` at a rank below `n` permutes the first `n` entries (42_mtf_symbols.md R192). -/
theorem getAndMove_take {α : Type} {table : List α} {r n : Nat} (hr : r < n) (hn : n ≤ table.length) :
    ∃ v ∈ table.take n, (getAndMove table r).1 = some v ∧ ((getAndMove table r).2.take n).Perm (table.take n) := by
  have hlen : (table.take n).length = n := List.length_take_of_le hn
  have hrt : r < table.length := by omega
  have hget : table[r] = (table.take n)[r]'(by omega) := by simp
  have hmove : getAndMove table r = (some table[r], table[r] :: table.eraseIdx r) := by
    simp [getAndMove, hrt, List.eraseIdx_eq_take_drop_succ]
  have herase : table.eraseIdx r = (table.take n).eraseIdx r ++ table.drop n := by
    conv_lhs => rw [← List.take_append_drop n table]
    exact List.eraseIdx_append_of_lt_length (by omega) _
  have hfront : (table[r] :: table.eraseIdx r).take n = table[r] :: (table.take n).eraseIdx r := by
    rw [herase, ← List.cons_append]
    refine List.take_left' ?_
    rw [List.length_cons, List.length_eraseIdx_of_lt (by omega)]
    omega
  rw [hmove]
  refine ⟨table[r], by rw [hget]; exact List.getElem_mem _, rfl, ?_⟩
  rw [hfront, hget]
  exact List.getElem_cons_eraseIdx_perm _

/-- A table's entry set, or appended as its next one. -/
theorem tableSet_getElem? {table : List Nat} {i : Nat} (v : Nat) (hi : i ≤ table.length) (k : Nat) :
    (tableSet table i v)[k]? = if k = i then some v else table[k]? := by
  unfold tableSet
  split
  · rw [List.getElem?_set]
    by_cases h : k = i
    · subst h; simp [*]
    · simp [h, Ne.symm h]
  · obtain rfl : i = table.length := by omega
    by_cases h : k = table.length
    · simp [h]
    · rw [if_neg h, List.getElem?_append]
      split
      · rfl
      · rw [List.getElem?_eq_none (by simp; omega), List.getElem?_eq_none (by omega)]

theorem tableGet_of_getElem? {table : List Nat} {i v : Nat} (h : table[i]? = some v) : tableGet table i = v := by
  rw [tableGet, List.getD_eq_getElem?_getD, h]
  rfl

/-- A table all of whose first `n` entries are there has `n` entries. -/
theorem le_length_of_forall_getElem? {α : Type} {table : List α} {n : Nat} {p : α → Prop}
    (h : ∀ k < n, ∃ v, table[k]? = some v ∧ p v) : n ≤ table.length := by
  by_contra hlt
  obtain ⟨v, hv, -⟩ := h table.length (by omega)
  rw [List.getElem?_eq_none (le_refl _)] at hv
  cases hv

theorem State.goto_self {p : Position} {s : State} (h : s.seq.pos = p) : s.goto p = s := by
  subst h
  rfl

/-- BuildTree faults, or stores the tables of accepted lengths (41_huffman.md R160, R163, R182). -/
theorem buildTree_accepted (s : State) :
    (∃ k, buildTree s = raiseFault k s) ∨
      (AcceptedLengths (treeLengths s s.seq.treeIdx) ∧ buildTree s = { s with
        tab := { s.tab with trees := s.tab.trees.set s.seq.treeIdx (buildTables (treeLengths s s.seq.treeIdx)) }
        seq := { s.seq with
          treeIdx := s.seq.treeIdx + 1
          pos := if s.seq.treeIdx + 1 < s.tab.numTrees then .build else .startSymbols } }) := by
  unfold buildTree
  dsimp only
  split
  · exact .inl ⟨_, rfl⟩
  · rename_i hany
    split
    · exact .inl ⟨_, rfl⟩
    · rename_i hkraft
      refine .inr ⟨⟨fun l hl => ?_, not_lt.1 hkraft⟩, rfl⟩
      have hl' : ¬ lengthOutOfRange l = true := fun h => hany (List.any_eq_true.2 ⟨l, hl, h⟩)
      rw [lengthOutOfRange_iff] at hl'
      omega

/-- After a symbol's length the lists go on, or BuildTree starts at tree 0 (41_huffman.md R176, R182). -/
theorem afterLength_cases (s : State) :
    (∃ q : Sequencer, q.selIdx = s.seq.selIdx ∧ (q.pos = .lCode ∨ q.pos = .lBase) ∧ afterLength s = { s with seq := q }) ∨
      afterLength s = { s with seq := { s.seq with treeIdx := 0, pos := .build } } := by
  unfold afterLength
  split
  · exact .inl ⟨{ s.seq with symIdx := s.seq.symIdx + 1, pos := .lCode }, rfl, .inl rfl, rfl⟩
  · split
    · exact .inl ⟨{ s.seq with treeIdx := s.seq.treeIdx + 1, pos := .lBase }, rfl, .inr rfl, rfl⟩
    · exact .inr rfl

/-- A stored length leaves the shape of `LEN`: six lists of 258 (10_state.md R51). -/
theorem setLen_shape {len : List (List Nat)} (h6 : len.length = 6) (h258 : ∀ l ∈ len, l.length = 258) (t sym cur : Nat) :
    (setLen len t sym cur).length = 6 ∧ ∀ l ∈ setLen len t sym cur, l.length = 258 := by
  refine ⟨by simp [setLen, h6], fun l hl => ?_⟩
  by_cases ht : t < len.length
  · rcases List.mem_or_eq_of_mem_set hl with hl | rfl
    · exact h258 l hl
    · rw [List.length_set, List.getD_eq_getElem _ _ ht]
      exact h258 _ (List.getElem_mem ht)
  · rw [setLen, List.set_eq_of_length_le (by omega)] at hl
    exact h258 l hl

/-- Tree `t` holds the tables of accepted lengths of the whole alphabet (41_huffman.md R160). -/
def TreeBuilt (tab : Tables) (t : Nat) : Prop :=
  ∃ lens, AcceptedLengths lens ∧ lens.length = tab.alpha ∧ tab.trees[t]? = some (buildTables lens)

/-- The tables once every selector is read: what `TablesInv` says from the length codes on. -/
structure SelectorsRead (s : State) : Prop where
  shape : s.tab.len.length = 6 ∧ (∀ l ∈ s.tab.len, l.length = 258) ∧ s.tab.trees.length = 6
  inUse : s.tab.numInUse = s.tab.inUseList.length ∧ s.tab.numInUse ≤ 256
  alpha : s.tab.alpha = s.tab.numInUse + 2
  numTrees : 2 ≤ s.tab.numTrees ∧ s.tab.numTrees ≤ 6
  selMtf : (s.tab.selMtf.take s.tab.numTrees).Perm (List.range s.tab.numTrees)
  selector : ∀ k < s.seq.selIdx, ∃ v, s.tab.selector[k]? = some v ∧ v < s.tab.numTrees
  selectorsRead : s.tab.numSel ≤ s.seq.selIdx

namespace SelectorsRead

variable {s : State}

/-- `TablesInv` from the length codes on: besides the tables read, it speaks of the trees and of the symbol registers. -/
theorem inv (h : SelectorsRead s) (building : s.seq.pos = .build → s.seq.treeIdx < s.tab.numTrees)
    (trees : 5 ≤ s.seq.pos.setupRank → ∀ t < (if s.seq.pos = .build then s.seq.treeIdx else s.tab.numTrees),
      TreeBuilt s.tab t)
    (mtf : s.seq.pos = .symbol → (s.sym.mtf.take s.tab.numInUse).Perm s.tab.inUseList)
    (group : s.seq.pos = .symbol → -1 ≤ s.sym.groupIdx ∧ (s.sym.groupIdx = -1 → s.sym.groupLeft = 0) ∧
      (0 ≤ s.sym.groupIdx → s.sym.groupIdx < s.tab.numSel ∧
        s.tab.selector[s.sym.groupIdx.toNat]? = some s.sym.curTree)) : TablesInv s where
  shape := h.shape
  inUse := h.inUse
  alpha _ := h.alpha
  numTrees _ := h.numTrees
  selMtf _ := h.selMtf
  selector _ := h.selector
  selectorsRead _ := h.selectorsRead
  building := building
  trees := trees
  mtf := mtf
  group := group

/-- Before a length code nothing more is asked of the tables. -/
theorem atLengths (h : SelectorsRead s) (hr : s.seq.pos.setupRank = 4) : TablesInv s := by
  have hb : s.seq.pos ≠ .build := by intro hp; rw [hp] at hr; cases hr
  have hs : s.seq.pos ≠ .symbol := by intro hp; rw [hp] at hr; cases hr
  exact h.inv (absurd · hb) (by omega) (absurd · hs) (absurd · hs)

/-- Before BuildTree the trees up to `treeIdx` are built. -/
theorem atBuild (h : SelectorsRead s) (hp : s.seq.pos = .build) (ht : s.seq.treeIdx < s.tab.numTrees)
    (hb : ∀ t < s.seq.treeIdx, TreeBuilt s.tab t) : TablesInv s := by
  have hs : s.seq.pos ≠ .symbol := by rw [hp]; decide
  exact h.inv (fun _ => ht) (fun _ => by rwa [if_pos hp]) (absurd · hs) (absurd · hs)

/-- Before the symbols every tree is built. -/
theorem atStart (h : SelectorsRead s) (hp : s.seq.pos = .startSymbols) (hb : ∀ t < s.tab.numTrees, TreeBuilt s.tab t) :
    TablesInv s := by
  have hne : s.seq.pos ≠ .build := by rw [hp]; decide
  have hs : s.seq.pos ≠ .symbol := by rw [hp]; decide
  exact h.inv (absurd · hne) (fun _ => by rwa [if_neg hne]) (absurd · hs) (absurd · hs)

end SelectorsRead

namespace TablesInv

variable {s t : State}

/-- Before the length codes the tables are asked for in the order in which they are read: `r` of them are there. -/
theorem beforeLengths {r : Nat} (hr : s.seq.pos.setupRank = r) (h3 : r ≤ 3)
    (hs : s.tab.len.length = 6 ∧ (∀ l ∈ s.tab.len, l.length = 258) ∧ s.tab.trees.length = 6)
    (hu : s.tab.numInUse = s.tab.inUseList.length ∧ s.tab.numInUse ≤ 256)
    (alpha : 1 ≤ r → s.tab.alpha = s.tab.numInUse + 2)
    (numTrees : 2 ≤ r → 2 ≤ s.tab.numTrees ∧ s.tab.numTrees ≤ 6)
    (selMtf : 3 ≤ r → (s.tab.selMtf.take s.tab.numTrees).Perm (List.range s.tab.numTrees))
    (selector : 3 ≤ r → ∀ k < s.seq.selIdx, ∃ v, s.tab.selector[k]? = some v ∧ v < s.tab.numTrees) : TablesInv s where
  shape := hs
  inUse := hu
  alpha := hr ▸ alpha
  numTrees := hr ▸ numTrees
  selMtf := hr ▸ selMtf
  selector := hr ▸ selector
  selectorsRead h := by omega
  building hp := by subst hr; rw [hp] at h3; exact absurd h3 (by decide)
  trees h := by omega
  mtf hp := by subst hr; rw [hp] at h3; exact absurd h3 (by decide)
  group hp := by subst hr; rw [hp] at h3; exact absurd h3 (by decide)

/-- Outside the set-up only the shape and the in-use count are asked for. -/
theorem outside (hs : t.tab.len.length = 6 ∧ (∀ l ∈ t.tab.len, l.length = 258) ∧ t.tab.trees.length = 6)
    (hu : t.tab.numInUse = t.tab.inUseList.length ∧ t.tab.numInUse ≤ 256) (hr : t.seq.pos.setupRank = 0) :
    TablesInv t :=
  beforeLengths hr (by decide) hs hu (absurd · (by decide)) (absurd · (by decide)) (absurd · (by decide))
    (absurd · (by decide))

theorem keeps (hi : TablesInv s) (hk : KeepsBlock s t) : TablesInv t :=
  outside (hk.tab ▸ hi.shape) (hk.tab ▸ hi.inUse) hk.outside

theorem raise (hi : TablesInv s) (k : FaultKind) : TablesInv (raiseFault k s) := hi.keeps (raiseFault_keepsBlock k s)

theorem consume (hi : TablesInv s) (i : Instr) : TablesInv (s.consume i) := { hi with }

theorem read (hi : TablesInv s) (hr : 4 ≤ s.seq.pos.setupRank) : SelectorsRead s where
  shape := hi.shape
  inUse := hi.inUse
  alpha := hi.alpha (by omega)
  numTrees := hi.numTrees (by omega)
  selMtf := hi.selMtf (by omega)
  selector := hi.selector (by omega)
  selectorsRead := hi.selectorsRead hr

theorem resetTo (source : Source) (owns : Bool) (host : HostPort) (k : Nat) :
    TablesInv (State.resetTo source owns host k) := by
  refine outside ⟨List.length_replicate, fun l hl => ?_, List.length_replicate⟩ ⟨rfl, Nat.zero_le _⟩ rfl
  rw [List.eq_of_mem_replicate hl, List.length_replicate]

/-- INUSE gives the alphabet (10_state.md R46, R47). -/
theorem inUse_step {g : BitVec 16} {fields : List (BitVec 16)} (hi : TablesInv s) (hx : execInUse g fields s = .next t) :
    TablesInv t := by
  have hlen := inUseList_length_le g fields
  rcases execInUse_cases hx with rfl | rfl
  · exact outside hi.shape ⟨rfl, hlen⟩ rfl
  · exact beforeLengths (r := 1) rfl (by decide) hi.shape ⟨rfl, hlen⟩ (fun _ => rfl) (absurd · (by decide))
      (absurd · (by decide)) (absurd · (by decide))

/-- NTREES gives 2 to 6 trees (10_state.md R48). -/
theorem nTrees_step {n : BitVec 3} (hi : TablesInv s) (hp : s.seq.pos = .nTrees) (hx : execNTrees n s = .next t) :
    TablesInv t := by
  rcases execNTrees_cases hx with rfl | ⟨h2, h6, rfl⟩
  · exact (hi.consume _).raise _
  · exact beforeLengths (r := 2) rfl (by decide) hi.shape hi.inUse (fun _ => hi.alpha (by rw [hp]; decide))
      (fun _ => ⟨h2, h6⟩) (absurd · (by decide)) (absurd · (by decide))

/-- The SEL codes go on, or with all of them read the length codes start (41_huffman.md R173, R175). -/
theorem nextSelector (hi : TablesInv (s.goto .sel)) : TablesInv (nextSelector s) := by
  rcases nextSelector_cases s with ⟨-, e⟩ | ⟨hle, e⟩ <;> rw [e]
  · exact hi
  · have hr : SelectorsRead s := {
      shape := hi.shape
      inUse := hi.inUse
      alpha := hi.alpha (by rw [State.goto_seq_pos]; decide)
      numTrees := hi.numTrees (by rw [State.goto_seq_pos]; decide)
      selMtf := hi.selMtf (by rw [State.goto_seq_pos]; decide)
      selector := hi.selector (by rw [State.goto_seq_pos]; decide)
      selectorsRead := hle }
    exact SelectorsRead.atLengths { hr with } rfl

/-- NSEL seeds `SEL_MTF` with the identity (10_state.md R50). -/
theorem nSel_step {n : BitVec 15} (hi : TablesInv s) (hp : s.seq.pos = .nSel) (hx : execNSel n s = .next t) :
    TablesInv t := by
  rcases execNSel_cases hx with rfl | rfl
  · exact (hi.consume _).raise _
  · refine nextSelector (beforeLengths (r := 3) rfl (by decide) hi.shape hi.inUse (fun _ => hi.alpha (by rw [hp]; decide))
      (fun _ => hi.numTrees (by rw [hp]; decide)) (fun _ => ?_) fun _ => nofun)
    show (List.take s.tab.numTrees (seedSelMtf s.tab.numTrees s.tab.selMtf)).Perm (List.range s.tab.numTrees)
    rw [seedSelMtf, List.take_left' List.length_range]

/-- SEL moves an entry of `SEL_MTF` to the front and appends it as the next selector (41_huffman.md R173). -/
theorem sel_step {j : Nat} (hi : TablesInv s) (hp : s.seq.pos = .sel) (hj : 0 < s.tab.numTrees → j < s.tab.numTrees)
    (hx : execSel j s = .next t) : TablesInv t := by
  have hn := hi.numTrees (by rw [hp]; decide)
  have hperm := hi.selMtf (by rw [hp]; decide)
  have hsel := hi.selector (by rw [hp]; decide)
  have hlen : s.tab.numTrees ≤ s.tab.selMtf.length := by
    have := hperm.length_eq
    rw [List.length_take, List.length_range] at this
    omega
  obtain ⟨v, hv, hget, hmove⟩ := getAndMove_take (hj (by omega)) hlen
  cases hx
  refine nextSelector (beforeLengths (r := 3) rfl (by decide) hi.shape hi.inUse (fun _ => hi.alpha (by rw [hp]; decide))
    (fun _ => hn) (fun _ => hmove.trans hperm) fun _ k hk => ?_)
  have hle := le_length_of_forall_getElem? hsel
  show ∃ w, (tableSet s.tab.selector s.seq.selIdx ((getAndMove s.tab.selMtf j).1.getD 0))[k]? = some w ∧ w < s.tab.numTrees
  rw [hget, tableSet_getElem? _ hle]
  split
  · exact ⟨v, rfl, List.mem_range.1 (hperm.mem_iff.1 hv)⟩
  · exact hsel k (by have : k < s.seq.selIdx + 1 := hk; omega)

/-- A step inside the length codes changes `cur`, `s` and `t` alone. -/
theorem lengths_step (hi : TablesInv s) (hr : s.seq.pos.setupRank = 4) (q : Sequencer) (hq : q.selIdx = s.seq.selIdx)
    (hq4 : q.pos.setupRank = 4) : TablesInv { s with seq := q } := by
  have h := hi.read hr.ge
  exact SelectorsRead.atLengths { h with
    selector := fun k (hk : k < q.selIdx) => h.selector k (hq ▸ hk)
    selectorsRead := h.selectorsRead.trans hq.ge } hq4

theorem afterLength (hi : TablesInv s) (hr : s.seq.pos.setupRank = 4) : TablesInv (afterLength s) := by
  have h := hi.read hr.ge
  have hpos : 0 < s.tab.numTrees := by have := h.numTrees; omega
  rcases afterLength_cases s with ⟨q, hq, hp, e⟩ | e <;> rw [e]
  · exact hi.lengths_step hr q hq (by rcases hp with hp | hp <;> rw [hp] <;> rfl)
  · exact SelectorsRead.atBuild { h with } rfl hpos nofun

theorem lEnd_step (hi : TablesInv s) (hp : s.seq.pos = .lCode) (hx : execLEnd s = .next t) : TablesInv t := by
  obtain ⟨h6, h258, htrees⟩ := hi.shape
  obtain ⟨h6', h258'⟩ := setLen_shape h6 h258 s.seq.treeIdx s.seq.symIdx s.seq.cur
  have hr : s.seq.pos.setupRank = 4 := by rw [hp]; rfl
  cases hx
  exact afterLength (s := { s.consume .lEnd with tab := { s.tab with
    len := setLen s.tab.len s.seq.treeIdx s.seq.symIdx s.seq.cur } }) { hi with shape := ⟨h6', h258', htrees⟩ } hr

/-- BuildTree adds the tables of one tree's lengths (41_huffman.md R160, R182). -/
theorem build_step (hi : TablesInv s) (hp : s.seq.pos = .build) : TablesInv (buildTree s) := by
  rcases buildTree_accepted s with ⟨k, e⟩ | ⟨hacc, e⟩ <;> rw [e]
  · exact hi.raise k
  have h := hi.read (by rw [hp]; decide)
  have htree := hi.building hp
  have hbuilt := hi.trees (by rw [hp]; decide)
  rw [if_pos hp] at hbuilt
  obtain ⟨h6, h258, htrees⟩ := h.shape
  obtain ⟨-, hn6⟩ := h.numTrees
  have hlens : (treeLengths s s.seq.treeIdx).length = s.tab.alpha := by
    have hlt : s.seq.treeIdx < s.tab.len.length := by omega
    have h1 := h258 _ (List.getElem_mem hlt)
    have h2 := h.alpha
    have h3 := h.inUse.2
    rw [treeLengths, List.getD_eq_getElem _ _ hlt, List.length_take]
    omega
  have hb : ∀ t < s.seq.treeIdx + 1, TreeBuilt
      { s.tab with trees := s.tab.trees.set s.seq.treeIdx (buildTables (treeLengths s s.seq.treeIdx)) } t := by
    intro t ht
    by_cases heq : t = s.seq.treeIdx
    · subst heq
      exact ⟨_, hacc, hlens, List.getElem?_set_self (by omega)⟩
    · obtain ⟨lens, h1, h2, h3⟩ := hbuilt t (by omega)
      exact ⟨lens, h1, h2, (List.getElem?_set_ne (Ne.symm heq)).trans h3⟩
  have hlen6 : (s.tab.trees.set s.seq.treeIdx (buildTables (treeLengths s s.seq.treeIdx))).length = 6 := by
    rw [List.length_set, htrees]
  split
  · rename_i hlt
    exact SelectorsRead.atBuild { h with shape := ⟨h6, h258, hlen6⟩ } rfl hlt hb
  · rename_i hge
    exact SelectorsRead.atStart { h with shape := ⟨h6, h258, hlen6⟩ } rfl fun t ht => hb t (by
      have : t < s.tab.numTrees := ht
      omega)

/-- At the start of the symbols `MTF` begins with the values in use, and no group is current (42_mtf_symbols.md R191, R195). -/
theorem startSymbols_step (hi : TablesInv s) (hp : s.seq.pos = .startSymbols) : TablesInv (startSymbols s) := by
  have h := hi.read (by rw [hp]; decide)
  have hb := hi.trees (by rw [hp]; decide)
  rw [if_neg (by simp [hp])] at hb
  refine SelectorsRead.inv { h with } nofun (fun _ => hb) (fun _ => ?_) fun _ => ⟨le_refl _, fun _ => rfl, fun h0 => ?_⟩
  · show (List.take s.tab.numInUse (seedMtf s.tab.inUseList s.sym.mtf)).Perm s.tab.inUseList
    rw [seedMtf, List.take_left' h.inUse.1.symm]
  · exact absurd (show (0 : Int) ≤ -1 from h0) (by decide)

/-- A symbol slot leaves `CUR_TREE` at the tree the current selector names (41_huffman.md R180). -/
theorem takeSlot (hi : TablesInv s) (hp : s.seq.pos = .symbol) (hu : selectorsUsedUp s = false) :
    TablesInv (takeSymbolSlot s) := by
  have h := hi.read (by rw [hp]; decide)
  obtain ⟨hlo, hnone, hcur⟩ := hi.group hp
  rw [← Bool.not_eq_true, selectorsUsedUp_iff] at hu
  rcases takeSymbolSlot_cases s with ⟨h0, e⟩ | ⟨h0, e⟩ <;> rw [e]
  · have hlt : s.sym.groupIdx + 1 < s.tab.numSel := by omega
    have hread := h.selectorsRead
    obtain ⟨v, hv, -⟩ := h.selector (s.sym.groupIdx + 1).toNat (by omega)
    have hentry : s.tab.selector[(s.sym.groupIdx + 1).toNat]? =
        some (tableGet s.tab.selector (s.sym.groupIdx + 1).toNat) := by rw [tableGet_of_getElem? hv, hv]
    refine { hi with group := fun _ => ⟨?_, fun hm => ?_, fun _ => ⟨hlt, hentry⟩⟩ }
    · show -1 ≤ s.sym.groupIdx + 1
      omega
    · have : s.sym.groupIdx + 1 = -1 := hm
      omega
  · exact { hi with group := fun _ => ⟨hlo, fun hm => absurd (hnone hm) h0, hcur⟩ }

/-- A run digit touches no table. -/
theorem runSymbol_step (hi : TablesInv s) (hp : s.seq.pos = .symbol) (v : Nat) : TablesInv (runSymbol v s) := by
  unfold runSymbol
  dsimp only
  split
  · exact outside hi.shape hi.inUse rfl
  · rw [State.goto_self]
    · exact { hi with }
    · exact hp

/-- A flush touches no table. -/
theorem flush_step (hi : TablesInv s) (h : flushRun s = .ok t) : TablesInv t := by
  obtain ⟨_, rfl, -⟩ := flushRun_ok h
  exact { hi with }

/-- An MTF symbol of the alphabet permutes the values in use (42_mtf_symbols.md R199). -/
theorem mtfSymbol_step {v : Nat} (hi : TablesInv s) (hp : s.seq.pos = .symbol) (hlo : 2 ≤ v) (hv : v ≤ s.tab.numInUse)
    (h : mtfSymbol v s = .ok t) : TablesInv t := by
  rcases mtfSymbol_ok h with ⟨-, rfl⟩ | ⟨-, -, rfl⟩
  · exact hi.raise _
  · have hmtf := hi.mtf hp
    have hlen : s.tab.numInUse ≤ s.sym.mtf.length := by
      have := hmtf.length_eq
      rw [List.length_take, ← hi.inUse.1] at this
      omega
    have hrank : mtfRank v < s.tab.numInUse := by
      unfold mtfRank
      omega
    obtain ⟨b, -, -, hmove⟩ := getAndMove_take hrank hlen
    show TablesInv (State.goto .symbol { s with
      mem := { s.mem with buf := cellWrite s.mem.buf s.sym.n ((getAndMove s.sym.mtf (mtfRank v)).1.getD 0) }
      sym := { s.sym with mtf := (getAndMove s.sym.mtf (mtfRank v)).2, n := s.sym.n + 1 } })
    rw [State.goto_self]
    · exact { hi with mtf := fun _ => hmove.trans hmtf }
    · exact hp

theorem symbol_step {i : Instr} (hi : TablesInv s) (hp : s.seq.pos = .symbol) (he : SymbolElement s.tab.numInUse i)
    (hx : exec i s = .next t) : TablesInv t := by
  cases he with
  | runA code => cases hx; exact (hi.consume (.runA code)).runSymbol_step hp 0
  | runB code => cases hx; exact (hi.consume (.runB code)).runSymbol_step hp 1
  | mtf v code hlo hv =>
    obtain ⟨u, hu, ht⟩ := bind_ok (outcomeOf_next.1 hx)
    have hiu := (hi.consume _).flush_step hu
    obtain ⟨_, rfl, -⟩ := flushRun_ok hu
    exact hiu.mtfSymbol_step hp hlo hv ht
  | eob code =>
    obtain ⟨u, hu, ht⟩ := bind_ok (outcomeOf_next.1 hx)
    cases ht
    exact ((hi.consume _).flush_step hu).keeps (goto_keepsBlock rfl u)
  | invalidSym v code =>
    obtain ⟨u, hu, ht⟩ := bind_ok (outcomeOf_next.1 hx)
    cases ht
    exact ((hi.consume _).flush_step hu).raise _
  | huffNoMatch bits => cases hx; exact (hi.consume _).raise _

theorem blockTo (hi : TablesInv s) (h : BlockTo s t) : TablesInv t := by
  cases h with
  | keeps hk => exact hi.keeps hk
  | reader r => exact { hi with }
  | reset source owns host k => exact resetTo source owns host k
  | hdr d _ hx => cases hx; exact outside hi.shape hi.inUse rfl
  | inUse g fields _ hx => exact hi.inUse_step hx
  | nTrees n hp hx => exact hi.nTrees_step hp hx
  | nSel n hp hx => exact hi.nSel_step hp hx
  | sel j hp hj hx => exact hi.sel_step hp hj hx
  | lBase l hp hx => cases hx; exact (hi.consume (.lBase l)).lengths_step (by simp [hp, Position.setupRank]) _ rfl rfl
  | lEnd hp hx => exact hi.lEnd_step hp hx
  | lInc hp hx =>
    have hr : s.seq.pos.setupRank = 4 := by rw [hp]; rfl
    cases hx
    exact (hi.consume .lInc).lengths_step hr _ rfl hr
  | lDec hp hx =>
    have hr : s.seq.pos.setupRank = 4 := by rw [hp]; rfl
    cases hx
    exact (hi.consume .lDec).lengths_step hr _ rfl hr
  | build hp => exact hi.build_step hp
  | startSymbols hp => exact hi.startSymbols_step hp
  | usedUp _ hu =>
    unfold nextGroup
    rw [if_pos (selectorsUsedUp_iff.1 hu).1]
    exact outside hi.shape hi.inUse rfl
  | symbol hp hu he hx =>
    rw [← takeSymbolSlot_tab s] at he
    exact (hi.takeSlot hp hu).symbol_step (by rw [takeSymbolSlot_seq]; exact hp) he hx

end TablesInv

/-- Settles O53: `BlockTo` lists what a step can do to the tables, and each way keeps what they say. -/
theorem tablesInvKept : Obligations.TablesInvKept := fun _ _ hi h => hi.blockTo (blockTo_of_step h)

end Sys2Proof.Machine
end

section
/-! PROOF. What a step does to the three memories (20_memory.md R97, R99): each is written by its own stage, the header and
CLOSE allocate and release them, and every write keeps the canonical form. -/

namespace Sys2Proof.Machine

/-- READ is answered by one of its checks, or starts in an engine neither closed nor in FAULTED nor in DONE
(47_stream_control.md R284). -/
theorem execRead_cases {count : Nat} {s t : State} (h : execRead count s = .next t) :
    (∃ r, t = s.respond r) ∨
      (s.ctrl.closed = false ∧ s.ctrl.phase ≠ .faulted ∧ s.ctrl.phase ≠ .done ∧ t = startRead count s) := by
  unfold execRead at h
  split at h
  · cases h; exact .inl ⟨_, rfl⟩
  rename_i hclosed
  split at h
  · cases h; exact .inl ⟨_, rfl⟩
  split at h
  · cases h; exact .inl ⟨_, rfl⟩
  rename_i hfaulted
  split at h <;> rename_i hdone <;> cases h
  · exact .inl ⟨_, rfl⟩
  · exact .inr ⟨Bool.eq_false_iff.2 hclosed, hfaulted, hdone, rfl⟩

/-- Everything a host command can do (47_stream_control.md R287, R298 to R302): an answer without another effect, a READ
that starts, CLOSE, or RESET. -/
theorem exec_command_inv {c : HostCmd} {i : Instr} {s t : State} (hd : decodeCommand c = some i) (hx : exec i s = .next t) :
    (∃ r, t = s.respond r) ∨
      (s.ctrl.closed = false ∧ s.ctrl.phase ≠ .faulted ∧ s.ctrl.phase ≠ .done ∧ ∃ count, t = startRead count s) ∨
      (∃ released, t = State.respond .ok { s with
        mem := ⟨false, [], [], []⟩
        ctrl := { s.ctrl with closed := true, sourceReleased := released } }) ∨
      ∃ source owns, t = (s.resetWith source owns).respond .ok := by
  cases c <;> cases hd
  case reset source owns => cases hx; exact .inr (.inr (.inr ⟨source, owns, rfl⟩))
  case read count =>
    rcases execRead_cases hx with hr | ⟨hclosed, hfaulted, hdone, e⟩
    · exact .inl hr
    · exact .inr (.inl ⟨hclosed, hfaulted, hdone, count, e⟩)
  case close =>
    simp only [exec, execClose] at hx
    split at hx <;> cases hx
    · exact .inl ⟨_, rfl⟩
    · exact .inr (.inr (.inl ⟨_, rfl⟩))
  case getCaps =>
    simp only [exec, execGetCaps] at hx
    split at hx <;> cases hx <;> exact .inl ⟨_, rfl⟩
  all_goals cases hx; exact .inl ⟨_, rfl⟩

/-- The end marker faults, or ends NextMarker in DONE (47_stream_control.md R293). -/
theorem execEos_cases {scrc : Word} {s t : State} (h : execEos scrc s = .next t) :
    t = raiseFault .streamCrcMismatch (s.consume (.eos scrc)) ∨
      t = afterMarker ((s.consume (.eos scrc)).setPhase .done) := by
  unfold execEos at h
  dsimp only at h
  split at h <;> cases h
  · exact .inl rfl
  · exact .inr rfl

/-- What a step from `s` can leave in the memories. -/
inductive MemTo (s : State) : Memories → Prop
  | keeps : MemTo s s.mem
  | released (hp : s.seq.pos = .idle) : MemTo s ⟨false, [], [], []⟩
  | fresh (hp : s.seq.pos = .header) : MemTo s ⟨true, [], [], []⟩
  | symbols {buf : List Host.Cell} (hp : s.seq.pos = .symbol) (hb : Memory.wf s.mem.buf → Memory.wf buf) :
      MemTo s { s.mem with buf := buf }
  | inverted {tt : List (Nat × Nat)} {recon : List Host.Cell} (hp : s.seq.pos = .invBwt)
      (ht : Memory.wf s.mem.tt → Memory.wf tt) (hr : Memory.wf s.mem.recon → Memory.wf recon) :
      MemTo s { s.mem with tt := tt, recon := recon }
  | flipped {recon : List Host.Cell} (hp : s.seq.pos = .derand) (hr : Memory.wf s.mem.recon → Memory.wf recon) :
      MemTo s { s.mem with recon := recon }

theorem MemTo.of_eq {s : State} {m : Memories} (h : m = s.mem) : MemTo s m := h ▸ .keeps

theorem nextSelector_mem (s : State) : (nextSelector s).mem = s.mem := by
  rcases nextSelector_cases s with ⟨-, e⟩ | ⟨-, e⟩ <;> simp [e]

theorem afterLength_mem (s : State) : (afterLength s).mem = s.mem := by
  obtain ⟨_, _, _, -, e⟩ := afterLength_eq s
  rw [e]

theorem afterMarker_mem (s : State) : (afterMarker s).mem = s.mem := by
  rcases afterMarker_cases s with ⟨-, e⟩ | ⟨-, -, e⟩ | ⟨-, -, e⟩ <;> rw [e] <;> rfl

theorem buildTree_mem (s : State) : (buildTree s).mem = s.mem := by
  rcases buildTree_cases s with e | e | ⟨_, -, e⟩ <;> rw [e] <;> rfl

theorem nextGroup_mem (s : State) : (nextGroup s).mem = s.mem := by
  unfold nextGroup
  split <;> rfl

@[simp] theorem takeSymbolSlot_mem (s : State) : (takeSymbolSlot s).mem = s.mem := by
  obtain ⟨_, _, _, e⟩ := takeSymbolSlot_eq s
  rw [e]

theorem returnByte_mem (b : Byte) (s : State) : (returnByte b s).mem = s.mem := by
  rcases returnByte_cases b s with ⟨-, e⟩ | ⟨-, e⟩ <;> rw [e]

theorem finishPrepass_mem (s : State) : (finishPrepass s).mem = s.mem := by
  rcases finishPrepass_cases s with ⟨-, e⟩ | ⟨-, e⟩ <;> rw [e]
  · rfl
  · exact afterMarker_mem _

theorem releaseDone_mem (s : State) : (releaseDone s).mem = s.mem := by
  rcases releaseDone_cases s with ⟨-, e⟩ | ⟨-, e⟩ <;> (rw [e]; rfl)

theorem awaitSource_mem (s : State) : s.awaitSource.mem = s.mem := by
  rcases awaitSource_cases s with ⟨-, e⟩ | ⟨_, _, -, e⟩ <;> rw [e]

theorem runSymbol_mem (v : Nat) (s : State) : (runSymbol v s).mem = s.mem := by
  unfold runSymbol
  dsimp only
  split <;> rfl

/-- The inverse BWT writes `TT` and `RECON` (43_inverse_bwt.md R223, R224). -/
theorem inverseBwt_memTo {s t : State} (hp : s.seq.pos = .invBwt) (h : inverseBwt s = .ok t) : MemTo s t.mem := by
  unfold inverseBwt at h
  split at h
  · cases h
    exact .keeps
  · obtain ⟨_, _, _, _, _, _, -, htt, -, hrecon, rfl⟩ := invertBlock_ok h
    exact .inverted hp (pointerLoop_wf htt) (chainWalk_ok hrecon).1

/-- The derandomiser writes `RECON` (44_derandomizer.md R235). -/
theorem derandomise_memTo {s t : State} (hp : s.seq.pos = .derand) (h : derandomise s = .ok t) : MemTo s t.mem := by
  rcases derandomise_ok h with ⟨-, rfl⟩ | ⟨-, _, _, hd, rfl⟩
  · exact .keeps
  · exact .flipped hp (derandLoop_ok hd).1

theorem StageTo.memTo {s t : State} (h : StageTo s t) : MemTo s t.mem := by
  cases h with
  | noCommand => exact .keeps
  | unknownCommand => exact .keeps
  | badLength => exact .keeps
  | build => exact .of_eq (buildTree_mem s)
  | startSymbols => exact .keeps
  | usedUp => exact .of_eq (nextGroup_mem s)
  | invBwt hp h => exact inverseBwt_memTo hp h
  | derand hp h => exact derandomise_memTo hp h
  | prepassStart => exact .keeps
  | owedCopy => exact .of_eq (returnByte_mem _ _)
  | finishPrepass => exact .of_eq (finishPrepass_mem s)
  | releaseDone => exact .of_eq (releaseDone_mem s)

/-- A symbol writes `BUF` alone (42_mtf_symbols.md R197, R199). -/
theorem symbolElement_mem {n : Nat} {i : Instr} {s t : State} (hi : SymbolElement n i) (hx : exec i s = .next t) :
    ∃ buf, t.mem = { s.mem with buf := buf } ∧ (Memory.wf s.mem.buf → Memory.wf buf) := by
  cases hi with
  | runA code => cases hx; exact ⟨_, runSymbol_mem 0 _, id⟩
  | runB code => cases hx; exact ⟨_, runSymbol_mem 1 _, id⟩
  | mtf v code =>
    obtain ⟨u, hu, ht⟩ := bind_ok (outcomeOf_next.1 hx)
    obtain ⟨buf, rfl, hw, -⟩ := flushRun_ok hu
    rcases mtfSymbol_ok ht with ⟨-, rfl⟩ | ⟨-, -, rfl⟩
    · exact ⟨buf, rfl, hw⟩
    · exact ⟨_, rfl, fun h => wf_cellWrite (hw h) _ _⟩
  | eob code =>
    obtain ⟨u, hu, ht⟩ := bind_ok (outcomeOf_next.1 hx)
    obtain ⟨buf, rfl, hw, -⟩ := flushRun_ok hu
    cases ht
    exact ⟨buf, rfl, hw⟩
  | invalidSym v code =>
    obtain ⟨u, hu, ht⟩ := bind_ok (outcomeOf_next.1 hx)
    obtain ⟨buf, rfl, hw, -⟩ := flushRun_ok hu
    cases ht
    exact ⟨buf, rfl, hw⟩
  | huffNoMatch bits => cases hx; exact ⟨_, rfl, id⟩

theorem ElementAt.memTo {s t u : State} {i : Instr} (h : ElementAt s i u) (hx : exec i u = .next t) : MemTo s t.mem := by
  cases h with
  | hdr d hp => cases hx; exact .fresh hp
  | hdrBadMagic => cases hx; exact .keeps
  | hdrBadSize => cases hx; exact .keeps
  | blk => rw [← Host.Outcome.next.inj hx]; exact .of_eq (by simp)
  | eos scrc =>
    rcases execEos_cases hx with rfl | rfl
    · exact .keeps
    · exact .of_eq (afterMarker_mem _)
  | badMark => cases hx; exact .keeps
  | inUse => rcases execInUse_cases hx with rfl | rfl <;> exact .keeps
  | nTrees => rcases execNTrees_cases hx with rfl | ⟨-, -, rfl⟩ <;> exact .keeps
  | nSel =>
    rcases execNSel_cases hx with rfl | rfl
    · exact .keeps
    · exact .of_eq (nextSelector_mem _)
  | sel => cases hx; exact .of_eq (nextSelector_mem _)
  | selOverrun => cases hx; exact .keeps
  | lBase => cases hx; exact .keeps
  | lEnd => cases hx; exact .of_eq (afterLength_mem _)
  | lInc => cases hx; exact .keeps
  | lDec => cases hx; exact .keeps
  | symbol hp _ hi =>
    obtain ⟨buf, e, hw⟩ := symbolElement_mem hi hx
    rw [takeSymbolSlot_mem] at e hw
    exact e ▸ .symbols hp hw

/-- The byte classes of `RECON` read the memories only (46_output_rle.md R266). -/
theorem reconElement_mem {run : Nat} {i : Instr} {s t : State} (hi : ReconElement run i) (hx : exec i s = .next t) :
    t.mem = s.mem := by
  cases hi with
  | lit b => cases hx; exact returnByte_mem _ _
  | count n =>
    simp only [exec, execCount] at hx
    split at hx <;> cases hx
    · exact returnByte_mem _ _
    · rfl
  | rleTrunc => cases hx; rfl

/-- A command leaves the memories or, RESET and CLOSE, releases them (47_stream_control.md R298, R300). -/
theorem exec_command_mem {c : HostCmd} {i : Instr} {s t : State} (hd : decodeCommand c = some i) (hx : exec i s = .next t) :
    t.mem = s.mem ∨ t.mem = ⟨false, [], [], []⟩ := by
  rcases exec_command_inv hd hx with ⟨r, rfl⟩ | ⟨-, -, -, count, rfl⟩ | ⟨released, rfl⟩ | ⟨source, owns, rfl⟩
  · exact .inl rfl
  · rcases startRead_cases count s with ⟨-, e⟩ | ⟨-, e⟩ <;> rw [e] <;> exact .inl rfl
  · exact .inr rfl
  · exact .inr rfl

theorem memTo_of_step {s t : State} (h : step s = .next t) : MemTo s t.mem := by
  cases stepTo_of_step h with
  | stage hs => exact hs.memTo
  | wait => exact .of_eq (awaitSource_mem s)
  | command c rest hp hc hd hx =>
    rcases exec_command_mem hd hx with e | e
    · exact .of_eq e
    · exact e ▸ .released hp
  | element he hx => exact he.memTo hx
  | recon hp hr hi hx => exact .of_eq (reconElement_mem hi hx)

/-- Each memory a step leaves is in canonical form if the one before was (assumption log 6). -/
theorem MemTo.canonical {s : State} {m : Memories} (h : MemTo s m) (hc : MemoryCanonical s) :
    Memory.wf m.buf ∧ Memory.wf m.tt ∧ Memory.wf m.recon := by
  obtain ⟨hbuf, htt, hrecon⟩ := hc
  cases h with
  | keeps => exact ⟨hbuf, htt, hrecon⟩
  | released => exact ⟨.nil, .nil, .nil⟩
  | fresh => exact ⟨.nil, .nil, .nil⟩
  | symbols _ hb => exact ⟨hb hbuf, htt, hrecon⟩
  | inverted _ ht hr => exact ⟨hbuf, ht htt, hr hrecon⟩
  | flipped _ hr => exact ⟨hbuf, htt, hr hrecon⟩

/-- Settles O48: `MemTo` lists what a step can leave in the memories. -/
theorem memoryCanonicalKept : Obligations.MemoryCanonicalKept := fun _ _ hc h => (memTo_of_step h).canonical hc

/-- Inside a command and after the header, a memory that a step changes is the one its position writes. -/
theorem MemTo.frame {s : State} {m : Memories} (h : MemTo s m) (hidle : s.seq.pos ≠ .idle) (hheader : s.seq.pos ≠ .header) :
    m.allocated = s.mem.allocated ∧ (s.seq.pos ≠ .symbol → m.buf = s.mem.buf) ∧
      (s.seq.pos ≠ .invBwt → m.tt = s.mem.tt) ∧
      (s.seq.pos ≠ .invBwt → s.seq.pos ≠ .derand → m.recon = s.mem.recon) := by
  cases h with
  | keeps => exact ⟨rfl, fun _ => rfl, fun _ => rfl, fun _ _ => rfl⟩
  | released hp => exact absurd hp hidle
  | fresh hp => exact absurd hp hheader
  | symbols hp => exact ⟨rfl, (absurd hp ·), fun _ => rfl, fun _ _ => rfl⟩
  | inverted hp => exact ⟨rfl, fun _ => rfl, (absurd hp ·), fun hne => absurd hp hne⟩
  | flipped hp => exact ⟨rfl, fun _ => rfl, fun _ => rfl, fun _ hne => absurd hp hne⟩

/-- Settles O59: the position that writes a memory is named by each case of `MemTo`. -/
theorem memoryWrittenByItsStage : Obligations.MemoryWrittenByItsStage := fun _ _ h => (memTo_of_step h).frame

end Sys2Proof.Machine
end

section
/-! PROOF. The decoder reads from the front: as many bits as the position's window always decode (40_bit_reader.md R148),
and an element depends on exactly the bits that its reads take (30_encoding.md R114, R115; 40_bit_reader.md R149). -/

namespace Sys2Proof

/-- `d` answers on `w` bits or more, and what it answers depends on the first of its bits alone: the reads of the element
take those and the `n` bits of the element read before. -/
structure ReadsFront (n w : Nat) (d : List Bool → Decoded) : Prop where
  total : ∀ bits, w ≤ bits.length → ∃ r, d bits = .ok r
  front : ∀ bits i rest, d bits = .ok (i, rest) → ∃ read, bits = read ++ rest ∧
    n + read.length = (Machine.readWidths i).sum ∧ ∀ rest', d (read ++ rest') = .ok (i, rest')

namespace ReadsFront

variable {n w : Nat} {d : List Bool → Decoded}

theorem mono {w' : Nat} (h : ReadsFront n w d) (hw : w ≤ w') : ReadsFront n w' d :=
  ⟨fun bits hb => h.total bits (hw.trans hb), h.front⟩

/-- An element whose bits are all read. -/
theorem done {i : Instr} (h : (Machine.readWidths i).sum = n) : ReadsFront n w fun bits => pure (i, bits) where
  total _ _ := ⟨_, rfl⟩
  front bits j rest hd := by
    cases hd
    exact ⟨[], rfl, h.symm, fun _ => rfl⟩

theorem ite {c : Prop} [Decidable c] {d' : List Bool → Decoded} (h : c → ReadsFront n w d) (h' : ¬c → ReadsFront n w d') :
    ReadsFront n w fun bits => if c then d bits else d' bits := by
  by_cases hc : c
  · simpa only [if_pos hc] using h hc
  · simpa only [if_neg hc] using h' hc

/-- A field of `k` bits, and an element that goes on with its value. -/
theorem field {k : Nat} {f : Nat × List Bool → Decoded} (h : ∀ v, ReadsFront (n + k) w fun rest => f (v, rest)) :
    ReadsFront n (k + w) fun bits => takeField k bits >>= f where
  total bits hb := by
    rw [takeField_total (by omega)]
    exact (h _).total _ (by rw [List.length_drop]; omega)
  front bits i rest hd := by
    obtain ⟨⟨v, rest1⟩, hv, hd⟩ := Machine.bind_ok hd
    obtain ⟨read, rfl, hlen, hrest⟩ := (h v).front rest1 i rest hd
    obtain ⟨rfl, hlt⟩ := takeField_ok hv
    refine ⟨bitsOf k v ++ read, by rw [List.append_assoc], ?_, fun rest' => ?_⟩
    · rw [List.length_append, bitsOf_length, ← hlen]
      omega
    · rw [List.append_assoc, takeField_bitsOf, Nat.mod_eq_of_lt hlt]
      exact hrest rest'

/-- `k` groupBits fields, and an element that goes on with them (30_encoding.md R106). -/
theorem groups {k : Nat} {f : List (BitVec 16) × List Bool → Decoded}
    (h : ∀ fields, fields.length = k → ReadsFront (n + 16 * k) w fun rest => f (fields, rest)) :
    ReadsFront n (16 * k + w) fun bits => takeGroups k bits >>= f := by
  induction k generalizing n f with
  | zero => exact (h [] rfl).mono (by omega)
  | succ k ih =>
    have hgroups : ReadsFront n (16 + (16 * k + w)) fun bits => takeField 16 bits >>= fun r =>
        takeGroups k r.2 >>= fun q => f (BitVec.ofNat 16 r.1 :: q.1, q.2) :=
      field fun v => ih (n := n + 16) (f := fun q => f (BitVec.ofNat 16 v :: q.1, q.2)) fun fields hf => by
        have hrest := h (BitVec.ofNat 16 v :: fields) (by rw [List.length_cons, hf])
        rwa [show n + 16 * (k + 1) = n + 16 + 16 * k by ring] at hrest
    convert hgroups.mono (show 16 + (16 * k + w) ≤ 16 * (k + 1) + w by omega) using 2 with bits
    simp only [takeGroups, bind_assoc, pure_bind]

end ReadsFront

theorem decodeHeader_reads : ReadsFront 0 32 decodeHeader := by
  refine ReadsFront.field (k := 24) (w := 8) fun m => ?_
  refine .ite (fun _ => .done rfl) fun _ => .field (k := 8) (w := 0) fun v => ?_
  exact .ite (fun _ => .done rfl) fun _ => .done rfl

theorem decodeMarker_reads : ReadsFront 0 105 decodeMarker := by
  refine ReadsFront.field (k := 48) (w := 57) fun m => ?_
  refine .ite (fun _ => ?_) fun _ => .ite (fun _ => ?_) fun _ => ?_
  · exact .field (k := 32) (w := 25) fun v => .field (k := 1) (w := 24) fun v =>
      .field (k := 24) (w := 0) fun v => .done rfl
  · exact .field (k := 32) (w := 25) fun v => .done rfl
  · exact .done rfl

theorem decodeInUse_reads : ReadsFront 0 (16 + 16 * 16) decodeInUse := by
  refine ReadsFront.field (k := 16) (w := 16 * 16) fun g => ?_
  have hcount : groupCount (BitVec.ofNat 16 g) ≤ 16 := List.countP_le_length.trans_eq List.length_range
  refine (ReadsFront.groups (w := 0) fun fields hf => .done ?_).mono (by omega)
  simp [Machine.readWidths, hf, Nat.mul_comm]

/-- From the `j`-th bit of a unary code on (30_encoding.md R109). -/
theorem decodeSel_reads (numTrees j : Nat) : ReadsFront j (max (numTrees - j) 1) (decodeSel numTrees j) where
  total bits hb := by
    induction bits generalizing j with
    | nil => simp at hb
    | cons b tail ih =>
      cases b with
      | false => exact ⟨_, rfl⟩
      | true =>
        rw [decodeSel]
        split
        · exact ⟨_, rfl⟩
        · rw [List.length_cons] at hb
          exact ih (j + 1) (by omega)
  front bits i rest hd := by
    induction bits generalizing j with
    | nil => cases hd
    | cons b tail ih =>
      cases b with
      | false =>
        cases hd
        exact ⟨[false], rfl, by simp [Machine.readWidths], fun _ => rfl⟩
      | true =>
        rw [decodeSel] at hd
        split at hd
        · rename_i hle
          cases hd
          exact ⟨[true], rfl, by simp [Machine.readWidths], fun _ => if_pos hle⟩
        · rename_i hle
          obtain ⟨read, rfl, hlen, hrest⟩ := ih (j + 1) hd
          exact ⟨true :: read, rfl, by rw [List.length_cons, ← hlen]; omega, fun rest' => (if_neg hle).trans (hrest rest')⟩

theorem decodeLCode_reads : ReadsFront 0 2 decodeLCode where
  total bits hb := by
    match bits, hb with
    | false :: _, _ => exact ⟨_, rfl⟩
    | true :: false :: _, _ => exact ⟨_, rfl⟩
    | true :: true :: _, _ => exact ⟨_, rfl⟩
  front bits i rest hd := by
    unfold decodeLCode at hd
    split at hd <;> cases hd
    · exact ⟨[false], rfl, rfl, fun _ => rfl⟩
    · exact ⟨[true, false], rfl, rfl, fun _ => rfl⟩
    · exact ⟨[true, true], rfl, rfl, fun _ => rfl⟩

/-- The code search depends on the bits it reads alone (41_huffman.md R164). -/
theorem findCode_front {t : Tree} {fuel l v : Nat} {code bits code' rest : List Bool} {o : Option Nat}
    (h : findCode t fuel l v code bits = .ok (o, code', rest)) :
    ∃ read, bits = read ++ rest ∧ code'.length = code.length + read.length ∧
      ∀ rest', findCode t fuel l v code (read ++ rest') = .ok (o, code', rest') := by
  induction fuel generalizing l v code bits with
  | zero =>
    cases h
    exact ⟨[], rfl, rfl, fun _ => rfl⟩
  | succ fuel ih =>
    cases bits with
    | nil => cases h
    | cons b tail =>
      rw [findCode] at h
      split at h
      · rename_i hc
        cases h
        exact ⟨[b], rfl, List.length_append, fun _ => if_pos hc⟩
      · rename_i hc
        obtain ⟨read, rfl, hlen, hrest⟩ := ih h
        refine ⟨b :: read, rfl, ?_, fun rest' => (if_neg hc).trans (hrest rest')⟩
        rw [hlen, List.length_append, List.length_cons, List.length_cons, List.length_nil]
        omega

/-- A symbol is read bit by bit, whatever its class. -/
theorem readWidths_symbolInstr (numInUse v : Nat) (code : List Bool) :
    (Machine.readWidths (symbolInstr numInUse v code)).sum = code.length := by
  have hones : (List.replicate code.length 1).sum = code.length := Laws.ReadsItsBits.ones _
  unfold symbolInstr
  split
  · exact hones
  split
  · exact hones
  split
  · exact hones
  split <;> exact hones

theorem decodeSymbol_reads (t : Tree) (numInUse : Nat) : ReadsFront 0 t.maxLen (decodeSymbol t numInUse) where
  total bits hb := by
    obtain ⟨⟨o, code, rest⟩, h⟩ := findCode_total t 0 0 [] hb
    unfold decodeSymbol
    rw [h]
    cases o <;> exact ⟨_, rfl⟩
  front bits i rest hd := by
    obtain ⟨⟨o, code, rest1⟩, hf, hd⟩ := Machine.bind_ok hd
    obtain ⟨read, rfl, hlen, hrest⟩ := findCode_front hf
    cases o <;> cases hd <;> refine ⟨read, rfl, ?_, fun rest' => by rw [decodeSymbol, hrest]; rfl⟩
    · simp [Machine.readWidths, hlen]
    · rw [readWidths_symbolInstr, hlen, List.length_nil]

/-- At every position of the compressed stream the decoder reads the front of its window. -/
theorem decode_reads {ctx : DecodeCtx} (h : ∀ run, ctx ≠ .recon run) : ReadsFront 0 ctx.window (decode ctx) := by
  cases ctx with
  | header => exact decodeHeader_reads
  | marker => exact decodeMarker_reads
  | inUse => exact decodeInUse_reads
  | nTrees => exact .field (k := 3) (w := 0) fun v => .done rfl
  | nSel => exact .field (k := 15) (w := 0) fun v => .done rfl
  | sel numTrees => exact decodeSel_reads numTrees 0
  | lBase => exact .field (k := 5) (w := 0) fun v => .done rfl
  | lCode => exact decodeLCode_reads
  | symbol t numInUse => exact decodeSymbol_reads t numInUse
  | recon run => exact absurd rfl (h run)

namespace Machine

/-- The elements of the compressed stream are none of the bytes of `RECON`. -/
theorem elementNext_ne_recon {s u : State} {ctx : DecodeCtx} (h : elementNext s = some (ctx, u)) (run : Nat) :
    ctx ≠ .recon run := by
  rintro rfl
  unfold elementNext at h
  split at h
  case h_8 => split at h <;> cases h
  case h_9 => split at h <;> cases h
  all_goals cases h

/-- The zero fill leaves the decoder nothing to reject (40_bit_reader.md R148). -/
theorem elementNext_decodes {s u : State} {ctx : DecodeCtx} (h : elementNext s = some (ctx, u)) (src : List Byte)
    (p : Nat) : ∃ i rest, decode ctx (streamBits src p ctx.window) = .ok (i, rest) := by
  obtain ⟨⟨i, rest⟩, hd⟩ := (decode_reads (elementNext_ne_recon h)).total (streamBits src p ctx.window)
    (streamBits_length ..).ge
  exact ⟨i, rest, hd⟩

/-- Two streams that agree on the bits of the element decoded from one give the same element. -/
theorem decode_streamBits_congr {s u : State} {ctx : DecodeCtx} {src src' : List Byte} {p : Nat} {i : Instr}
    {rest : List Bool} (h : elementNext s = some (ctx, u)) (hd : decode ctx (streamBits src p ctx.window) = .ok (i, rest))
    (hagree : ∀ k < (readWidths i).sum, streamBit src' (p + k) = streamBit src (p + k)) :
    ∃ rest', decode ctx (streamBits src' p ctx.window) = .ok (i, rest') := by
  obtain ⟨read, hbits, hlen, hany⟩ := (decode_reads (elementNext_ne_recon h)).front _ _ _ hd
  rw [Nat.zero_add] at hlen
  have hwindow : ctx.window = read.length + rest.length := by
    rw [← List.length_append, ← hbits, streamBits_length]
  have hread : streamBits src' p read.length = read := by
    have hsame : streamBits src' p read.length = streamBits src p read.length :=
      List.map_congr_left fun k hk => hagree k (hlen ▸ List.mem_range.1 hk)
    rw [hwindow, streamBits_add] at hbits
    rw [hsame]
    exact (List.append_inj hbits (streamBits_length ..)).1
  rw [hwindow, streamBits_add, hread]
  exact ⟨_, hany _⟩

end Machine

end Sys2Proof
end

section
/-! PROOF. A step and the bytes of the source (20_memory.md R84, R90, R95): only the bit reader looks at them, a stage does
not look at the reader, and an element advances it by its own reads, so what is not requested does not matter. -/

namespace Sys2Proof.Machine

/-! ### The step from its planned work -/

theorem step_of_stage {s : State} {r : Result} (h : plannedWork s = .stage r) : step s = r := by
  rw [step, nextWork, h]
  rfl

theorem step_of_instr {s u : State} {i : Instr} (h : plannedWork s = .instr i u)
    (ha : u.reader.answers (readWidths i) = true) : step s = exec i u := by
  rw [step, nextWork, h, waitFor, if_pos ha]

theorem step_of_wait {s u : State} {i : Instr} (h : plannedWork s = .instr i u)
    (ha : u.reader.answers (readWidths i) = false) : step s = .next s.awaitSource := by
  rw [step, nextWork, h, waitFor, ha]
  rfl

/-- The stage of a position is the one its step takes. -/
theorem StageTo.planned {s t : State} (h : StageTo s t) : plannedWork s = .stage (.next t) := by
  cases h with
  | noCommand hp hc => simp [plannedWork, hp, takeCommand, hc]
  | unknownCommand c rest hp hc hd => simp [plannedWork, hp, takeCommand, hc, hd]
  | badLength hp hr => simp [plannedWork, hp, fetchLengthCode, hr]
  | build hp => simp [plannedWork, hp]
  | startSymbols hp => simp [plannedWork, hp]
  | usedUp hp hu => simp [plannedWork, hp, fetchSymbol, hu]
  | invBwt hp h => simp [plannedWork, hp, h]
  | derand hp h => simp [plannedWork, hp, h]
  | prepassStart hp => simp [plannedWork, hp]
  | owedCopy hp hr =>
    rcases hp with hp | ⟨hp, hl⟩
    · simp [plannedWork, hp, expandNext, hr]
    · simp [plannedWork, hp, hl, expandNext, hr]
  | finishPrepass hp hr hn h4 => simp [plannedWork, hp, expandNext, hr, hn, h4]
  | releaseDone hp hl => simp [plannedWork, hp, hl]

/-- An expander step executes the byte class its bits decode to; no bits with no count byte due are no class. -/
theorem expandNext_of_decode {s : State} {i : Instr} {bits rest : List Bool} (atEnd : Result) (hr : s.exp.rep = 0)
    (hb : reconBits s = .ok bits) (hd : decode (.recon s.exp.run) bits = .ok (i, rest)) :
    expandNext atEnd s = .instr i s := by
  have hmore : ¬(s.exp.pos = s.sym.n ∧ s.exp.run ≠ 4) := by
    rintro ⟨hn, h4⟩
    rw [reconBits, if_pos hn] at hb
    cases hb
    simp [decode, decodeRecon, h4] at hd
  rw [expandNext, if_neg (by omega), if_neg hmore, hb]
  dsimp only
  rw [hd]
  rfl

/-! ### Another reader -/

/-- The state with another bit reader. -/
def State.withReader (r : Reader) (s : State) : State := { s with reader := r }

section
variable (r : Reader) (s : State)

theorem nextSelector_withReader : nextSelector (s.withReader r) = (nextSelector s).withReader r := by
  simp only [nextSelector, apply_ite (State.withReader r)]
  rfl

theorem afterLength_withReader : afterLength (s.withReader r) = (afterLength s).withReader r := by
  simp only [afterLength, apply_ite (State.withReader r)]
  rfl

theorem afterMarker_withReader : afterMarker (s.withReader r) = (afterMarker s).withReader r := by
  simp only [afterMarker, apply_ite (State.withReader r)]
  rfl

theorem releaseDone_withReader : releaseDone (s.withReader r) = (releaseDone s).withReader r := by
  simp only [releaseDone, apply_ite (State.withReader r)]
  rfl

theorem buildTree_withReader : buildTree (s.withReader r) = (buildTree s).withReader r := by
  simp only [buildTree, apply_ite (State.withReader r)]
  rfl

theorem nextGroup_withReader : nextGroup (s.withReader r) = (nextGroup s).withReader r := by
  simp only [nextGroup, apply_ite (State.withReader r)]
  rfl

theorem takeSymbolSlot_withReader : takeSymbolSlot (s.withReader r) = (takeSymbolSlot s).withReader r := by
  simp only [takeSymbolSlot, nextGroup_withReader, apply_ite (State.withReader r)]
  rfl

theorem returnByte_withReader (b : Byte) : returnByte b (s.withReader r) = (returnByte b s).withReader r := by
  simp only [returnByte, apply_ite (State.withReader r)]
  rfl

theorem runSymbol_withReader (v : Nat) : runSymbol v (s.withReader r) = (runSymbol v s).withReader r := by
  simp only [runSymbol, apply_ite (State.withReader r)]
  rfl

theorem finishPrepass_withReader : finishPrepass (s.withReader r) = (finishPrepass s).withReader r := by
  simp only [finishPrepass, apply_ite (State.withReader r), ← afterMarker_withReader]
  rfl

theorem flushRun_withReader : flushRun (s.withReader r) = State.withReader r <$> flushRun s := by
  simp only [flushRun, apply_ite (Functor.map (State.withReader r)), map_bind, map_pure]
  rfl

theorem mtfSymbol_withReader (v : Nat) : mtfSymbol v (s.withReader r) = State.withReader r <$> mtfSymbol v s := by
  simp only [mtfSymbol, apply_ite (Functor.map (State.withReader r)), map_bind, map_pure]
  rfl

theorem derandomise_withReader : derandomise (s.withReader r) = State.withReader r <$> derandomise s := by
  simp only [derandomise, apply_ite (Functor.map (State.withReader r)), map_bind, map_pure]
  rfl

theorem inverseBwt_withReader : inverseBwt (s.withReader r) = State.withReader r <$> inverseBwt s := by
  simp only [inverseBwt, invertBlock, apply_ite (Functor.map (State.withReader r)), map_bind, map_pure]
  rfl

end

/-- A stage does not look at the reader. -/
theorem StageTo.withReader {s t : State} (h : StageTo s t) (r : Reader) : StageTo (s.withReader r) (t.withReader r) := by
  cases h with
  | noCommand hp hc => exact .noCommand hp hc
  | unknownCommand c rest hp hc hd => exact .unknownCommand c rest hp hc hd
  | badLength hp hr => exact .badLength hp hr
  | build hp => exact buildTree_withReader r s ▸ .build hp
  | startSymbols hp => exact .startSymbols hp
  | usedUp hp hu =>
    show StageTo (s.withReader r) (raiseFault .selectorsExhausted ((nextGroup s).withReader r))
    exact nextGroup_withReader r s ▸ .usedUp hp hu
  | invBwt hp h => exact .invBwt hp (by rw [inverseBwt_withReader, h]; rfl)
  | derand hp h => exact .derand hp (by rw [derandomise_withReader, h]; rfl)
  | prepassStart hp => exact .prepassStart hp
  | owedCopy hp hr => exact returnByte_withReader r _ _ ▸ .owedCopy hp hr
  | finishPrepass hp hr hn h4 => exact finishPrepass_withReader r s ▸ .finishPrepass hp hr hn h4
  | releaseDone hp hl => exact releaseDone_withReader r s ▸ .releaseDone hp hl

/-- The outcome with a next state changed. -/
def mapNext (f : State → State) : Result → Result
  | .next s => .next (f s)
  | .fault e => .fault e
  | .refused e => .refused e

@[simp] theorem mapNext_next (f : State → State) (s : State) : mapNext f (.next s) = .next (f s) := rfl

theorem outcomeOf_map (f : State → State) (e : Except Fault State) : outcomeOf (f <$> e) = mapNext f (outcomeOf e) := by
  cases e <;> rfl

theorem consume_withReader (i : Instr) (s : State) (r : Reader) :
    (s.withReader r).consume i = (s.consume i).withReader (r.advance (readWidths i)) := rfl

/-- What every instruction but RESET means looks at the reader only to advance it by the reads of its element
(40_bit_reader.md R149). -/
theorem exec_withReader {i : Instr} (hne : ∀ source owns, i ≠ .reset source owns) (s : State) (r : Reader) :
    exec i (s.withReader r) = mapNext (State.withReader (r.advance (readWidths i))) (exec i s) := by
  cases i with
  | reset source owns => exact absurd rfl (hne source owns)
  | eos scrc => simp only [exec, execEos, apply_ite (mapNext _), mapNext_next, ← afterMarker_withReader]; rfl
  | inUse g fields => simp only [exec, execInUse, apply_ite (mapNext _)]; rfl
  | nTrees n => simp only [exec, execNTrees, apply_ite (mapNext _)]; rfl
  | nSel n => simp only [exec, execNSel, apply_ite (mapNext _), mapNext_next, ← nextSelector_withReader]; rfl
  | sel j => simp only [exec, execSel, mapNext_next, ← nextSelector_withReader]; rfl
  | lEnd => simp only [exec, execLEnd, mapNext_next, ← afterLength_withReader]; rfl
  | runA code => simp only [exec, execRunA, mapNext_next, ← runSymbol_withReader]; rfl
  | runB code => simp only [exec, execRunB, mapNext_next, ← runSymbol_withReader]; rfl
  | mtf v code =>
    simp only [exec, execMtf, ← outcomeOf_map, consume_withReader, flushRun_withReader, map_bind, bind_map_left,
      mtfSymbol_withReader]
  | eob code =>
    simp only [exec, execEob, ← outcomeOf_map, consume_withReader, flushRun_withReader, map_bind, bind_map_left, map_pure]
    rfl
  | invalidSym v code =>
    simp only [exec, execInvalidSym, ← outcomeOf_map, consume_withReader, flushRun_withReader, map_bind, bind_map_left,
      map_pure]
    rfl
  | lit b => simp only [exec, execLit, mapNext_next, ← returnByte_withReader]; rfl
  | count n =>
    simp only [exec, execCount, owedCopy, mapNext_next, apply_ite (State.withReader _), ← returnByte_withReader]
    rfl
  | read count =>
    simp only [exec, execRead, startRead, mapNext_next, apply_ite (mapNext _), apply_ite (State.withReader _)]
    rfl
  | close => simp only [exec, execClose, apply_ite (mapNext _)]; rfl
  | getCaps => simp only [exec, execGetCaps, apply_ite (mapNext _)]; rfl
  | _ => rfl

/-- The element of a position, in the state with another reader. -/
theorem elementNext_withReader {s u : State} {ctx : DecodeCtx} (h : elementNext s = some (ctx, u)) (r : Reader) :
    elementNext (s.withReader r) = some (ctx, u.withReader r) := by
  unfold elementNext at h
  split at h <;> rename_i hp
  case h_8 =>
    split at h <;> cases h
    rename_i hc
    simp only [elementNext, State.withReader, hp]
    exact if_pos hc
  case h_9 =>
    split at h <;> cases h
    rename_i hc
    simp only [elementNext, takeSymbolSlot_withReader]
    simp only [State.withReader, hp]
    exact if_neg hc
  case h_10 => cases h
  all_goals cases h; simp only [elementNext, State.withReader, hp]

/-- The planned work of a position that names an element, with another reader. -/
theorem plannedWork_withReader {s u : State} {ctx : DecodeCtx} {i : Instr} {rest : List Bool} {r : Reader}
    (he : elementNext s = some (ctx, u)) (hd : decode ctx (streamBits r.src r.bitpos ctx.window) = .ok (i, rest)) :
    plannedWork (s.withReader r) = .instr i (u.withReader r) := by
  rw [plannedWork_element (elementNext_withReader he r)]
  show workOf (u.withReader r) (decode ctx (streamBits r.src r.bitpos ctx.window)) = _
  rw [hd]
  rfl

/-! ### Another source -/

/-- The reader on another source's bytes. -/
def Reader.on (src : List Byte) (r : Reader) : Reader := { r with src := src }

/-- Two sources give the same first `n` bytes, zeros past the end (40_bit_reader.md R148). -/
def SameBytes (n : Nat) (src src' : List Byte) : Prop := ∀ k < n, src.getD k 0 = src'.getD k 0

theorem SameBytes.mono {n k : Nat} {src src' : List Byte} (h : SameBytes n src src') (hk : k ≤ n) : SameBytes k src src' :=
  fun j hj => h j (hj.trans_le hk)

/-- A stream bit is a bit of one byte (20_memory.md R85). -/
theorem streamBit_congr {n p : Nat} {src src' : List Byte} (h : SameBytes n src src') (hp : p < 8 * n) :
    streamBit src p = streamBit src' p := by
  rw [streamBit, streamBit, h _ (by omega)]

section
variable {r : Reader} {src : List Byte} {n : Nat} {ws : List Nat}

theorem refill_on (h : SameBytes r.refill.srcPos src r.src) : (r.on src).refill = r.refill.on src := by
  rw [refill_srcPos] at h
  unfold Reader.refill
  by_cases hc : r.cnt < 16
  · rw [if_pos hc] at h
    have h0 : (r.on src).srcByte.1 = r.srcByte.1 := h r.srcPos (by omega)
    have h1 : (r.on src).srcByte.2.srcByte.1 = r.srcByte.2.srcByte.1 := h (r.srcPos + 1) (by omega)
    rw [if_pos hc, if_pos (show (r.on src).cnt < 16 from hc)]
    dsimp only
    rw [h0, h1]
    rfl
  · rw [if_neg hc, if_neg (show ¬(r.on src).cnt < 16 from hc)]

theorem consumeBits_on (h : SameBytes (r.consumeBits n).srcPos src r.src) :
    (r.on src).consumeBits n = (r.consumeBits n).on src := by
  unfold Reader.consumeBits
  rw [refill_on h]
  rfl

theorem readBits_on (h : SameBytes (r.readBits n).2.srcPos src r.src) :
    ((r.on src).readBits n).2 = (r.readBits n).2.on src := by
  unfold Reader.readBits at h ⊢
  split
  · rw [if_pos ‹_›] at h
    exact consumeBits_on h
  · rw [if_neg ‹_›] at h
    have h16 := consumeBits_on (h.mono (refill_srcPos_le (r.consumeBits 16)))
    show ((r.on src).consumeBits 16).consumeBits (n - 16) = ((r.consumeBits 16).consumeBits (n - 16)).on src
    rw [h16]
    exact consumeBits_on (by rw [consumeBits_src]; exact h)

/-- Reads do not see the bytes they do not request. -/
theorem advance_on (h : SameBytes (r.advance ws).srcPos src r.src) : (r.on src).advance ws = (r.advance ws).on src := by
  induction ws generalizing r with
  | nil => rfl
  | cons n ws ih =>
    rw [advance_cons] at h
    obtain ⟨-, hsrc, -⟩ := readBits_moves n r
    obtain ⟨-, -, hle⟩ := advance_moves ws (r.readBits n).2
    rw [advance_cons, readBits_on (h.mono hle)]
    exact ih (by rw [hsrc]; exact h)

theorem answers_on (h : SameBytes (r.advance ws).srcPos src r.src) : (r.on src).answers ws = r.answers ws := by
  rw [Reader.answers, advance_on h]
  rfl

/-- The bits still buffered are bits of bytes that were requested (40_bit_reader.md R147). -/
theorem inv_on (h : SameBytes r.srcPos src r.src) (hi : r.Inv) : (r.on src).Inv where
  cnt_le := hi.cnt_le
  position := hi.position
  even := hi.even
  buffered := by
    have hpos := hi.position
    have hbits : streamBits src r.bitpos r.cnt = streamBits r.src r.bitpos r.cnt :=
      List.map_congr_left fun k hk => streamBit_congr h (by have := List.mem_range.1 hk; omega)
    show r.acc.toNat % 2 ^ r.cnt = ofBits (streamBits src r.bitpos r.cnt)
    rw [hbits]
    exact hi.buffered

/-- The element decoded from a source is the one decoded from any other that has the same bytes as far as the element
requests them. -/
theorem decode_on {s u : State} {ctx : DecodeCtx} {i : Instr} {rest : List Bool} (hi : r.Inv)
    (he : elementNext s = some (ctx, u)) (hd : decode ctx (streamBits r.src r.bitpos ctx.window) = .ok (i, rest))
    (h : SameBytes (r.advance (readWidths i)).srcPos src r.src) :
    ∃ rest', decode ctx (streamBits src r.bitpos ctx.window) = .ok (i, rest') := by
  have hpos := (hi.advance fun n hn => (readWidths_le i n hn).2).position
  rw [(advance_moves (readWidths i) r).1] at hpos
  exact decode_streamBits_congr he hd fun k hk => streamBit_congr h (by omega)

end

/-- A step that executes an element requests what the element requests: with those bytes the other source takes the same
step. -/
theorem step_on_element {s t u : State} {ctx : DecodeCtx} {i : Instr} {rest : List Bool} {src : List Byte}
    (hi : s.reader.Inv) (he : elementNext s = some (ctx, u))
    (hd : decode ctx (streamBits s.reader.src s.reader.bitpos ctx.window) = .ok (i, rest))
    (ha : s.reader.answers (readWidths i) = true) (hx : exec i u = .next t)
    (h : SameBytes t.reader.srcPos src s.reader.src) :
    step (s.withReader (s.reader.on src)) = .next (t.withReader (t.reader.on src)) := by
  have hel := elementAt_of_decode he hd
  have ht : t.reader = s.reader.advance (readWidths i) := by
    rcases exec_reader hx with hr | ⟨source, owns, e, -⟩
    · rw [hr, hel.reader]
    · exact absurd e (hel.ne_reset source owns)
  rw [ht] at h ⊢
  obtain ⟨rest', hd'⟩ := decode_on hi he hd h
  rw [step_of_instr (plannedWork_withReader (r := s.reader.on src) he hd') ((answers_on h).trans ha),
    exec_withReader hel.ne_reset, hx, advance_on h]
  rfl

theorem awaitSource_on (s : State) (src : List Byte) :
    (s.withReader (s.reader.on src)).awaitSource = s.awaitSource.withReader (s.awaitSource.reader.on src) := by
  have hlater : (s.withReader (s.reader.on src)).reader.pace.later = s.reader.pace.later := rfl
  unfold State.awaitSource
  rw [hlater]
  split <;> rfl

/-- A step that waits has requested answered bytes only: with those bytes the other source leaves it waiting, for what it
answers to would be the element here too. -/
theorem step_on_wait {s u : State} {ctx : DecodeCtx} {i : Instr} {rest : List Bool} {src : List Byte}
    (hi : s.reader.Inv) (he : elementNext s = some (ctx, u))
    (hd : decode ctx (streamBits s.reader.src s.reader.bitpos ctx.window) = .ok (i, rest))
    (ha : s.reader.answers (readWidths i) = false)
    (h : ∀ k, k < s.reader.srcPos ∨ (∃ m, s.reader.pace.ready = some m ∧ k < m) → src.getD k 0 = s.reader.src.getD k 0) :
    step (s.withReader (s.reader.on src)) = .next (s.awaitSource.withReader (s.awaitSource.reader.on src)) := by
  obtain ⟨i', rest', hd'⟩ := elementNext_decodes he src s.reader.bitpos
  have hwait : (s.reader.on src).answers (readWidths i') = false := by
    rw [← Bool.not_eq_true]
    intro hans
    obtain ⟨m, hm⟩ : ∃ m, s.reader.pace.ready = some m := by
      rw [← Option.ne_none_iff_exists']
      intro hnone
      rw [answers_iff.2 (allAnswered_of_prompt hnone _)] at ha
      cases ha
    have hsame : SameBytes ((s.reader.on src).advance (readWidths i')).srcPos s.reader.src src := fun k hk => by
      by_cases hlt : k < s.reader.srcPos
      · exact (h k (.inl hlt)).symm
      · exact (h k (.inr ⟨m, hm, answers_iff.1 hans k (not_lt.1 hlt) hk m hm⟩)).symm
    obtain ⟨_, hback⟩ := decode_on (r := s.reader.on src) (inv_on (fun k hk => h k (.inl hk)) hi) he hd' hsame
    obtain rfl : i = i' := congrArg Prod.fst (Except.ok.inj (hd.symm.trans hback))
    have hanswers : s.reader.answers (readWidths i) = true := (answers_on (r := s.reader.on src) hsame).trans hans
    rw [ha] at hanswers
    cases hanswers
  rw [step_of_wait (plannedWork_withReader (r := s.reader.on src) he hd') hwait, awaitSource_on]

/-- The engine waits where the element it decodes is not answered. -/
theorem waiting_of_not_answered {s u : State} {ctx : DecodeCtx} {i : Instr} {rest : List Bool}
    (he : elementNext s = some (ctx, u))
    (hd : decode ctx (streamBits s.reader.src s.reader.bitpos ctx.window) = .ok (i, rest))
    (ha : s.reader.answers (readWidths i) = false) : Waiting s :=
  ⟨ctx, u, i, rest, he, hd, fun hall => by rw [answers_iff.2 hall] at ha; cases ha⟩

/-- A byte of `RECON` is not read from the stream (40_bit_reader.md R149). -/
theorem readWidths_recon {run : Nat} {i : Instr} (h : ReconElement run i) : readWidths i = [] := by
  cases h <;> rfl

theorem recon_ne_reset {run : Nat} {i : Instr} (h : ReconElement run i) (source : Source) (owns : Bool) :
    i ≠ .reset source owns := by
  rintro rfl
  cases h

/-- A step on a byte of `RECON` does not look at the source. -/
theorem step_on_recon {s t : State} {i : Instr} {bits rest : List Bool} (r : Reader)
    (hp : s.seq.pos = .prepass ∨ (s.seq.pos = .release ∧ s.seq.readLeft ≠ 0)) (hr : s.exp.rep = 0)
    (hb : reconBits s = .ok bits) (hd : decode (.recon s.exp.run) bits = .ok (i, rest)) (hx : exec i s = .next t) :
    step (s.withReader r) = .next (t.withReader r) := by
  have hwidths := readWidths_recon (decodeRecon_ok hd)
  have hplan : plannedWork (s.withReader r) = .instr i (s.withReader r) := by
    have hexp (atEnd : Result) : expandNext atEnd (s.withReader r) = .instr i (s.withReader r) :=
      expandNext_of_decode atEnd hr hb hd
    have hp' : (s.withReader r).seq = s.seq := rfl
    rcases hp with hp | ⟨hp, hl⟩
    · rw [plannedWork, hp', hp]
      exact hexp _
    · rw [plannedWork, hp', hp]
      exact (if_neg hl).trans (hexp _)
  rw [step_of_instr hplan (by rw [hwidths, answers_nil]), exec_withReader (recon_ne_reset (decodeRecon_ok hd)), hx,
    hwidths]
  rfl

/-- Settles O60: a stage and a byte of `RECON` do not look at the source, an element and a wait look at requested bytes. -/
theorem onlyRequestedBytesMatter : Obligations.OnlyRequestedBytesMatter := by
  intro s t src hi hp h hagree
  show step (s.withReader (s.reader.on src)) = .next (t.withReader (t.reader.on src))
  have hwork := h
  unfold step at hwork
  rcases nextWork_cases s with ⟨r, hw, e⟩ | ⟨i, u, hw, ⟨ha, e⟩ | ⟨ha, e⟩⟩ <;> rw [e] at hwork
  · have hs : StageTo s t := plannedWork_stage (hwork ▸ hw)
    rw [hs.reader]
    exact step_of_stage (hs.withReader _).planned
  · rcases plannedWork_instr hw with ⟨hp', -⟩ | ⟨ctx, rest, he, hd⟩ | ⟨hp', rfl, hr, bits, rest, hb, hd⟩
    · exact absurd hp' hp
    · rw [(elementAt_of_decode he hd).reader] at ha
      exact step_on_element hi he hd ha hwork fun k hk => hagree k (.inl hk)
    · have ht : t.reader = u.reader := by
        rcases exec_reader hwork with hr | ⟨source, owns, e, -⟩
        · rw [hr, readWidths_recon (decodeRecon_ok hd), advance_nil]
        · exact absurd e (recon_ne_reset (decodeRecon_ok hd) source owns)
      rw [ht]
      exact step_on_recon _ hp' hr hb hd hwork
  · cases hwork
    rcases plannedWork_instr hw with ⟨hp', -⟩ | ⟨ctx, rest, he, hd⟩ | ⟨-, rfl, -, bits, rest, -, hd⟩
    · exact absurd hp' hp
    · rw [(elementAt_of_decode he hd).reader] at ha
      have hwaiting := waiting_of_not_answered he hd ha
      refine step_on_wait hi he hd ha fun k hk => hagree k ?_
      rcases hk with hk | hm
      · exact .inl (hk.trans_le (awaitSource_forward s).2.2)
      · exact .inr ⟨hwaiting, hm⟩
    · rw [readWidths_recon (decodeRecon_ok hd), answers_nil] at ha
      cases ha

end Sys2Proof.Machine
end

section
/-! PROOF. The inverse BWT of a written block stays inside its memories (43_inverse_bwt.md R226): the pointer table fills
`TT[0..N-1]` with positions below `N`, so the chain walk reads only what the block has written. -/

namespace Sys2Proof.Machine

@[simp] theorem bump_length (table : List Nat) (i : Nat) : (bump table i).length = table.length := List.length_set

theorem tableGet_bump {table : List Nat} {i : Nat} (hi : i < table.length) (k : Nat) :
    tableGet (bump table i) k = tableGet table k + if k = i then 1 else 0 := by
  unfold bump tableGet
  rw [List.getD_eq_getElem?_getD, List.getElem?_set]
  by_cases h : k = i
  · subst h
    simp [hi]
  · simp [h, Ne.symm h]

theorem sum_bump {table : List Nat} {i : Nat} (hi : i < table.length) : (bump table i).sum = table.sum + 1 := by
  have hsplit : table.sum = (table.take i).sum + tableGet table i + (table.drop (i + 1)).sum := by
    conv_lhs => rw [← List.take_append_drop i table, List.drop_eq_getElem_cons hi]
    rw [List.sum_append, List.sum_cons, tableGet, List.getD_eq_getElem _ _ hi, Nat.add_assoc]
  rw [bump, List.sum_set, if_pos hi, hsplit]
  omega

/-- A byte counted in a table is one less to come. -/
theorem tableGet_bump_add_count {table : List Nat} (hlen : table.length = 256) (c : Byte) (rest : List Byte) (b : Byte) :
    tableGet (bump table c.toNat) b.toNat + rest.count b = tableGet table b.toNat + (c :: rest).count b := by
  rw [tableGet_bump (hlen ▸ c.isLt), List.count_cons]
  by_cases h : b = c
  · subst h
    simp only [if_true, BEq.rfl]
    omega
  · rw [if_neg (h ∘ BitVec.eq_of_toNat_eq), if_neg (by simpa using Ne.symm h)]
    rfl

/-- `FREQ` has an entry for each byte value, each counts its byte, and their sum grows by the block length
(43_inverse_bwt.md R221). -/
theorem foldl_bump (bytes : List Byte) {f : List Nat} (hf : f.length = 256) :
    (bytes.foldl (fun f b => bump f b.toNat) f).length = 256 ∧
      (bytes.foldl (fun f b => bump f b.toNat) f).sum = f.sum + bytes.length ∧
      ∀ b : Byte, tableGet (bytes.foldl (fun f b => bump f b.toNat) f) b.toNat = tableGet f b.toNat + bytes.count b := by
  induction bytes generalizing f with
  | nil => exact ⟨hf, rfl, fun _ => rfl⟩
  | cons c rest ih =>
    have hc : c.toNat < f.length := hf ▸ c.isLt
    obtain ⟨h1, h2, h3⟩ := ih (f := bump f c.toNat) (by rw [bump_length, hf])
    refine ⟨h1, ?_, fun b => ?_⟩
    · rw [List.foldl_cons, h2, sum_bump hc, List.length_cons]
      omega
    · rw [List.foldl_cons, h3, tableGet_bump_add_count hf]

theorem offsetsFrom_length (sum : Nat) (fs : List Nat) : (offsetsFrom sum fs).length = fs.length := by
  induction fs generalizing sum with
  | nil => rfl
  | cons f rest ih => rw [offsetsFrom, List.length_cons, ih, List.length_cons]

/-- `CUM`'s buckets lie one after the other: each ends by the sum of all, and every place below it is in one
(43_inverse_bwt.md R222). -/
theorem offsetsFrom_buckets (sum : Nat) (fs : List Nat) :
    (∀ k < fs.length, tableGet (offsetsFrom sum fs) k + tableGet fs k ≤ sum + fs.sum) ∧
      ∀ j, sum ≤ j → j < sum + fs.sum → ∃ k < fs.length, tableGet (offsetsFrom sum fs) k ≤ j ∧
        j < tableGet (offsetsFrom sum fs) k + tableGet fs k := by
  induction fs generalizing sum with
  | nil => exact ⟨nofun, fun j h1 h2 => by simp at h2; omega⟩
  | cons f rest ih =>
    obtain ⟨hend, hcover⟩ := ih (sum + f)
    rw [List.sum_cons]
    refine ⟨fun k hk => ?_, fun j h1 h2 => ?_⟩
    · cases k with
      | zero => show sum + f ≤ sum + (f + rest.sum); omega
      | succ k =>
        have := hend k (by simpa using hk)
        show tableGet (offsetsFrom (sum + f) rest) k + tableGet rest k ≤ _
        omega
    · by_cases hj : j < sum + f
      · exact ⟨0, by simp, h1, hj⟩
      · obtain ⟨k, hk, hlo, hhi⟩ := hcover j (by omega) (by omega)
        exact ⟨k + 1, by simpa using hk, hlo, hhi⟩

/-- Entry `j` of `TT` holds a position below `n`. -/
def PointsBelow (n : Nat) (tt : List (Nat × Nat)) (j : Nat) : Prop := ∃ v < n, cellRead tt j = some v

theorem PointsBelow.cellWrite {n v : Nat} {tt : List (Nat × Nat)} {j : Nat} (h : PointsBelow n tt j) (i : Nat)
    (hv : v < n) : PointsBelow n (cellWrite tt i v) j := by
  unfold PointsBelow
  rw [cellRead_cellWrite]
  split
  · exact ⟨v, hv, rfl⟩
  · exact h

/-- With room for the bytes still to place in each bucket, the pointer table answers, and every entry in that room points
below `n`. -/
theorem pointerLoop_total {limit n i : Nat} {bytes : List Byte} {cum : List Nat} (tt : List (Nat × Nat))
    (hn : i + bytes.length ≤ n) (hlen : cum.length = 256)
    (hroom : ∀ b : Byte, tableGet cum b.toNat + bytes.count b ≤ limit) :
    ∃ tt' cum', pointerLoop limit i bytes cum tt = .ok (tt', cum') ∧ ∀ j,
      (PointsBelow n tt j ∨ ∃ b : Byte, tableGet cum b.toNat ≤ j ∧ j < tableGet cum b.toNat + bytes.count b) →
        PointsBelow n tt' j := by
  induction bytes generalizing i cum tt with
  | nil =>
    refine ⟨tt, cum, rfl, fun j hj => ?_⟩
    rcases hj with hj | ⟨b, hlo, hhi⟩
    · exact hj
    · exact absurd hhi (by simpa using hlo)
  | cons c rest ih =>
    have hc : c.toNat < cum.length := hlen ▸ c.isLt
    rw [List.length_cons] at hn
    have hspot : tableGet cum c.toNat < limit := by
      have hc' := hroom c
      rw [List.count_cons_self] at hc'
      omega
    have hbump := tableGet_bump_add_count hlen c rest
    obtain ⟨tt', cum', hloop, hpoints⟩ := ih (i := i + 1) (cum := bump cum c.toNat) (cellWrite tt (tableGet cum c.toNat) i)
      (by omega) (by rw [bump_length, hlen]) (fun b => hbump b ▸ hroom b)
    refine ⟨tt', cum', ?_, fun j hj => hpoints j ?_⟩
    · rw [pointerLoop, writeEntry, if_pos hspot]
      exact hloop
    · have hi : i < n := by omega
      rcases hj with hj | ⟨b, hlo, hhi⟩
      · exact .inl (hj.cellWrite _ hi)
      · by_cases hplace : j = tableGet cum c.toNat
        · exact .inl ⟨i, hi, by rw [hplace, cellRead_cellWrite_same]⟩
        · refine .inr ⟨b, ?_, hbump b ▸ hhi⟩
          rw [tableGet_bump hc]
          split
          · rename_i hb
            rw [hb] at hlo ⊢
            omega
          · exact hlo

/-- The pointer table of a block of `n` bytes fills `TT[0..n-1]` (43_inverse_bwt.md R223). -/
theorem pointerLoop_block {limit : Nat} (bytes : List Byte) (tt : List (Nat × Nat)) (hl : bytes.length ≤ limit) :
    ∃ tt' cum', pointerLoop limit 0 bytes (offsetsFrom 0 (byteCounts bytes)) tt = .ok (tt', cum') ∧
      ∀ j < bytes.length, PointsBelow bytes.length tt' j := by
  obtain ⟨hlen, hsum, hcount⟩ := foldl_bump bytes (f := List.replicate 256 0) List.length_replicate
  have hcount' (b : Byte) : tableGet (byteCounts bytes) b.toNat = bytes.count b := by
    rw [byteCounts, hcount, tableGet, List.getD_replicate _ b.isLt, Nat.zero_add]
  have hsum' : (byteCounts bytes).sum = bytes.length := by
    rw [byteCounts, hsum, List.sum_replicate, smul_zero, Nat.zero_add]
  obtain ⟨hend, hcover⟩ := offsetsFrom_buckets 0 (byteCounts bytes)
  rw [hsum', Nat.zero_add] at hend hcover
  have hlen' : (byteCounts bytes).length = 256 := hlen
  obtain ⟨tt', cum', hloop, hpoints⟩ := pointerLoop_total (limit := limit) (n := bytes.length) (i := 0) (bytes := bytes)
    (cum := offsetsFrom 0 (byteCounts bytes)) tt (by omega) (by rw [offsetsFrom_length, hlen'])
    (fun b => by rw [← hcount']; exact (hend _ (hlen' ▸ b.isLt)).trans hl)
  refine ⟨tt', cum', hloop, fun j hj => hpoints j (.inr ?_)⟩
  obtain ⟨k, hk, hlo, hhi⟩ := hcover j (Nat.zero_le _) hj
  have hk' : (BitVec.ofNat 8 k).toNat = k := by
    rw [BitVec.toNat_ofNat]
    omega
  exact ⟨BitVec.ofNat 8 k, by rwa [hk'], by rw [← hcount', hk']; exact hhi⟩

/-- Along pointers below `n` the chain walk of a written block answers (43_inverse_bwt.md R224). -/
theorem chainWalk_total {limit n left k focus : Nat} {buf : List Host.Cell} {tt : List (Nat × Nat)} (recon : List Host.Cell)
    (hl : n ≤ limit) (hk : k + left ≤ n) (hf : focus < n) (hb : Written buf n) (ht : ∀ j < n, PointsBelow n tt j) :
    ∃ r, chainWalk limit buf tt left k focus recon = .ok r := by
  induction left generalizing k focus recon with
  | zero => exact ⟨_, rfl⟩
  | succ left ih =>
    obtain ⟨b, hread, -⟩ := readEntry_written (name := .buf) hb hf hl
    obtain ⟨v, hv, hcell⟩ := ht focus hf
    have hnext : readEntry limit .tt tt focus = .ok v := readEntry_ok.2 ⟨by omega, hcell⟩
    obtain ⟨r, hr⟩ := ih (k := k + 1) (cellWrite recon k b) (by omega) hv
    refine ⟨r, ?_⟩
    have hwrite : writeEntry limit .recon recon k b = .ok (cellWrite recon k b) := writeEntry_ok.2 ⟨by omega, rfl⟩
    rw [chainWalk, hread]
    simp only [bind, Except.bind, hwrite, hnext]
    exact hr

/-- The inverse BWT of a written block answers, whatever `ORIG_PTR` (43_inverse_bwt.md R220, R226). -/
theorem inverseBwt_total {s : State} (hl : s.sym.n ≤ s.entries) (hb : Written s.mem.buf s.sym.n) :
    ∃ t, inverseBwt s = .ok t := by
  unfold inverseBwt
  split
  · exact ⟨_, rfl⟩
  rename_i hptr
  obtain ⟨bytes, hread, hlen, -⟩ := readRun_written (name := .buf) hb hl (Nat.zero_add _).le
  obtain ⟨tt, cum, hloop, hpoints⟩ := pointerLoop_block bytes s.mem.tt (hlen.le.trans hl)
  rw [hlen] at hpoints
  obtain ⟨first, hfirst, hcell⟩ := hpoints s.blk.origPtr.toNat (not_le.1 hptr)
  have hentry : readEntry s.entries .tt tt s.blk.origPtr.toNat = .ok first := readEntry_ok.2 ⟨by omega, hcell⟩
  obtain ⟨⟨recon, focus⟩, hwalk⟩ := chainWalk_total s.mem.recon hl (Nat.zero_add _).le hfirst hb hpoints
  unfold invertBlock
  rw [hread]
  simp only [bind, Except.bind, hloop, hentry, hwalk]
  exact ⟨_, rfl⟩

end Sys2Proof.Machine
end

section
/-! PROOF. What a sound state owes its next stage, by position: the soundness of Sys2Proof/Safety.lean read where the engine
stands. -/

namespace Sys2Proof.Machine

/-- The phase in which a command is in progress at a position (47_stream_control.md R283). -/
def Position.phase : Position → Phase
  | .header => .header
  | .release => .blockActive
  | _ => .blockPending

theorem Position.phase_of_inBlock {p : Position} (h : p.inBlock = true) : p.phase = .blockPending := by
  cases p with
  | idle => cases h
  | header => cases h
  | release => cases h
  | _ => rfl

theorem Position.ne_idle_of_inBlock {p : Position} (h : p.inBlock = true) : p ≠ .idle := by
  rintro rfl
  cases h

theorem Position.phase_ne_faulted (p : Position) : p.phase ≠ .faulted := by cases p <;> decide

/-- Inside a command the phase is the position's, nothing is closed and no fault stands. -/
theorem phaseInv_running {s : State} (hp : s.seq.pos ≠ .idle) :
    PhaseInv s ↔ s.ctrl.phase = s.seq.pos.phase ∧ s.ctrl.closed = false ∧ s.ctrl.faultCode = 0 := by
  constructor
  · intro h
    have hphase : s.ctrl.phase = s.seq.pos.phase := by
      cases hpos : s.seq.pos with
      | idle => exact absurd hpos hp
      | header => exact h.header hpos
      | release => exact h.release hpos
      | _ => exact h.inBlock (by rw [hpos]; rfl)
    refine ⟨hphase, Bool.eq_false_iff.2 fun hc => hp (h.closed hc), Classical.not_not.1 fun hf => ?_⟩
    exact s.seq.pos.phase_ne_faulted (hphase ▸ h.fault.1.2 hf)
  · rintro ⟨hphase, hclosed, hfault⟩
    exact {
      idle := fun h => absurd h hp
      header := fun h => by rw [hphase, h]; rfl
      inBlock := fun h => hphase.trans (Position.phase_of_inBlock h)
      release := fun h => by rw [hphase, h]; rfl
      closed := fun h => by rw [hclosed] at h; cases h
      fault := by
        rw [hphase, hfault]
        exact ⟨⟨fun h => absurd h s.seq.pos.phase_ne_faulted, fun h => absurd rfl h⟩, Nat.zero_le _⟩ }

/-- Between commands no block is pending, and a fault code stands in FAULTED alone. -/
theorem phaseInv_idle {s : State} (hp : s.seq.pos = .idle) : PhaseInv s ↔ s.ctrl.phase ≠ .blockPending ∧
    (s.ctrl.phase = .faulted ↔ s.ctrl.faultCode ≠ 0) ∧ s.ctrl.faultCode.toNat ≤ 17 := by
  constructor
  · exact fun h => ⟨h.idle hp, h.fault⟩
  · rintro ⟨hphase, hfault⟩
    exact {
      idle := fun _ => hphase
      header := fun h => by rw [hp] at h; cases h
      inBlock := fun h => by rw [hp] at h; cases h
      release := fun h => by rw [hp] at h; cases h
      closed := fun _ => hp
      fault := hfault }

/-- A step inside a block that leaves the control registers. -/
theorem PhaseInv.moved {s t : State} (h : PhaseInv s) (hs : s.seq.pos.inBlock = true) (ht : t.seq.pos.inBlock = true)
    (hc : t.ctrl = s.ctrl) : PhaseInv t := by
  rw [phaseInv_running (Position.ne_idle_of_inBlock hs), Position.phase_of_inBlock hs] at h
  rwa [phaseInv_running (Position.ne_idle_of_inBlock ht), Position.phase_of_inBlock ht, hc]

/-- `RECON` holds the block (43_inverse_bwt.md R224). -/
def BlockReady (s : State) : Prop :=
  s.mem.allocated = true ∧ s.sym.n ≤ s.ctrl.capacity ∧ Written s.mem.recon s.sym.n

/-- The expander stands inside the block, and has a previous byte where it can ask for one (46_output_rle.md R266). -/
def ExpanderReady (s : State) : Prop :=
  s.exp.pos ≤ s.sym.n ∧ s.exp.run ≤ 4 ∧ (1 ≤ s.exp.run ∨ 1 ≤ s.exp.rep → s.exp.prev ≠ none)

/-- An active block: its bytes are there, and exactly `EXP_REMAINING` are left to release (46_output_rle.md R272). -/
def Releasable (s : State) : Prop :=
  BlockReady s ∧ ExpanderReady s ∧ (expansionLeft s).map List.length = some s.exp.remaining

/-- What `Sound` says of the memories and the expander for the stage of a position. -/
def StageSafe (s : State) : Position → Prop
  | .idle => s.active = true → Releasable s
  | .header => True
  | .symbol => s.mem.allocated = true ∧ s.sym.n + s.sym.runLen ≤ s.ctrl.capacity ∧ Written s.mem.buf s.sym.n
  | .invBwt => s.mem.allocated = true ∧ s.sym.n ≤ s.ctrl.capacity ∧ Written s.mem.buf s.sym.n
  | .derand => BlockReady s
  | .prepassStart => BlockReady s
  | .prepass => BlockReady s ∧ ExpanderReady s ∧
      (expandFrom 0 none (reconFrom s 0)).map List.length = (expansionLeft s).map fun out => s.seq.expCount + out.length
  | .release => Releasable s ∧ s.seq.readLeft ≤ s.exp.remaining
  | _ => s.mem.allocated = true

theorem StageSafe.allocated {s : State} {p : Position} (h : StageSafe s p) (hb : p.inBlock = true) :
    s.mem.allocated = true := by
  cases p with
  | idle => cases hb
  | header => cases hb
  | symbol => exact h.1
  | invBwt => exact h.1
  | derand => exact h.1
  | prepassStart => exact h.1
  | prepass => exact h.1.1
  | release => cases hb
  | _ => exact h

theorem StageSafe.blockReady {s : State} {p : Position} (h : StageSafe s p) (hb : p.afterBwt = true) : BlockReady s := by
  cases p with
  | derand => exact h
  | prepassStart => exact h
  | prepass => exact h.1
  | _ => cases hb

theorem active_iff {s : State} : s.active = true ↔ s.ctrl.phase = .blockActive ∧ s.ctrl.closed = false := by
  simp [State.active]

/-- A block is active between commands and in the release pass only. -/
theorem StageSafe.releasable {s : State} (h : StageSafe s s.seq.pos) (hi : PhaseInv s) (ha : s.active = true) :
    Releasable s := by
  have hphase (hne : s.seq.pos ≠ .idle) : s.seq.pos.phase = .blockActive :=
    ((phaseInv_running hne).1 hi).1.symm.trans (active_iff.1 ha).1
  cases hp : s.seq.pos <;> rw [hp] at h hphase
  case idle => exact h ha
  case release => exact h.1
  all_goals cases hphase nofun

/-- `Sound`, by the position. -/
theorem sound_iff {s : State} : Sound s ↔ PhaseInv s ∧ StageSafe s s.seq.pos := by
  constructor
  · rintro ⟨hi, hm, hr⟩
    refine ⟨hi, ?_⟩
    have releasable (ha : s.active = true) : Releasable s :=
      ⟨⟨hm.allocated (.inr ha), hm.recon (.inr ha)⟩, hm.expander (.inr ha), hr.active ha⟩
    cases hp : s.seq.pos with
    | idle => exact releasable
    | header => trivial
    | symbol => exact ⟨hm.allocated (.inl (by rw [hp]; rfl)), hm.symbols hp⟩
    | invBwt => exact ⟨hm.allocated (.inl (by rw [hp]; rfl)), hm.block hp⟩
    | derand => exact ⟨hm.allocated (.inl (by rw [hp]; rfl)), hm.recon (.inl (by rw [hp]; rfl))⟩
    | prepassStart => exact ⟨hm.allocated (.inl (by rw [hp]; rfl)), hm.recon (.inl (by rw [hp]; rfl))⟩
    | prepass =>
      exact ⟨⟨hm.allocated (.inl (by rw [hp]; rfl)), hm.recon (.inl (by rw [hp]; rfl))⟩,
        hm.expander (.inl hp), hr.prepass hp⟩
    | release =>
      have hrun := (phaseInv_running (by rw [hp]; decide)).1 hi
      exact ⟨releasable (active_iff.2 ⟨hi.release hp, hrun.2.1⟩), hr.amount hp⟩
    | _ => exact hm.allocated (.inl (by rw [hp]; rfl))
  · rintro ⟨hi, hs⟩
    have stageAt {p : Position} (hp : s.seq.pos = p) : StageSafe s p := hp ▸ hs
    have releasable := hs.releasable hi
    exact {
      phase := hi
      memory := {
        allocated := fun h => h.elim hs.allocated fun ha => (releasable ha).1.1
        symbols := fun hp => (stageAt hp).2
        block := fun hp => (stageAt hp).2
        recon := fun h => h.elim (fun hb => (hs.blockReady hb).2) fun ha => (releasable ha).1.2
        expander := fun h => h.elim (fun hp => (stageAt hp).2.1) fun ha => (releasable ha).2.1 }
      release := {
        prepass := fun hp => (stageAt hp).2.2
        active := fun ha => (releasable ha).2.2
        amount := fun hp => (stageAt hp).2 } }

end Sys2Proof.Machine
end

section
/-! PROOF. Every operation of a sound state answers a sound state: faults and answers, the elements of a block's set-up, the
symbols, the inverse BWT and the derandomiser. -/

namespace Sys2Proof.Machine

/-! ### Faults, answers, and steps that change nothing a stage needs -/

/-- Between commands and with no block active nothing is owed. -/
theorem sound_of_inactive {s : State} (hp : s.seq.pos = .idle) (hi : PhaseInv s)
    (ha : s.ctrl.phase ≠ .blockActive) : Sound s :=
  sound_iff.2 ⟨hi, by rw [hp]; exact fun h => absurd (active_iff.1 h).1 ha⟩

theorem raiseFault_sound (k : FaultKind) (s : State) : Sound (raiseFault k s) := by
  have hcode : k.code ≠ 0 ∧ k.code.toNat ≤ 17 := by cases k <;> decide
  exact sound_of_inactive rfl ((phaseInv_idle rfl).2 ⟨nofun, ⟨fun _ => hcode.1, fun _ => rfl⟩, hcode.2⟩) nofun

/-- An answer ends the command: no block may be pending, and an active one must be releasable. -/
theorem respond_sound {s : State} (r : Response) (hphase : s.ctrl.phase ≠ .blockPending)
    (hfault : (s.ctrl.phase = .faulted ↔ s.ctrl.faultCode ≠ 0) ∧ s.ctrl.faultCode.toNat ≤ 17)
    (ha : s.active = true → Releasable s) : Sound (s.respond r) :=
  sound_iff.2 ⟨(phaseInv_idle rfl).2 ⟨hphase, hfault⟩, ha⟩

/-- A step that leaves the control registers, the sequencer, the expander, the memories and the block's length. -/
theorem Sound.frame {s t : State} (h : Sound s) (hctrl : t.ctrl = s.ctrl) (hseq : t.seq = s.seq) (hexp : t.exp = s.exp)
    (hmem : t.mem = s.mem) (hn : t.sym.n = s.sym.n) (hrun : t.sym.runLen = s.sym.runLen) : Sound t := by
  obtain ⟨⟨p1, p2, p3, p4, p5, p6⟩, ⟨m1, m2, m3, m4, m5⟩, ⟨r1, r2, r3⟩⟩ := h
  constructor
  · constructor <;> simpa only [hctrl, hseq]
  · constructor <;> simpa only [State.active, hctrl, hseq, hexp, hmem, hn, hrun]
  · constructor <;> simpa only [State.active, expansionLeft, reconFrom, hctrl, hseq, hexp, hmem, hn]

theorem Sound.consume {s : State} (h : Sound s) (i : Instr) : Sound (s.consume i) := h.frame rfl rfl rfl rfl rfl rfl

theorem Sound.host {s : State} (h : Sound s) (p : HostPort) : Sound { s with host := p } := h.frame rfl rfl rfl rfl rfl rfl

theorem Sound.takeSymbolSlot {s : State} (h : Sound s) : Sound (takeSymbolSlot s) := by
  obtain ⟨_, _, _, e⟩ := takeSymbolSlot_eq s
  rw [e]
  exact h.frame rfl rfl rfl rfl rfl rfl

theorem Sound.awaitSource {s : State} (h : Sound s) : Sound s.awaitSource := by
  rcases awaitSource_cases s with ⟨-, e⟩ | ⟨_, _, -, e⟩ <;> rw [e]
  · exact h
  · exact h.frame rfl rfl rfl rfl rfl rfl

theorem Sound.stage {s : State} {p : Position} (h : Sound s) (hp : s.seq.pos = p) : StageSafe s p := hp ▸ (sound_iff.1 h).2

theorem Sound.running {s : State} (h : Sound s) (hp : s.seq.pos ≠ .idle) :
    s.ctrl.phase = s.seq.pos.phase ∧ s.ctrl.closed = false ∧ s.ctrl.faultCode = 0 := (phaseInv_running hp).1 h.phase

/-- While the memories are allocated each has `CAPACITY` entries (20_memory.md R99). -/
theorem entries_of_allocated {s : State} (h : s.mem.allocated = true) : s.entries = s.ctrl.capacity := if_pos h

/-! ### The set-up of a block -/

/-- The positions of a block before its first symbol, which touch no memory. -/
def Position.setsUp : Position → Bool
  | .marker => true
  | .inUse => true
  | .nTrees => true
  | .nSel => true
  | .sel => true
  | .lBase => true
  | .lCode => true
  | .build => true
  | .startSymbols => true
  | _ => false

theorem Position.inBlock_of_setsUp {p : Position} (h : p.setsUp = true) : p.inBlock = true := by
  cases p with
  | idle | header | symbol | invBwt | derand | prepassStart | prepass | release => cases h
  | _ => rfl

theorem stageSafe_setsUp {s : State} {p : Position} (h : p.setsUp = true) (hm : s.mem.allocated = true) :
    StageSafe s p := by
  cases p with
  | idle | header | symbol | invBwt | derand | prepassStart | prepass | release => cases h
  | _ => exact hm

/-- A step from inside a block to its set-up. -/
theorem Sound.toSetUp {s t : State} (h : Sound s) (hs : s.seq.pos.inBlock = true) (ht : t.seq.pos.setsUp = true)
    (hc : t.ctrl = s.ctrl) (hm : t.mem = s.mem) : Sound t :=
  sound_iff.2 ⟨h.phase.moved hs (Position.inBlock_of_setsUp ht) hc,
    stageSafe_setsUp ht (hm ▸ (h.stage rfl).allocated hs)⟩

theorem Sound.nextSelector {s t : State} (h : Sound s) (hs : s.seq.pos.inBlock = true) (hc : t.ctrl = s.ctrl)
    (hm : t.mem = s.mem) : Sound (nextSelector t) := by
  rcases nextSelector_cases t with ⟨-, e⟩ | ⟨-, e⟩ <;> rw [e] <;> exact h.toSetUp hs rfl hc hm

theorem Sound.afterLength {s t : State} (h : Sound s) (hs : s.seq.pos.inBlock = true) (hc : t.ctrl = s.ctrl)
    (hm : t.mem = s.mem) : Sound (afterLength t) := by
  obtain ⟨sym, tree, p, hp, e⟩ := afterLength_eq t
  have hsets : p.setsUp = true := by rcases hp with rfl | rfl | rfl <;> rfl
  exact e ▸ h.toSetUp hs hsets hc hm

theorem Sound.buildTree {s : State} (h : Sound s) (hs : s.seq.pos.inBlock = true) : Sound (buildTree s) := by
  rcases buildTree_cases s with e | e | ⟨p, hp, e⟩ <;> rw [e]
  · exact raiseFault_sound _ s
  · exact raiseFault_sound _ s
  · have hsets : p.setsUp = true := by rcases hp with rfl | rfl <;> rfl
    exact h.toSetUp hs hsets rfl rfl

/-- NextMarker ends between commands in DONE, and in the release pass or between commands with a block just made active
(47_stream_control.md R287, R292). -/
theorem afterMarker_sound {s : State} (hphase : s.ctrl.phase = .done ∨ s.ctrl.phase = .blockActive)
    (hclosed : s.ctrl.closed = false) (hfault : s.ctrl.faultCode = 0) (ha : s.active = true → Releasable s) :
    Sound (afterMarker s) := by
  have answer (r : Response) : Sound (s.respond r) := by
    refine respond_sound r ?_ ⟨?_, by rw [hfault]; exact Nat.zero_le _⟩ ha
    · rcases hphase with e | e <;> rw [e] <;> nofun
    · rw [hfault]
      rcases hphase with e | e <;> rw [e] <;> decide
  rcases afterMarker_cases s with ⟨-, e⟩ | ⟨-, -, e⟩ | ⟨-, hne, e⟩ <;> rw [e]
  · exact answer _
  · exact answer _
  · have hactive := hphase.resolve_left hne
    refine sound_iff.2 ⟨(phaseInv_running ?_).2 ⟨hactive, hclosed, hfault⟩, ha (active_iff.2 ⟨hactive, hclosed⟩),
      Nat.min_le_right _ _⟩
    nofun

theorem Sound.execEos {scrc : Word} {s t : State} (h : Sound s) (hp : s.seq.pos = .marker) (hx : execEos scrc s = .next t) :
    Sound t := by
  obtain ⟨-, hclosed, hfault⟩ := h.running (by rw [hp]; decide)
  rcases execEos_cases hx with rfl | rfl
  · exact raiseFault_sound _ _
  · exact afterMarker_sound (.inl rfl) hclosed hfault fun ha => absurd (active_iff.1 ha).1 nofun

/-! ### The symbols -/

theorem Sound.startSymbols {s : State} (h : Sound s) (hp : s.seq.pos = .startSymbols) : Sound (startSymbols s) :=
  sound_iff.2 ⟨h.phase.moved (by rw [hp]; rfl) rfl rfl, h.stage hp, Nat.zero_le _, Written.zero _⟩

theorem Sound.runSymbol {s : State} (h : Sound s) (hp : s.seq.pos = .symbol) (v : Nat) : Sound (runSymbol v s) := by
  obtain ⟨halloc, -, hw⟩ := h.stage hp
  unfold Machine.runSymbol
  dsimp only
  split
  · exact raiseFault_sound _ _
  · rename_i ho
    rw [overflows_iff] at ho
    exact sound_iff.2 ⟨h.phase.moved (by rw [hp]; rfl) rfl rfl, halloc, not_lt.1 ho, hw⟩

theorem Sound.flushRun_total {s : State} (h : Sound s) (hp : s.seq.pos = .symbol) : ∃ t, flushRun s = .ok t := by
  obtain ⟨halloc, hfit, -⟩ := h.stage hp
  exact Machine.flushRun_total (by rwa [entries_of_allocated halloc])

/-- A flush writes the pending run after the block's bytes (42_mtf_symbols.md R197). -/
theorem Sound.flushRun {s t : State} (h : Sound s) (hp : s.seq.pos = .symbol) (hf : flushRun s = .ok t) :
    Sound t ∧ t.seq.pos = .symbol := by
  obtain ⟨halloc, hfit, hw⟩ := h.stage hp
  obtain ⟨buf, rfl, -, hcells⟩ := flushRun_ok hf
  have hw' : Written buf (s.sym.n + s.sym.runLen) := fun k hk => by
    rw [hcells]
    split
    · rfl
    · exact hw k (by omega)
  refine ⟨sound_iff.2 ⟨h.phase.moved (by rw [hp]; rfl) (by rw [hp]; rfl) rfl, ?_⟩, hp⟩
  show StageSafe _ s.seq.pos
  rw [hp]
  exact ⟨halloc, hfit, hw'⟩

theorem Sound.mtfSymbol {v : Nat} {s t : State} (h : Sound s) (hp : s.seq.pos = .symbol) (h0 : s.sym.runLen = 0)
    (hf : mtfSymbol v s = .ok t) : Sound t := by
  obtain ⟨halloc, -, hw⟩ := h.stage hp
  rcases mtfSymbol_ok hf with ⟨-, rfl⟩ | ⟨hcap, -, rfl⟩
  · exact raiseFault_sound _ s
  · refine sound_iff.2 ⟨h.phase.moved (by rw [hp]; rfl) rfl rfl, halloc, ?_, hw.cellWrite_next _⟩
    show s.sym.n + 1 + s.sym.runLen ≤ s.ctrl.capacity
    omega

/-- A symbol answers a sound state. -/
theorem Sound.symbol {n : Nat} {i : Instr} {s : State} (h : Sound s) (hp : s.seq.pos = .symbol) (hi : SymbolElement n i) :
    ∃ t, exec i s = .next t ∧ Sound t := by
  have hc := h.consume i
  obtain ⟨u, hu⟩ := hc.flushRun_total hp
  obtain ⟨hsu, hpu⟩ := hc.flushRun hp hu
  cases hi with
  | runA code => exact ⟨_, rfl, hc.runSymbol hp 0⟩
  | runB code => exact ⟨_, rfl, hc.runSymbol hp 1⟩
  | mtf v code =>
    obtain ⟨t, ht⟩ := mtfSymbol_total (v := v) (entries_of_allocated (hsu.stage hpu).1)
    have h0 : u.sym.runLen = 0 := by
      obtain ⟨_, rfl, -⟩ := flushRun_ok hu
      rfl
    refine ⟨t, ?_, hsu.mtfSymbol hpu h0 ht⟩
    rw [exec, execMtf, hu]
    exact congrArg outcomeOf ht
  | eob code =>
    obtain ⟨halloc, hfit, hw⟩ := hsu.stage hpu
    refine ⟨u.goto .invBwt, by rw [exec, execEob, hu]; rfl, ?_⟩
    exact sound_iff.2 ⟨hsu.phase.moved (by rw [hpu]; rfl) rfl rfl, halloc, (Nat.le_add_right _ _).trans hfit, hw⟩
  | invalidSym v code => exact ⟨_, by rw [exec, execInvalidSym, hu]; rfl, raiseFault_sound .invalidSymbol u⟩
  | huffNoMatch bits => exact ⟨_, rfl, raiseFault_sound _ _⟩

/-! ### The inverse BWT and the derandomiser -/

theorem Sound.inverseBwt {s t : State} (h : Sound s) (hp : s.seq.pos = .invBwt) (hx : inverseBwt s = .ok t) : Sound t := by
  obtain ⟨halloc, hfit, -⟩ := h.stage hp
  unfold Machine.inverseBwt at hx
  split at hx
  · cases hx
    exact raiseFault_sound _ s
  · obtain ⟨_, _, _, _, recon, _, -, -, -, hwalk, rfl⟩ := invertBlock_ok hx
    have hw : Written recon (0 + s.sym.n) := (chainWalk_ok hwalk).2 (Written.zero _)
    rw [Nat.zero_add] at hw
    exact sound_iff.2 ⟨h.phase.moved (by rw [hp]; rfl) rfl rfl, halloc, hfit, hw⟩

theorem Sound.derandomise_total {s : State} (h : Sound s) (hp : s.seq.pos = .derand) : ∃ t, derandomise s = .ok t := by
  obtain ⟨halloc, hfit, hw⟩ := h.stage hp
  unfold derandomise
  split
  · obtain ⟨⟨recon, d⟩, hd⟩ := derandLoop_total (k := 0) (left := s.sym.n) (limit := s.entries) ⟨0, 0⟩
      (by rwa [Nat.zero_add]) (by rwa [Nat.zero_add, entries_of_allocated halloc])
    rw [hd]
    exact ⟨_, rfl⟩
  · exact ⟨_, rfl⟩

theorem Sound.derandomise {s t : State} (h : Sound s) (hp : s.seq.pos = .derand) (hx : derandomise s = .ok t) :
    Sound t := by
  obtain ⟨halloc, hfit, hw⟩ := h.stage hp
  have hi {t : State} (hpos : t.seq.pos.inBlock = true) (hc : t.ctrl = s.ctrl) : PhaseInv t :=
    h.phase.moved (by rw [hp]; rfl) hpos hc
  rcases derandomise_ok hx with ⟨-, rfl⟩ | ⟨-, _, _, hd, rfl⟩
  · exact sound_iff.2 ⟨hi rfl rfl, halloc, hfit, hw⟩
  · exact sound_iff.2 ⟨hi rfl rfl, halloc, hfit, (derandLoop_ok hd).2 _ hw⟩

/-! ### The elements of the stream -/

/-- The symbols that flush the pending run into `BUF` (42_mtf_symbols.md R195). -/
def flushes : Instr → Bool
  | .mtf _ _ => true
  | .eob _ => true
  | .invalidSym _ _ => true
  | _ => false

/-- Nothing but a flush can stop an instruction. -/
theorem exec_answers {i : Instr} (hi : flushes i = false) (s : State) : ∃ t, exec i s = .next t := by
  cases i with
  | mtf => cases hi
  | eob => cases hi
  | invalidSym => cases hi
  | eos => simp only [exec, execEos]; split <;> exact ⟨_, rfl⟩
  | inUse => simp only [exec, execInUse]; split <;> exact ⟨_, rfl⟩
  | nTrees => simp only [exec, execNTrees]; split <;> exact ⟨_, rfl⟩
  | nSel => simp only [exec, execNSel]; split <;> exact ⟨_, rfl⟩
  | read =>
    simp only [exec, execRead]
    split
    · exact ⟨_, rfl⟩
    split
    · exact ⟨_, rfl⟩
    split
    · exact ⟨_, rfl⟩
    split <;> exact ⟨_, rfl⟩
  | close => simp only [exec, execClose]; split <;> exact ⟨_, rfl⟩
  | getCaps => simp only [exec, execGetCaps]; split <;> exact ⟨_, rfl⟩
  | _ => exact ⟨_, rfl⟩

theorem Sound.element_answers {s u : State} {i : Instr} (h : Sound s) (he : ElementAt s i u) : ∃ t, exec i u = .next t := by
  cases he
  case symbol hp _ hi =>
    obtain ⟨t, hx, -⟩ := h.takeSymbolSlot.symbol (by rw [takeSymbolSlot_seq]; exact hp) hi
    exact ⟨t, hx⟩
  all_goals exact exec_answers rfl s

theorem Sound.element {s t u : State} {i : Instr} (h : Sound s) (he : ElementAt s i u) (hx : exec i u = .next t) :
    Sound t := by
  cases he with
  | hdr d hp =>
    obtain ⟨-, hclosed, hfault⟩ := h.running (by rw [hp]; decide)
    cases hx
    refine sound_iff.2 ⟨(phaseInv_running ?_).2 ⟨rfl, hclosed, hfault⟩, rfl⟩
    nofun
  | hdrBadMagic => cases hx; exact raiseFault_sound _ _
  | hdrBadSize => cases hx; exact raiseFault_sound _ _
  | blk bcrc rand origPtr hp =>
    rw [← Host.Outcome.next.inj hx]
    exact h.toSetUp (by rw [hp]; rfl) rfl (by simp) (by simp)
  | eos scrc hp => exact h.execEos hp hx
  | badMark => cases hx; exact raiseFault_sound _ _
  | inUse g fields hp =>
    rcases execInUse_cases hx with rfl | rfl
    · exact raiseFault_sound _ _
    · exact h.toSetUp (by rw [hp]; rfl) rfl rfl rfl
  | nTrees n hp =>
    rcases execNTrees_cases hx with rfl | ⟨-, -, rfl⟩
    · exact raiseFault_sound _ _
    · exact h.toSetUp (by rw [hp]; rfl) rfl rfl rfl
  | nSel n hp =>
    rcases execNSel_cases hx with rfl | rfl
    · exact raiseFault_sound _ _
    · exact h.nextSelector (by rw [hp]; rfl) rfl rfl
  | sel j hp => cases hx; exact h.nextSelector (by rw [hp]; rfl) rfl rfl
  | selOverrun => cases hx; exact raiseFault_sound _ _
  | lBase l hp => cases hx; exact h.toSetUp (by rw [hp]; rfl) rfl rfl rfl
  | lEnd hp => cases hx; exact h.afterLength (by rw [hp]; rfl) rfl rfl
  | lInc hp => cases hx; exact h.toSetUp (by rw [hp]; rfl) (by simp [hp, Position.setsUp]) rfl rfl
  | lDec hp => cases hx; exact h.toSetUp (by rw [hp]; rfl) (by simp [hp, Position.setsUp]) rfl rfl
  | symbol hp _ hi =>
    obtain ⟨t', hx', ht⟩ := h.takeSymbolSlot.symbol (by rw [takeSymbolSlot_seq]; exact hp) hi
    obtain rfl : t' = t := Host.Outcome.next.inj (hx'.symm.trans hx)
    exact ht

end Sys2Proof.Machine
end

section
/-! PROOF. The expander and its two passes over a sound state (46_output_rle.md R266 to R272), the host's commands, and the
whole: a sound state always steps to a sound one. -/

namespace Sys2Proof.Machine

/-! ### The bytes still to come -/

theorem reconFrom_end (s : State) : reconFrom s s.sym.n = [] := by rw [reconFrom, Nat.sub_self]; rfl

theorem reconFrom_of_lt {s : State} {k : Nat} {b : Byte} (hk : k < s.sym.n) (hb : cellRead s.mem.recon k = some b) :
    reconFrom s k = b :: reconFrom s (k + 1) := by
  obtain ⟨m, hm⟩ : ∃ m, s.sym.n - k = m + 1 := ⟨s.sym.n - k - 1, by omega⟩
  have hm' : s.sym.n - (k + 1) = m := by omega
  rw [reconFrom, reconFrom, hm, hm', List.range_succ_eq_map]
  simp [hb, Nat.add_assoc, Nat.add_comm 1]

/-- With no copy owed the bytes to come are the expansion of the rest of `RECON`. -/
theorem expansionLeft_of_rep_zero {s : State} (h : s.exp.rep = 0) :
    expansionLeft s = expandFrom s.exp.run s.exp.prev (reconFrom s s.exp.pos) := by
  simp [expansionLeft, h]

/-- The expander has gone on from `s` to `t` and returned `out`: those were the next bytes, and the pass in progress has
counted them (46_output_rle.md R271, R272). -/
structure Emits (s t : State) (out : List Byte) : Prop where
  left : expansionLeft s = (expansionLeft t).map (out ++ ·)
  ready : ExpanderReady t
  ctrl : t.ctrl = s.ctrl
  mem : t.mem = s.mem
  sym : t.sym = s.sym
  pos : t.seq.pos = s.seq.pos
  released : s.ctrl.phase = .blockActive →
    t.exp.remaining = s.exp.remaining - out.length ∧ t.seq.readLeft = s.seq.readLeft - out.length
  counted : s.ctrl.phase ≠ .blockActive → t.seq.expCount = s.seq.expCount + out.length

theorem Emits.trans {s t u : State} {out out' : List Byte} (h : Emits s t out) (h' : Emits t u out') :
    Emits s u (out ++ out') where
  left := by
    rw [h.left, h'.left, Option.map_map]
    simp only [Function.comp_def, List.append_assoc]
  ready := h'.ready
  ctrl := h'.ctrl.trans h.ctrl
  mem := h'.mem.trans h.mem
  sym := h'.sym.trans h.sym
  pos := h'.pos.trans h.pos
  released hp := by
    obtain ⟨h1, h2⟩ := h.released hp
    obtain ⟨h3, h4⟩ := h'.released (by rw [h.ctrl, hp])
    rw [List.length_append]
    omega
  counted hp := by
    have h1 := h.counted hp
    have h2 := h'.counted (by rwa [h.ctrl])
    rw [List.length_append]
    omega

/-- A returned byte, once the expander's registers stand after it. -/
theorem returnByte_emits {s : State} {e : Expander} {b : Byte}
    (hleft : expansionLeft s = (expansionLeft { s with exp := e }).map (b :: ·))
    (hready : ExpanderReady { s with exp := e })
    (hrem : e.remaining = s.exp.remaining) : Emits s (returnByte b { s with exp := e }) [b] := by
  rcases returnByte_cases b { s with exp := e } with ⟨hp, eq⟩ | ⟨hp, eq⟩ <;> rw [eq]
  · exact {
      left := hleft, ready := hready, ctrl := rfl, mem := rfl, sym := rfl, pos := rfl
      released := fun _ => ⟨congrArg (· - 1) hrem, rfl⟩
      counted := absurd hp }
  · exact {
      left := hleft, ready := hready, ctrl := rfl, mem := rfl, sym := rfl, pos := rfl
      released := fun h => absurd h hp
      counted := fun _ => rfl }

/-- An owed copy returns the previous byte (46_output_rle.md R266). -/
theorem owedCopy_emits {s : State} (hready : ExpanderReady s) (hr : 0 < s.exp.rep) : ∃ b, Emits s (owedCopy s) [b] := by
  obtain ⟨hpos, hrun, hprev⟩ := hready
  obtain ⟨b, hb⟩ := Option.ne_none_iff_exists'.1 (hprev (.inr hr))
  have hbyte : prevByte s = b := prevByte_some hb
  refine ⟨b, ?_⟩
  rw [owedCopy, hbyte]
  refine returnByte_emits ?_ ⟨hpos, hrun, fun _ => by rw [hb]; exact Option.some_ne_none b⟩ rfl
  obtain ⟨m, hm⟩ : ∃ m, s.exp.rep = m + 1 := ⟨s.exp.rep - 1, by omega⟩
  have hleft : expansionLeft { s with exp := { s.exp with rep := s.exp.rep - 1 } } =
      (expandFrom s.exp.run s.exp.prev (reconFrom s s.exp.pos)).map (List.replicate m (s.exp.prev.getD 0) ++ ·) := by
    rw [hm]
    rfl
  rw [hleft, expansionLeft, hm, hb, Option.map_map]
  rfl

/-- LIT returns its byte (46_output_rle.md R267). -/
theorem execLit_emits {s : State} {b : Byte} (hready : ExpanderReady s) (hr : s.exp.rep = 0) (h4 : s.exp.run ≠ 4)
    (hlt : s.exp.pos < s.sym.n) (hb : cellRead s.mem.recon s.exp.pos = some b) :
    ∃ t, execLit b s = .next t ∧ Emits s t [b] := by
  obtain ⟨-, hrun, hprev⟩ := hready
  have hsame : (1 ≤ s.exp.run ∧ b = prevByte s) ↔ (1 ≤ s.exp.run ∧ s.exp.prev = some b) := by
    refine and_congr_right fun h1 => ?_
    obtain ⟨p, hp⟩ := Option.ne_none_iff_exists'.1 (hprev (.inl h1))
    rw [prevByte_some hp, hp, Option.some.injEq, eq_comm]
  refine ⟨_, rfl, returnByte_emits ?_ ⟨hlt, ?_, fun _ => Option.some_ne_none b⟩ rfl⟩
  · rw [expansionLeft_of_rep_zero hr, reconFrom_of_lt hlt hb, expandFrom, if_neg h4]
    simp only [expansionLeft_of_rep_zero, hr, hsame]
    rfl
  · dsimp only
    split <;> omega

/-- COUNT returns the first of the copies it asks for, if any (46_output_rle.md R268). -/
theorem execCount_emits {s : State} {b : Byte} (hready : ExpanderReady s) (hr : s.exp.rep = 0) (h4 : s.exp.run = 4)
    (hlt : s.exp.pos < s.sym.n) (hb : cellRead s.mem.recon s.exp.pos = some b) :
    ∃ t out, execCount b s = .next t ∧ Emits s t out := by
  obtain ⟨-, -, hprev⟩ := hready
  have hcount : Emits s { s with exp := { s.exp with pos := s.exp.pos + 1, rep := countCopies b, run := 0 } } [] := {
    left := by
      rw [expansionLeft_of_rep_zero hr, reconFrom_of_lt hlt hb, expandFrom, if_pos h4]
      simp only [List.nil_append, Option.map_id']
      rfl
    ready := ⟨hlt, Nat.zero_le _, fun _ => hprev (.inl (by omega))⟩
    ctrl := rfl, mem := rfl, sym := rfl, pos := rfl
    released := fun _ => ⟨rfl, rfl⟩
    counted := fun _ => rfl }
  unfold execCount
  dsimp only
  split
  · obtain ⟨p, hp⟩ := owedCopy_emits hcount.ready ‹_›
    exact ⟨_, _, rfl, hcount.trans hp⟩
  · exact ⟨_, _, rfl, hcount⟩

/-- `ExpandNext()` over a written block (46_output_rle.md R266): an owed copy, the end of the block, a count byte that is
missing at the end, or the next byte of `RECON`. -/
theorem expandNext_cases {s : State} (atEnd : Result) (hblock : BlockReady s) (hready : ExpanderReady s) :
    0 < s.exp.rep ∨ (s.exp.rep = 0 ∧ s.exp.pos = s.sym.n ∧ s.exp.run ≠ 4) ∨
      (s.exp.rep = 0 ∧ s.exp.pos = s.sym.n ∧ s.exp.run = 4 ∧ expandNext atEnd s = .instr .rleTrunc s) ∨
      ∃ b, s.exp.rep = 0 ∧ s.exp.pos < s.sym.n ∧ cellRead s.mem.recon s.exp.pos = some b ∧
        expandNext atEnd s = .instr (if s.exp.run = 4 then .count b else .lit b) s := by
  obtain ⟨halloc, hfit, hw⟩ := hblock
  by_cases hr : 0 < s.exp.rep
  · exact .inl hr
  have hr0 : s.exp.rep = 0 := by omega
  refine .inr ?_
  by_cases hend : s.exp.pos = s.sym.n
  · by_cases h4 : s.exp.run = 4
    · refine .inr (.inl ⟨hr0, hend, h4, expandNext_of_decode (rest := []) atEnd hr0 (if_pos hend) ?_⟩)
      rw [h4]
      rfl
    · exact .inl ⟨hr0, hend, h4⟩
  · have hlt : s.exp.pos < s.sym.n := lt_of_le_of_ne hready.1 hend
    have hl : s.sym.n ≤ s.entries := (entries_of_allocated halloc).symm ▸ hfit
    obtain ⟨b, hread, hb⟩ := readEntry_written (name := .recon) hw hlt hl
    refine .inr (.inr ⟨b, hr0, hlt, hb, expandNext_of_decode (bits := bitsOf 8 b.toNat) (rest := []) atEnd hr0 ?_ ?_⟩)
    · rw [reconBits, if_neg hend, hread]
      rfl
    · have hfield := takeField_bitsOf 8 b.toNat []
      rw [List.append_nil, Nat.mod_eq_of_lt b.isLt] at hfield
      have hne : (bitsOf 8 b.toNat).isEmpty = false := rfl
      rw [decode, decodeRecon, hne, hfield]
      simp [bind, Except.bind, pure, Except.pure]

/-! ### The two passes -/

/-- The next byte of the pre-pass (46_output_rle.md R271). -/
theorem Sound.prepass_emits {s t : State} {out : List Byte} (h : Sound s) (hp : s.seq.pos = .prepass) (he : Emits s t out) :
    Sound t := by
  obtain ⟨⟨halloc, hfit, hw⟩, -, hcount⟩ := h.stage hp
  have hpos : t.seq.pos = .prepass := he.pos.trans hp
  obtain ⟨hphase, -⟩ := h.running (by rw [hp]; decide)
  refine sound_iff.2 ⟨h.phase.moved (by rw [hp]; rfl) (by rw [hpos]; rfl) he.ctrl, ?_⟩
  rw [hpos]
  refine ⟨?_, he.ready, ?_⟩
  · unfold BlockReady
    rw [he.mem, he.sym, he.ctrl]
    exact ⟨halloc, hfit, hw⟩
  · have hrecon : reconFrom t 0 = reconFrom s 0 := by rw [reconFrom, reconFrom, he.mem, he.sym]
    rw [hrecon, hcount, he.left, Option.map_map, he.counted (by rw [hphase, hp]; nofun)]
    simp only [Function.comp_def, List.length_append, Nat.add_assoc]

/-- The next byte of the release pass (46_output_rle.md R272). -/
theorem Sound.release_emits {s t : State} {out : List Byte} (h : Sound s) (hp : s.seq.pos = .release) (he : Emits s t out) :
    Sound t := by
  obtain ⟨⟨⟨halloc, hfit, hw⟩, -, hleft⟩, hamount⟩ := h.stage hp
  have hpos : t.seq.pos = .release := he.pos.trans hp
  have hrun := h.running (by rw [hp]; decide)
  have hphase : s.ctrl.phase = .blockActive := hrun.1.trans (by rw [hp]; rfl)
  obtain ⟨hrem, hread⟩ := he.released hphase
  refine sound_iff.2 ⟨(phaseInv_running (by rw [hpos]; nofun)).2 (by rw [he.ctrl, he.pos]; exact hrun), ?_⟩
  rw [hpos]
  refine ⟨⟨?_, he.ready, ?_⟩, by rw [hrem, hread]; omega⟩
  · unfold BlockReady
    rw [he.mem, he.sym, he.ctrl]
    exact ⟨halloc, hfit, hw⟩
  · rw [he.left, Option.map_map] at hleft
    obtain ⟨rest, hrest, hlen⟩ := Option.map_eq_some_iff.1 hleft
    rw [hrest, hrem, ← hlen]
    simp

/-- The pre-pass starts with the whole block before it and no byte counted (46_output_rle.md R271). -/
theorem Sound.startPrepass {s : State} (h : Sound s) (hp : s.seq.pos = .prepassStart) : Sound (startPrepass s) := by
  refine sound_iff.2 ⟨h.phase.moved (by rw [hp]; rfl) rfl rfl, h.stage hp,
    ⟨Nat.zero_le _, Nat.zero_le _, fun h => by simp [Machine.startPrepass] at h⟩, ?_⟩
  rw [expansionLeft_of_rep_zero rfl]
  simp [Machine.startPrepass]

/-- With no copy owed at the end of `RECON` and no count byte due, no byte is left. -/
theorem expansionLeft_end {s : State} (hr : s.exp.rep = 0) (hn : s.exp.pos = s.sym.n) (h4 : s.exp.run ≠ 4) :
    expansionLeft s = some [] := by
  rw [expansionLeft_of_rep_zero hr, hn, reconFrom_end, expandFrom, if_neg h4]

/-- A missing count byte leaves nothing to expand. -/
theorem expansionLeft_missing {s : State} (hr : s.exp.rep = 0) (hn : s.exp.pos = s.sym.n) (h4 : s.exp.run = 4) :
    expansionLeft s = none := by
  rw [expansionLeft_of_rep_zero hr, hn, reconFrom_end, expandFrom, if_pos h4]

/-- A block whose pre-pass ends with its CRC is active, and the bytes counted are those it releases
(46_output_rle.md R271). -/
theorem Sound.finishPrepass {s : State} (h : Sound s) (hp : s.seq.pos = .prepass) (hr : s.exp.rep = 0)
    (hn : s.exp.pos = s.sym.n) (h4 : s.exp.run ≠ 4) : Sound (finishPrepass s) := by
  obtain ⟨hblock, -, hcount⟩ := h.stage hp
  obtain ⟨-, hclosed, hfault⟩ := h.running (by rw [hp]; decide)
  rw [expansionLeft_end hr hn h4] at hcount
  rcases finishPrepass_cases s with ⟨-, e⟩ | ⟨-, e⟩ <;> rw [e]
  · exact raiseFault_sound _ _
  exact afterMarker_sound (.inr rfl) hclosed hfault fun _ =>
    ⟨hblock, ⟨Nat.zero_le _, Nat.zero_le _, fun h => by simp at h⟩,
      (congrArg _ (expansionLeft_of_rep_zero rfl)).trans hcount⟩

/-- The released bytes end the READ, or the block (47_stream_control.md R287, R292). -/
theorem Sound.releaseDone {s : State} (h : Sound s) (hp : s.seq.pos = .release) : Sound (releaseDone s) := by
  obtain ⟨hready, -⟩ := h.stage hp
  obtain ⟨hphase, hclosed, hfault⟩ := h.running (by rw [hp]; decide)
  rcases releaseDone_cases s with ⟨-, e⟩ | ⟨-, e⟩ <;> rw [e]
  · refine sound_iff.2 ⟨(phaseInv_running ?_).2 ⟨rfl, hclosed, hfault⟩, hready.1.1⟩
    nofun
  · exact respond_sound _ (by rw [hphase, hp]; nofun) h.phase.fault fun _ => hready

/-! ### The host's commands -/

/-- An answer without effect between commands. -/
theorem Sound.answer {s : State} (h : Sound s) (hp : s.seq.pos = .idle) (r : Response) : Sound (s.respond r) :=
  respond_sound r (h.phase.idle hp) h.phase.fault (h.stage hp)

/-- A READ that starts has the header or an active block before it (47_stream_control.md R283, R287). -/
theorem Sound.startRead {s : State} (h : Sound s) (hp : s.seq.pos = .idle) (hclosed : s.ctrl.closed = false)
    (hfaulted : s.ctrl.phase ≠ .faulted) (hdone : s.ctrl.phase ≠ .done) (count : Nat) : Sound (startRead count s) := by
  have hfault : s.ctrl.faultCode = 0 := Classical.not_not.1 (hfaulted ∘ h.phase.fault.1.2)
  rcases startRead_cases count s with ⟨hheader, e⟩ | ⟨hheader, e⟩ <;> rw [e]
  · refine sound_iff.2 ⟨(phaseInv_running ?_).2 ⟨hheader, hclosed, hfault⟩, trivial⟩
    nofun
  · have hactive : s.ctrl.phase = .blockActive := by
      cases hphase : s.ctrl.phase with
      | header => exact absurd hphase hheader
      | blockPending => exact absurd hphase (h.phase.idle hp)
      | blockActive => rfl
      | done => exact absurd hphase hdone
      | faulted => exact absurd hphase hfaulted
    refine sound_iff.2 ⟨(phaseInv_running ?_).2 ⟨hactive, hclosed, hfault⟩,
      h.stage hp (active_iff.2 ⟨hactive, hclosed⟩), Nat.min_le_right _ _⟩
    nofun

theorem Sound.command {c : HostCmd} {i : Instr} {s t : State} (h : Sound s) (hp : s.seq.pos = .idle)
    (hd : decodeCommand c = some i) (hx : exec i s = .next t) : Sound t := by
  rcases exec_command_inv hd hx with
    ⟨r, rfl⟩ | ⟨hclosed, hfaulted, hdone, count, rfl⟩ | ⟨released, rfl⟩ | ⟨source, owns, rfl⟩
  · exact h.answer hp r
  · exact h.startRead hp hclosed hfaulted hdone count
  · exact respond_sound _ (h.phase.idle hp) h.phase.fault fun ha => by cases (active_iff.1 ha).2
  · exact sound_of_inactive rfl ((phaseInv_idle rfl).2 ⟨nofun, ⟨nofun, absurd rfl⟩, Nat.zero_le _⟩) nofun

/-! ### The whole -/

/-- Every stage of a sound state answers a sound state. -/
theorem Sound.stageTo {s t : State} (h : Sound s) (hs : StageTo s t) : Sound t := by
  cases hs with
  | noCommand => exact h
  | unknownCommand c rest hp => exact (h.host ⟨rest, s.host.responses⟩).answer hp _
  | badLength => exact raiseFault_sound _ s
  | build hp => exact h.buildTree (by rw [hp]; rfl)
  | startSymbols hp => exact h.startSymbols hp
  | usedUp => exact raiseFault_sound _ _
  | invBwt hp hx => exact h.inverseBwt hp hx
  | derand hp hx => exact h.derandomise hp hx
  | prepassStart hp => exact h.startPrepass hp
  | owedCopy hp hr =>
    rcases hp with hp | ⟨hp, -⟩
    · obtain ⟨b, he⟩ := owedCopy_emits (h.stage hp).2.1 hr
      exact h.prepass_emits hp he
    · obtain ⟨b, he⟩ := owedCopy_emits (h.stage hp).1.2.1 hr
      exact h.release_emits hp he
  | finishPrepass hp hr hn h4 => exact h.finishPrepass hp hr hn h4
  | releaseDone hp => exact h.releaseDone hp

/-- A state goes on: its step answers a sound state. -/
def GoesOn (s : State) : Prop := ∃ t, step s = .next t ∧ Sound t

theorem StageTo.goesOn {s t : State} (hs : StageTo s t) (h : Sound s) : GoesOn s :=
  ⟨t, step_of_stage hs.planned, h.stageTo hs⟩

/-- The next element is decoded and executed, or waited for. -/
theorem Sound.element_goesOn {s u : State} {ctx : DecodeCtx} (h : Sound s) (he : elementNext s = some (ctx, u)) :
    GoesOn s := by
  obtain ⟨i, rest, hd⟩ := elementNext_decodes he s.reader.src s.reader.bitpos
  have hplan : plannedWork s = .instr i u := by
    rw [plannedWork_element he, hd]
    rfl
  cases ha : u.reader.answers (readWidths i) with
  | false => exact ⟨_, step_of_wait hplan ha, h.awaitSource⟩
  | true =>
    have hel := elementAt_of_decode he hd
    obtain ⟨t, hx⟩ := h.element_answers hel
    exact ⟨t, (step_of_instr hplan ha).trans hx, h.element hel hx⟩

theorem Sound.idle_goesOn {s : State} (h : Sound s) (hp : s.seq.pos = .idle) : GoesOn s := by
  cases hc : s.host.cmds with
  | nil => exact (StageTo.noCommand hp hc).goesOn h
  | cons c rest =>
    cases hd : decodeCommand c with
    | none => exact (StageTo.unknownCommand c rest hp hc hd).goesOn h
    | some i =>
      have hplan : plannedWork s = .instr i { s with host := { s.host with cmds := rest } } := by
        simp [plannedWork, hp, takeCommand, hc, hd]
      have hflush : flushes i = false := by cases c <;> cases hd <;> rfl
      obtain ⟨t, hx⟩ := exec_answers hflush { s with host := { s.host with cmds := rest } }
      refine ⟨t, (step_of_instr hplan ?_).trans hx, (h.host ⟨rest, s.host.responses⟩).command hp hd hx⟩
      rw [readWidths_command hd, answers_nil]

/-- The next byte of `RECON`, in either pass. -/
theorem recon_emits {s : State} {b : Byte} (hready : ExpanderReady s) (hr : s.exp.rep = 0)
    (hlt : s.exp.pos < s.sym.n) (hb : cellRead s.mem.recon s.exp.pos = some b)
    (hplan : plannedWork s = .instr (if s.exp.run = 4 then .count b else .lit b) s) :
    ∃ t out, step s = .next t ∧ Emits s t out := by
  by_cases h4 : s.exp.run = 4
  · rw [if_pos h4] at hplan
    obtain ⟨t, out, hx, he⟩ := execCount_emits hready hr h4 hlt hb
    exact ⟨t, out, (step_of_instr hplan (answers_nil _)).trans hx, he⟩
  · rw [if_neg h4] at hplan
    obtain ⟨t, hx, he⟩ := execLit_emits hready hr h4 hlt hb
    exact ⟨t, [b], (step_of_instr hplan (answers_nil _)).trans hx, he⟩

theorem Sound.prepass_goesOn {s : State} (h : Sound s) (hp : s.seq.pos = .prepass) : GoesOn s := by
  obtain ⟨hblock, hready, -⟩ := h.stage hp
  have hwork : plannedWork s = expandNext (.next (Machine.finishPrepass s)) s := by rw [plannedWork, hp]
  rcases expandNext_cases (.next (Machine.finishPrepass s)) hblock hready with
    hr | ⟨hr, hn, h4⟩ | ⟨-, -, -, e⟩ | ⟨b, hr, hlt, hb, e⟩
  · exact (StageTo.owedCopy (.inl hp) hr).goesOn h
  · exact (StageTo.finishPrepass hp hr hn h4).goesOn h
  · exact ⟨_, step_of_instr (hwork.trans e) (answers_nil _), raiseFault_sound _ s⟩
  · obtain ⟨t, out, hstep, he⟩ := recon_emits hready hr hlt hb (hwork.trans e)
    exact ⟨t, hstep, h.prepass_emits hp he⟩

/-- The release pass does not meet the end of the block while a byte is owed to the READ (46_output_rle.md R272). -/
theorem Sound.release_goesOn {s : State} (h : Sound s) (hp : s.seq.pos = .release) : GoesOn s := by
  obtain ⟨⟨hblock, hready, hleft⟩, hamount⟩ := h.stage hp
  by_cases hl : s.seq.readLeft = 0
  · exact (StageTo.releaseDone hp hl).goesOn h
  have hwork : plannedWork s = expandNext (.fault .releaseEnded) s := by
    rw [plannedWork, hp]
    exact if_neg hl
  rcases expandNext_cases (.fault .releaseEnded) hblock hready with
    hr | ⟨hr, hn, h4⟩ | ⟨hr, hn, h4, -⟩ | ⟨b, hr, hlt, hb, e⟩
  · exact (StageTo.owedCopy (.inr ⟨hp, hl⟩) hr).goesOn h
  · rw [expansionLeft_end hr hn h4] at hleft
    have : 0 = s.exp.remaining := Option.some.inj hleft
    omega
  · rw [expansionLeft_missing hr hn h4] at hleft
    cases hleft
  · obtain ⟨t, out, hstep, he⟩ := recon_emits hready hr hlt hb (hwork.trans e)
    exact ⟨t, hstep, h.release_emits hp he⟩

theorem Sound.lCode_goesOn {s : State} (h : Sound s) (hp : s.seq.pos = .lCode) : GoesOn s := by
  by_cases hc : 1 ≤ s.seq.cur ∧ s.seq.cur ≤ 20
  · exact h.element_goesOn (ctx := .lCode) (u := s) (by rw [elementNext, hp]; exact if_pos hc)
  · exact (StageTo.badLength hp (lengthOutOfRange_iff.2 (by omega))).goesOn h

theorem Sound.symbol_goesOn {s : State} (h : Sound s) (hp : s.seq.pos = .symbol) : GoesOn s := by
  by_cases hu : s.sym.groupLeft = 0 ∧ (s.tab.numSel : Int) ≤ s.sym.groupIdx + 1
  · exact (StageTo.usedUp hp (selectorsUsedUp_iff.2 hu)).goesOn h
  · exact h.element_goesOn (by rw [elementNext, hp]; exact if_neg hu)

/-- Settles O50: at each position the step of a sound state answers, and what it answers is sound. -/
theorem soundStatesGoOn : Obligations.SoundStatesGoOn := by
  intro s h
  show GoesOn s
  cases hp : s.seq.pos with
  | idle => exact h.idle_goesOn hp
  | header => exact h.element_goesOn (by rw [elementNext, hp])
  | marker => exact h.element_goesOn (by rw [elementNext, hp])
  | inUse => exact h.element_goesOn (by rw [elementNext, hp])
  | nTrees => exact h.element_goesOn (by rw [elementNext, hp])
  | nSel => exact h.element_goesOn (by rw [elementNext, hp])
  | sel => exact h.element_goesOn (by rw [elementNext, hp])
  | lBase => exact h.element_goesOn (by rw [elementNext, hp])
  | lCode => exact h.lCode_goesOn hp
  | build => exact (StageTo.build hp).goesOn h
  | startSymbols => exact (StageTo.startSymbols hp).goesOn h
  | symbol => exact h.symbol_goesOn hp
  | invBwt =>
    obtain ⟨halloc, hfit, hw⟩ := h.stage hp
    obtain ⟨t, hx⟩ := inverseBwt_total ((entries_of_allocated halloc).symm ▸ hfit) hw
    exact (StageTo.invBwt hp hx).goesOn h
  | derand =>
    obtain ⟨t, hx⟩ := h.derandomise_total hp
    exact (StageTo.derand hp hx).goesOn h
  | prepassStart => exact (StageTo.prepassStart hp).goesOn h
  | prepass => exact h.prepass_goesOn hp
  | release => exact h.release_goesOn hp

end Sys2Proof.Machine
end

section
/-! PROOF. The encoder and the decoder are inverse (30_encoding.md R100 to R116): an element decodes from its encoding with
whatever follows left over, and the encoding of what decodes is exactly the bits consumed. -/

namespace Sys2Proof

/-! ### From the encoding to the element -/

/-- A field written from a value that fits reads as the value, and the element goes on with it. -/
theorem takeField_bind {α : Type} {n v : Nat} (h : v < 2 ^ n) (rest : List Bool)
    (f : Nat × List Bool → Except DecodeError α) : takeField n (bitsOf n v ++ rest) >>= f = f (v, rest) := by
  rw [takeField_bitsOf, Nat.mod_eq_of_lt h]
  rfl

/-- A field written from a word of its width reads as the word. -/
theorem takeField_word_bind {α : Type} {n : Nat} (x : BitVec n) (rest : List Bool)
    (f : Nat × List Bool → Except DecodeError α) : takeField n (bitsOf n x.toNat ++ rest) >>= f = f (x.toNat, rest) :=
  takeField_bind x.isLt rest f

/-- An element that is one field. -/
theorem decode_word {n : Nat} (x : BitVec n) (element : BitVec n → Instr) (rest : List Bool) :
    (takeField n (bitsOf n x.toNat ++ rest) >>= fun r => pure (element (BitVec.ofNat n r.1), r.2)) =
      .ok (element x, rest) := by
  rw [takeField_word_bind, BitVec.ofNat_toNat, BitVec.setWidth_eq]
  rfl

theorem takeGroups_flatMap (fields : List (BitVec 16)) (rest : List Bool) :
    takeGroups fields.length ((fields.flatMap fun f => bitsOf 16 f.toNat) ++ rest) = .ok (fields, rest) := by
  induction fields with
  | nil => rfl
  | cons f fields ih =>
    simp only [List.length_cons, takeGroups, List.flatMap_cons, List.append_assoc, takeField_word_bind, ih,
      BitVec.ofNat_toNat, BitVec.setWidth_eq]
    rfl

section
variable (rest : List Bool)

theorem decodeHeader_hdr {d : BitVec 4} (lo : 1 ≤ d.toNat) (hi : d.toNat ≤ 9) :
    decodeHeader (encode (.hdr d) ++ rest) = .ok (.hdr d, rest) := by
  have hdigit : ¬(0x30 + d.toNat < 0x31 ∨ 0x39 < 0x30 + d.toNat) := by omega
  simp (disch := omega) only [decodeHeader, encode, List.append_assoc, takeField_bind, ne_eq, not_true_eq_false, if_false,
    if_neg hdigit, Nat.add_sub_cancel_left, BitVec.ofNat_toNat, BitVec.setWidth_eq]
  rfl

theorem decodeHeader_hdrBadMagic {m : BitVec 24} (h : m ≠ 0x425A68) :
    decodeHeader (encode (.hdrBadMagic m) ++ rest) = .ok (.hdrBadMagic m, rest) := by
  have hm : m.toNat ≠ 0x425A68 := fun e => h (BitVec.eq_of_toNat_eq e)
  simp only [decodeHeader, encode, takeField_word_bind, if_pos hm, BitVec.ofNat_toNat, BitVec.setWidth_eq]
  rfl

theorem decodeHeader_hdrBadSize {d : Byte} (h : d.toNat < 0x31 ∨ 0x39 < d.toNat) :
    decodeHeader (encode (.hdrBadSize d) ++ rest) = .ok (.hdrBadSize d, rest) := by
  simp (disch := omega) only [decodeHeader, encode, List.append_assoc, takeField_bind, ne_eq, not_true_eq_false,
    if_false, if_pos h, BitVec.ofNat_toNat, BitVec.setWidth_eq]
  rfl

theorem decodeMarker_blk (bcrc : Word) (rand : Bool) (origPtr : BitVec 24) :
    decodeMarker (encode (.blk bcrc rand origPtr) ++ rest) = .ok (.blk bcrc rand origPtr, rest) := by
  have hmarker : Config.blockMarker < 2 ^ 48 := by decide
  have hrand : rand.toNat < 2 ^ 1 := rand.toNat_lt
  have hbit : (rand.toNat == 1) = rand := by cases rand <;> rfl
  simp only [decodeMarker, encode, List.append_assoc, takeField_bind hmarker, if_true, takeField_word_bind,
    takeField_bind hrand, hbit, BitVec.ofNat_toNat, BitVec.setWidth_eq]
  rfl

theorem decodeMarker_eos (scrc : Word) : decodeMarker (encode (.eos scrc) ++ rest) = .ok (.eos scrc, rest) := by
  have hmarker : Config.endMarker < 2 ^ 48 := by decide
  have hne : Config.endMarker ≠ Config.blockMarker := by decide
  simp only [decodeMarker, encode, List.append_assoc, takeField_bind hmarker, if_neg hne, if_true, takeField_word_bind,
    BitVec.ofNat_toNat, BitVec.setWidth_eq]
  rfl

theorem decodeMarker_badMark {m : BitVec 48} (hb : m.toNat ≠ Config.blockMarker) (he : m.toNat ≠ Config.endMarker) :
    decodeMarker (encode (.badMark m) ++ rest) = .ok (.badMark m, rest) := by
  simp only [decodeMarker, encode, takeField_word_bind, if_neg hb, if_neg he, BitVec.ofNat_toNat, BitVec.setWidth_eq]
  rfl

theorem decodeInUse_inUse {g : BitVec 16} {fields : List (BitVec 16)} (h : fields.length = groupCount g) :
    decodeInUse (encode (.inUse g fields) ++ rest) = .ok (.inUse g fields, rest) := by
  simp only [decodeInUse, encode, List.append_assoc, takeField_word_bind,
    BitVec.ofNat_toNat, BitVec.setWidth_eq, ← h, takeGroups_flatMap]
  rfl

/-- A byte of `RECON` (30_encoding.md R115 item 5). -/
theorem decodeRecon_byte (run : Nat) (b : Byte) :
    decodeRecon run (bitsOf 8 b.toNat ++ rest) = .ok (if run = 4 then .count b else .lit b, rest) := by
  have hmore : ¬(bitsOf 8 b.toNat ++ rest).isEmpty = true := Bool.false_ne_true
  simp only [decodeRecon, if_neg hmore, takeField_word_bind, BitVec.ofNat_toNat, BitVec.setWidth_eq]
  rfl

end

/-- Settles O1: an element that a position admits decodes from its encoding there, position by position. -/
theorem decodeInvertsEncode : Obligations.DecodeInvertsEncode := by
  intro ctx i rest hwf hadm
  cases ctx with
  | header =>
    cases i with
    | hdr d =>
      obtain ⟨lo, hi⟩ := of_decide_eq_true hwf
      exact decodeHeader_hdr rest lo hi
    | hdrBadMagic m => exact decodeHeader_hdrBadMagic rest (of_decide_eq_true hwf)
    | hdrBadSize d => exact decodeHeader_hdrBadSize rest (of_decide_eq_true hwf)
    | _ => cases hadm
  | marker =>
    cases i with
    | blk bcrc rand origPtr => exact decodeMarker_blk rest bcrc rand origPtr
    | eos scrc => exact decodeMarker_eos rest scrc
    | badMark m =>
      obtain ⟨hb, he⟩ := of_decide_eq_true hwf
      exact decodeMarker_badMark rest hb he
    | _ => cases hadm
  | inUse =>
    cases i with
    | inUse g fields => exact decodeInUse_inUse rest (of_decide_eq_true hwf)
    | _ => cases hadm
  | nTrees =>
    cases i with
    | nTrees t => exact decode_word t .nTrees rest
    | _ => cases hadm
  | nSel =>
    cases i with
    | nSel n => exact decode_word n .nSel rest
    | _ => cases hadm
  | sel numTrees =>
    cases i with
    | sel j =>
      have hj : j < numTrees := of_decide_eq_true hadm
      have h := decodeSel_replicate 0 ((Nat.zero_add j).trans_lt hj) rest
      rwa [Nat.zero_add, List.append_cons] at h
    | selOverrun ones =>
      obtain rfl : ones = numTrees := of_decide_eq_true hadm
      have hlo : 2 ≤ ones := (of_decide_eq_true hwf).1
      exact decodeSel_overrun 0 (Nat.zero_add ones) (by omega) rest
    | _ => cases hadm
  | lBase =>
    cases i with
    | lBase l => exact decode_word l .lBase rest
    | _ => cases hadm
  | lCode =>
    cases i with
    | lEnd => rfl
    | lInc => rfl
    | lDec => rfl
    | _ => cases hadm
  | symbol t numInUse => cases i <;> cases hadm
  | recon run =>
    cases i with
    | lit b => exact (decodeRecon_byte rest run b).trans (by rw [if_neg (of_decide_eq_true hadm)])
    | count n => exact (decodeRecon_byte rest run n).trans (by rw [if_pos (of_decide_eq_true hadm)])
    | _ => cases hadm

/-- A word of the opcode table that is an element's encoding, zeros after it, reads as the element. -/
theorem decodeTableWord_of_encode {nbits w : Nat} {ctx : DecodeCtx} {bits rest : List Bool} {i : Instr}
    (hw : tableWindow nbits w = some (ctx, bits)) (hb : tableBits ctx bits = encode i ++ rest)
    (hd : decode ctx (encode i ++ rest) = .ok (i, rest)) : decodeTableWord nbits w = some i := by
  rw [decodeTableWord, hw]
  dsimp only
  rw [hb, hd]

/-- Settles O8: the decoder evaluated on each word; the two long ones are encodings, which decode. -/
theorem specWordsDecode : Obligations.SpecWordsDecode := by
  refine ⟨by decide, by decide, by decide, by decide, ?_, ?_, by decide, by decide, by decide, by decide, by decide,
    by decide, by decide, by decide⟩
  · exact decodeTableWord_of_encode (rest := List.replicate 25 false) rfl rfl (decodeMarker_eos _ _)
  · exact decodeTableWord_of_encode (rest := []) rfl rfl (decodeMarker_blk _ _ _ _)

/-! ### From the bits to the encoding -/

/-- The bits of a field's value as a word are the field's. -/
theorem bitsOf_ofNat_toNat (n v : Nat) : bitsOf n (BitVec.ofNat n v).toNat = bitsOf n v := by
  have h := bitsOf_ofBits (bitsOf n v)
  rwa [bitsOf_length, ofBits_bitsOf] at h

/-- After the bits `read`, whatever `d` answers has those bits and the ones it consumed as its encoding. -/
def Reencodes (read : List Bool) (d : List Bool → Decoded) : Prop :=
  ∀ bits i rest, d bits = .ok (i, rest) → encode i ++ rest = read ++ bits

namespace Reencodes

variable {read : List Bool} {d : List Bool → Decoded}

/-- An element whose bits are all read. -/
theorem done {i : Instr} (h : encode i = read) : Reencodes read fun bits => pure (i, bits) := by
  intro bits j rest hd
  cases hd
  rw [h]

theorem ite {c : Prop} [Decidable c] {d' : List Bool → Decoded} (h : c → Reencodes read d) (h' : ¬c → Reencodes read d') :
    Reencodes read fun bits => if c then d bits else d' bits := by
  by_cases hc : c
  · simpa only [if_pos hc] using h hc
  · simpa only [if_neg hc] using h' hc

/-- A field of `k` bits, and an element that goes on with its value. -/
theorem field {k : Nat} {f : Nat × List Bool → Decoded}
    (h : ∀ v < 2 ^ k, Reencodes (read ++ bitsOf k v) fun rest => f (v, rest)) :
    Reencodes read fun bits => takeField k bits >>= f := by
  intro bits i rest hd
  obtain ⟨⟨v, tail⟩, hv, hf⟩ := Machine.bind_ok hd
  obtain ⟨rfl, hlt⟩ := takeField_ok hv
  rw [h v hlt tail i rest hf, List.append_assoc]

/-- `k` groupBits fields, and an element that goes on with them (30_encoding.md R106). -/
theorem groups {k : Nat} {f : List (BitVec 16) × List Bool → Decoded}
    (h : ∀ fields : List (BitVec 16),
      Reencodes (read ++ fields.flatMap fun x => bitsOf 16 x.toNat) fun rest => f (fields, rest)) :
    Reencodes read fun bits => takeGroups k bits >>= f := by
  induction k generalizing read f with
  | zero => exact List.append_nil read ▸ h []
  | succ k ih =>
    have hgroups : Reencodes read fun bits => takeField 16 bits >>= fun r =>
        takeGroups k r.2 >>= fun q => f (BitVec.ofNat 16 r.1 :: q.1, q.2) :=
      field fun v _ => ih (f := fun q => f (BitVec.ofNat 16 v :: q.1, q.2)) fun fields => by
        have hrest := h (BitVec.ofNat 16 v :: fields)
        rwa [List.flatMap_cons, bitsOf_ofNat_toNat, ← List.append_assoc] at hrest
    convert hgroups using 2 with bits
    simp only [takeGroups, bind_assoc, pure_bind]

end Reencodes

theorem decodeHeader_reencodes : Reencodes [] decodeHeader := by
  refine Reencodes.field (k := 24) fun m _ => .ite (fun _ => ?_) fun hm =>
    .field (k := 8) fun d _ => .ite (fun _ => ?_) fun hd => ?_
  · exact .done (bitsOf_ofNat_toNat 24 m)
  · obtain rfl := not_not.1 hm
    exact .done (congrArg (bitsOf 24 0x425A68 ++ ·) (bitsOf_ofNat_toNat 8 d))
  · obtain rfl := not_not.1 hm
    have hdigit : 0x30 + (BitVec.ofNat 4 (d - 0x30)).toNat = d := by
      rw [BitVec.toNat_ofNat]
      omega
    exact .done (congrArg (fun v => bitsOf 24 0x425A68 ++ bitsOf 8 v) hdigit)

theorem decodeMarker_reencodes : Reencodes [] decodeMarker := by
  refine Reencodes.field (k := 48) fun m _ => .ite (fun hm => ?_) fun _ => .ite (fun hm => ?_) fun _ => ?_
  · subst hm
    refine .field (k := 32) fun bcrc _ => .field (k := 1) fun rand hr => .field (k := 24) fun orig _ => .done ?_
    have hrand : (rand == 1).toNat = rand := by
      obtain rfl | rfl : rand = 0 ∨ rand = 1 := by omega
      · rfl
      · rfl
    rw [encode, bitsOf_ofNat_toNat, bitsOf_ofNat_toNat, hrand]
    rfl
  · subst hm
    refine .field (k := 32) fun scrc _ => .done ?_
    rw [encode, bitsOf_ofNat_toNat]
    rfl
  · exact .done (bitsOf_ofNat_toNat 48 m)

theorem decodeInUse_reencodes : Reencodes [] decodeInUse := by
  refine Reencodes.field (k := 16) fun g _ => .groups fun fields => .done ?_
  rw [encode, bitsOf_ofNat_toNat]
  rfl

theorem decodeSel_reencodes (numTrees : Nat) : Reencodes [] (decodeSel numTrees 0) := by
  intro bits i rest hd
  rcases decodeSel_ok hd with ⟨j, rfl, rfl, -⟩ | ⟨j, rfl, rfl, -⟩
  · rw [Nat.zero_add, encode, List.nil_append, ← List.append_cons]
  · rw [Nat.zero_add, encode, List.nil_append]

theorem decodeLCode_reencodes : Reencodes [] decodeLCode := by
  intro bits i rest hd
  unfold decodeLCode at hd
  split at hd <;> cases hd <;> rfl

theorem decodeSymbol_reencodes (t : Tree) (numInUse : Nat) : Reencodes [] (decodeSymbol t numInUse) := by
  intro bits i rest hd
  obtain ⟨⟨o, code, tail⟩, hf, hd⟩ := Machine.bind_ok hd
  obtain ⟨read, rfl, rfl, -, -⟩ := findCode_ok hf
  cases o with
  | none => cases hd; rfl
  | some v =>
    cases hd
    rw [symbolInstr_encode, List.nil_append]

theorem decodeRecon_reencodes (run : Nat) : Reencodes [] (decodeRecon run) := by
  intro bits i rest hd
  unfold decodeRecon at hd
  split at hd
  · rename_i hempty
    split at hd <;> cases hd
    rw [List.isEmpty_iff.1 hempty]
    rfl
  · refine Reencodes.field (k := 8) (read := []) (fun b _ => .done ?_) bits i rest hd
    split <;> exact bitsOf_ofNat_toNat 8 b

/-- Settles O2: position by position, each field read is the field the encoder writes. -/
theorem encodeInvertsDecode : Obligations.EncodeInvertsDecode := by
  intro ctx bits rest i hd
  have h : Reencodes [] (decode ctx) := by
    cases ctx with
    | header => exact decodeHeader_reencodes
    | marker => exact decodeMarker_reencodes
    | inUse => exact decodeInUse_reencodes
    | nTrees => exact .field (k := 3) fun v _ => .done (bitsOf_ofNat_toNat 3 v)
    | nSel => exact .field (k := 15) fun v _ => .done (bitsOf_ofNat_toNat 15 v)
    | sel numTrees => exact decodeSel_reencodes numTrees
    | lBase => exact .field (k := 5) fun v _ => .done (bitsOf_ofNat_toNat 5 v)
    | lCode => exact decodeLCode_reencodes
    | symbol t numInUse => exact decodeSymbol_reencodes t numInUse
    | recon run => exact decodeRecon_reencodes run
  exact h bits i rest hd

end Sys2Proof
end

section
/-! PROOF. The canonical code of a list of lengths (41_huffman.md R161 to R165): what the decode tables hold, why no code
begins another, and that a symbol's code decodes to the symbol. -/

namespace Sys2Proof

/-! ### The decode tables, entry by entry (41_huffman.md R161) -/

theorem countAt_buildTables (lens : List Nat) {l : Nat} (lo : 1 ≤ l) (hi : l ≤ 20) :
    (buildTables lens).countAt l = lens.count l := by
  obtain ⟨k, rfl⟩ := Nat.exists_eq_add_of_le' lo
  have hk : k < 20 := by omega
  simp [Tree.countAt, buildTables, lengthCounts, hk]

theorem firstCodesFrom_getD_succ (code : Nat) (counts : List Nat) {k : Nat} (h : k + 1 < counts.length) :
    (firstCodesFrom code counts).getD (k + 1) 0 = ((firstCodesFrom code counts).getD k 0 + counts.getD k 0) * 2 := by
  induction counts generalizing code k with
  | nil => simp at h
  | cons c rest ih =>
    have hrest : k < rest.length := by simpa using h
    cases k with
    | zero =>
      cases rest with
      | nil => simp at hrest
      | cons c' rest => rfl
    | succ k => simpa [firstCodesFrom] using ih ((code + c) * 2) hrest

theorem firstIndexesFrom_getD (idx : Nat) (counts : List Nat) {k : Nat} (h : k < counts.length) :
    (firstIndexesFrom idx counts).getD k 0 = idx + (counts.take k).sum := by
  induction counts generalizing idx k with
  | nil => simp at h
  | cons c rest ih =>
    cases k with
    | zero => rfl
    | succ k =>
      have hrest := ih (idx + c) (k := k) (by simpa using h)
      simpa [firstIndexesFrom, Nat.add_assoc] using hrest

theorem firstCodeAt_one (lens : List Nat) : (buildTables lens).firstCodeAt 1 = 0 := rfl

theorem firstCodeAt_succ (lens : List Nat) {l : Nat} (lo : 1 ≤ l) (hi : l < 20) :
    (buildTables lens).firstCodeAt (l + 1) = ((buildTables lens).firstCodeAt l + lens.count l) * 2 := by
  rw [← countAt_buildTables lens lo hi.le]
  obtain ⟨k, rfl⟩ := Nat.exists_eq_add_of_le' lo
  exact firstCodesFrom_getD_succ 0 (lengthCounts lens) (by simpa [lengthCounts] using hi)

/-- `FIRST_INDEX[L]` counts the symbols of shorter codes. -/
theorem firstIndexAt_succ (lens : List Nat) {k : Nat} (hk : k < 20) :
    (buildTables lens).firstIndexAt (k + 1) = ((List.range k).map fun j => lens.count (j + 1)).sum := by
  have h := firstIndexesFrom_getD 0 (lengthCounts lens) (k := k) (by simpa [lengthCounts] using hk)
  have htake : (lengthCounts lens).take k = (List.range k).map fun j => lens.count (j + 1) := by
    rw [lengthCounts, ← List.map_take, List.take_range, min_eq_left hk.le]
  rw [← htake, ← Nat.zero_add (List.sum _)]
  exact h

theorem le_maxLen_buildTables {lens : List Nat} {l : Nat} (h : l ∈ lens) : l ≤ (buildTables lens).maxLen := by
  have key (a : Nat) (hl : l ≤ a ∨ l ∈ lens) : l ≤ lens.foldl max a := by
    clear h
    induction lens generalizing a with
    | nil => simpa using hl
    | cons x rest ih =>
      refine ih (max a x) ?_
      rcases hl with hl | hl
      · exact .inl (le_max_of_le_left hl)
      · rcases List.mem_cons.1 hl with rfl | hl
        · exact .inl (le_max_right a l)
        · exact .inr hl
  exact key 0 (.inr h)

/-! ### `PERM`: the symbols by length -/

/-- Below `n`, as many symbols have length `l` as entries of the list do. -/
theorem length_filter_range_getD (lens : List Nat) (l : Nat) {n : Nat} (hn : n ≤ lens.length) :
    ((List.range n).filter fun s => lens.getD s 0 == l).length = (lens.take n).count l := by
  induction n with
  | zero => rfl
  | succ n ih =>
    have hlt : n < lens.length := hn
    rw [List.range_succ, List.filter_append, List.length_append, ih hlt.le, List.take_add_one,
      List.getElem?_eq_getElem hlt, List.count_append]
    by_cases h : lens[n] = l <;> simp [h, hlt]

theorem symbolsOfLength_length (lens : List Nat) (l : Nat) : (symbolsOfLength lens l).length = lens.count l := by
  rw [symbolsOfLength, length_filter_range_getD lens l le_rfl, List.take_length]

/-- A symbol stands among those of its length after the smaller ones (41_huffman.md R162). -/
theorem symbolsOfLength_getElem? {lens : List Nat} {v : Nat} (hv : v < lens.length) :
    (symbolsOfLength lens (lens.getD v 0))[(lens.take v).count (lens.getD v 0)]? = some v := by
  obtain ⟨m, hm⟩ := Nat.exists_eq_add_of_lt hv
  rw [← length_filter_range_getD lens _ hv.le, symbolsOfLength, hm, Nat.add_assoc, List.range_add, List.filter_append,
    List.getElem?_append_right le_rfl, Nat.sub_self, List.range_succ_eq_map, List.map_cons,
    List.filter_cons_of_pos (by simp)]
  rfl

/-- The symbols of length `l` stand in `PERM` from `FIRST_INDEX[l]` on. -/
theorem permOf_getElem? (lens : List Nat) {l r : Nat} (lo : 1 ≤ l) (hi : l ≤ 20) (hr : r < lens.count l) :
    (permOf lens)[(buildTables lens).firstIndexAt l + r]? = (symbolsOfLength lens l)[r]? := by
  obtain ⟨k, rfl⟩ := Nat.exists_eq_add_of_le' lo
  obtain ⟨m, hm⟩ := Nat.exists_eq_add_of_lt (show k < 20 by omega)
  have hbefore : ((List.range k).flatMap fun j => symbolsOfLength lens (j + 1)).length =
      (buildTables lens).firstIndexAt (k + 1) := by
    rw [firstIndexAt_succ lens (by omega), List.length_flatMap]
    simp only [symbolsOfLength_length]
  rw [permOf, hm, Nat.add_assoc, List.range_add, List.flatMap_append, List.getElem?_append_right (by omega), hbefore,
    Nat.add_sub_cancel_left, List.range_succ_eq_map, List.map_cons, List.flatMap_cons,
    List.getElem?_append_left (by rwa [symbolsOfLength_length])]

/-! ### The code space (41_huffman.md R161, R163) -/

theorem kraftSum_filter_le_succ (lens : List Nat) (l : Nat) :
    kraftSum (lens.filter (· ≤ l + 1)) = kraftSum (lens.filter (· ≤ l)) + lens.count (l + 1) * 2 ^ (20 - (l + 1)) := by
  induction lens with
  | nil => simp [kraftSum]
  | cons x rest ih =>
    unfold kraftSum at ih ⊢
    rcases lt_trichotomy x (l + 1) with h | rfl | h
    · have h1 : x ≤ l + 1 := h.le
      have h2 : x ≤ l := by omega
      have h3 : x ≠ l + 1 := h.ne
      simp [h1, h2, h3, ih, Nat.add_assoc]
    · simp [ih]
      ring
    · have h1 : ¬x ≤ l + 1 := by omega
      have h2 : ¬x ≤ l := by omega
      have h3 : x ≠ l + 1 := by omega
      simp [h1, h2, h3, ih]

/-- The codes of at most `l` bits, as a share of the code space: where those of `l` bits end. -/
theorem codeEnd_mul {lens : List Nat} (hlens : ∀ x ∈ lens, 1 ≤ x) {l : Nat} (lo : 1 ≤ l) (hi : l ≤ 20) :
    ((buildTables lens).firstCodeAt l + lens.count l) * 2 ^ (20 - l) = kraftSum (lens.filter (· ≤ l)) := by
  induction l, lo using Nat.le_induction with
  | base =>
    have hnone : lens.filter (· ≤ 0) = [] := List.filter_eq_nil_iff.2 fun x hx => by
      have := hlens x hx
      simp
      omega
    rw [kraftSum_filter_le_succ, hnone, firstCodeAt_one]
    simp [kraftSum]
  | succ l lo ih =>
    have hpow : 2 ^ (20 - l) = 2 * 2 ^ (20 - (l + 1)) := by
      rw [← Nat.pow_succ']
      congr 1
      omega
    rw [kraftSum_filter_le_succ, ← ih (by omega), firstCodeAt_succ lens lo (by omega), hpow]
    ring

/-- The codes of a tree that is not oversubscribed fit in their bits (41_huffman.md R163). -/
theorem codeEnd_le {lens : List Nat} (h : AcceptedLengths lens) {l : Nat} (lo : 1 ≤ l) (hi : l ≤ 20) :
    (buildTables lens).firstCodeAt l + lens.count l ≤ 2 ^ l := by
  obtain ⟨hlens, hkraft⟩ := h
  have hpart : kraftSum (lens.filter (· ≤ l)) ≤ kraftSum lens :=
    (List.filter_sublist.map _).sum_le_sum fun _ _ => Nat.zero_le _
  have hend := codeEnd_mul (fun x hx => (hlens x hx).1) lo hi
  have hspace : 2 ^ l * 2 ^ (20 - l) = 2 ^ 20 := by rw [← pow_add, Nat.add_sub_cancel' hi]
  refine Nat.le_of_mul_le_mul_right ?_ (Nat.two_pow_pos (20 - l))
  omega

/-- The codes of `m` bits begin after every shorter code, filled up to `m` bits. -/
theorem codeEnd_shift_le (lens : List Nat) {l m : Nat} (lo : 1 ≤ l) (h : l < m) (hi : m ≤ 20) :
    ((buildTables lens).firstCodeAt l + lens.count l) * 2 ^ (m - l) ≤ (buildTables lens).firstCodeAt m := by
  induction m, h using Nat.le_induction with
  | base => rw [firstCodeAt_succ lens lo (by omega), Nat.succ_sub le_rfl, Nat.sub_self, pow_one]
  | succ m h ih =>
    have hlm : l < m := h
    rw [firstCodeAt_succ lens (by omega) (by omega), Nat.succ_sub hlm.le, pow_succ, ← mul_assoc]
    have := ih (by omega)
    omega

/-! ### The search (41_huffman.md R164) -/

/-- `v` is the value of a code of `l` bits: the search's test at `l` bits. -/
def Tree.Codes (t : Tree) (l v : Nat) : Prop := t.firstCodeAt l ≤ v ∧ v < t.firstCodeAt l + t.countAt l

/-- The first `n` bits of a field and one more. -/
theorem two_mul_div_add_testBit (v n : Nat) : 2 * (v / 2 ^ (n + 1)) + (v.testBit n).toNat = v / 2 ^ n := by
  rw [Nat.toNat_testBit, pow_succ, ← Nat.div_div_eq_div_mul]
  omega

/-- The search reads the code of `len` bits and value `v` to its end when it stops at none of its beginnings. -/
theorem findCode_bitsOf {t : Tree} {len v : Nat} (hmiss : ∀ m, 1 ≤ m → m < len → ¬t.Codes m (v / 2 ^ (len - m)))
    (hhit : t.Codes len v) (rest : List Bool) {n fuel l : Nat} (code : List Bool) (hn : 1 ≤ n) (hfuel : n ≤ fuel)
    (hl : l + n = len) :
    findCode t fuel l (v / 2 ^ n) code (bitsOf n v ++ rest) =
      .ok (some (t.perm.getD (t.firstIndexAt len + (v - t.firstCodeAt len)) 0), code ++ bitsOf n v, rest) := by
  induction n, hn using Nat.le_induction generalizing fuel l code with
  | base =>
    obtain ⟨fuel, rfl⟩ := Nat.exists_eq_add_of_le' hfuel
    subst hl
    have hbit : 2 * (v / 2 ^ 1) + (v.testBit 0).toNat = v := by simpa using two_mul_div_add_testBit v 0
    show findCode t (fuel + 1) l _ code (v.testBit 0 :: rest) = _
    rw [findCode, hbit]
    exact if_pos hhit
  | succ n hn ih =>
    obtain ⟨fuel, rfl⟩ := Nat.exists_eq_add_of_le' (show 1 ≤ fuel by omega)
    have hstop := hmiss (l + 1) (by omega) (by omega)
    rw [show len - (l + 1) = n by omega] at hstop
    have hgo := ih (fuel := fuel) (l := l + 1) (code ++ [v.testBit n]) (by omega) (by omega)
    rw [bitsOf, List.cons_append, findCode, two_mul_div_add_testBit]
    refine (if_neg hstop).trans ?_
    rw [hgo, List.append_assoc]
    rfl

/-- The canonical code of a symbol decodes to the symbol, after exactly its bits (41_huffman.md R162, R164). -/
theorem findCode_canonCode {lens : List Nat} (h : AcceptedLengths lens) {v : Nat} (hv : v < lens.length) (rest : List Bool) :
    findCode (buildTables lens) (buildTables lens).maxLen 0 0 [] (canonCode lens v ++ rest) =
      .ok (some v, canonCode lens v, rest) := by
  have hmem : lens.getD v 0 ∈ lens := by
    rw [List.getD_eq_getElem _ _ hv]
    exact List.getElem_mem hv
  have hsymbol := symbolsOfLength_getElem? hv
  show findCode _ _ _ _ _ (bitsOf (lens.getD v 0) _ ++ rest) = .ok (some v, bitsOf (lens.getD v 0) _, rest)
  generalize lens.getD v 0 = len at hmem hsymbol ⊢
  generalize (lens.take v).count len = rank at hsymbol ⊢
  obtain ⟨lo, hi⟩ := h.1 len hmem
  have hrank : rank < lens.count len := by
    rw [← symbolsOfLength_length]
    exact (List.getElem?_eq_some_iff.1 hsymbol).1
  have hfits := codeEnd_le h lo hi
  have hhit : (buildTables lens).Codes len ((buildTables lens).firstCodeAt len + rank) := by
    rw [Tree.Codes, countAt_buildTables lens lo hi]
    omega
  have hmiss (m : Nat) (hm : 1 ≤ m) (hlt : m < len) :
      ¬(buildTables lens).Codes m (((buildTables lens).firstCodeAt len + rank) / 2 ^ (len - m)) := by
    rw [Tree.Codes, countAt_buildTables lens hm (by omega)]
    have hafter := codeEnd_shift_le lens hm hlt hi
    have := (Nat.le_div_iff_mul_le (Nat.two_pow_pos (len - m))).2 (hafter.trans (Nat.le_add_right _ rank))
    omega
  have hperm : (buildTables lens).perm.getD ((buildTables lens).firstIndexAt len +
      ((buildTables lens).firstCodeAt len + rank - (buildTables lens).firstCodeAt len)) 0 = v := by
    rw [Nat.add_sub_cancel_left, List.getD_eq_getElem?_getD]
    show ((permOf lens)[_]?).getD 0 = v
    rw [permOf_getElem? lens lo hi hrank, hsymbol]
    rfl
  have hgo := findCode_bitsOf hmiss hhit rest [] lo (le_maxLen_buildTables hmem) (Nat.zero_add len)
  rwa [Nat.div_eq_of_lt (by omega), hperm] at hgo

theorem decode_canonCode {lens : List Nat} (h : AcceptedLengths lens) {v : Nat} (hv : v < lens.length) (numInUse : Nat)
    (rest : List Bool) : decode (.symbol (buildTables lens) numInUse) (canonCode lens v ++ rest) =
      .ok (symbolInstr numInUse v (canonCode lens v), rest) := by
  rw [decode, decodeSymbol, findCode_canonCode h hv]
  rfl

/-! ### The values of a tree's codes -/

/-- What the search answers is an entry of `PERM`. -/
theorem findCode_some {t : Tree} {fuel l v w : Nat} {code bits code' rest : List Bool}
    (h : findCode t fuel l v code bits = .ok (some w, code', rest)) : ∃ k, w = t.perm.getD k 0 := by
  induction fuel generalizing l v code bits with
  | zero => cases h
  | succ fuel ih =>
    cases bits with
    | nil => cases h
    | cons b tail =>
      rw [findCode] at h
      split at h
      · cases h
        exact ⟨_, rfl⟩
      · exact ih h

/-- A tree's values are symbols of its alphabet (41_huffman.md R160). -/
theorem perm_buildTables_getD_lt {lens : List Nat} (h : 0 < lens.length) (k : Nat) :
    (buildTables lens).perm.getD k 0 < lens.length := by
  show (permOf lens).getD k 0 < lens.length
  by_cases hk : k < (permOf lens).length
  · rw [List.getD_eq_getElem _ _ hk]
    exact mem_permOf (List.getElem_mem hk)
  · rwa [List.getD_eq_default _ _ (not_lt.1 hk)]

theorem symbolInstr_ne_invalidSym {numInUse v : Nat} (h : v < numInUse + 2) (code : List Bool) (w : Nat)
    (code' : List Bool) : symbolInstr numInUse v code ≠ .invalidSym w code' := by
  unfold symbolInstr
  split
  · nofun
  split
  · nofun
  split
  · nofun
  · rw [if_pos (by omega)]
    nofun

/-- Settles O5: the search answers an entry of `PERM`, which lists the `NUM_IN_USE + 2` symbols of the alphabet. -/
theorem decodedSymbolInAlphabet : Obligations.DecodedSymbolInAlphabet := by
  intro lens numInUse bits rest i hlens hd
  refine ⟨?_, ?_⟩
  · obtain ⟨⟨o, code, tail⟩, hf, hd⟩ := Machine.bind_ok (show decodeSymbol _ _ bits = _ from hd)
    cases o with
    | none =>
      cases hd
      nofun
    | some v =>
      obtain ⟨k, rfl⟩ := findCode_some hf
      cases hd
      have hk := perm_buildTables_getD_lt (lens := lens) (by omega) k
      exact symbolInstr_ne_invalidSym (hk.trans_eq hlens) code
  · rintro v code rfl
    cases decodeSymbol_ok hd with
    | mtf _ _ lo hi => exact ⟨lo, hi⟩

end Sys2Proof
end

section
/-! PROOF. A step runs the element its bits decode to, or waits for the source (30_encoding.md R115, 40_bit_reader.md R141);
an illegal element means its fault (R116). -/

namespace Sys2Proof.Machine

/-- A fault raised is the faulted state of its code (60_exceptions.md R310, R311). -/
theorem raiseFault_eq_faultedWith (k : FaultKind) (s : State) : raiseFault k s = s.faultedWith k.code.toNat := by
  rw [State.faultedWith, BitVec.ofNat_toNat, BitVec.setWidth_eq]
  rfl

/-- Settles O14: an illegal element means its fault after its own reads; RLE_TRUNC has none. -/
theorem illegalElementsFault : Obligations.IllegalElementsFault := by
  intro s
  have raised (k : FaultKind) (i : Instr) (h : exec i s = .next (raiseFault k (s.consume i))) :
      exec i s = .next ((s.consume i).faultedWith k.code.toNat) := by
    rw [h, raiseFault_eq_faultedWith]
  exact ⟨fun m => raised .badMagic (.hdrBadMagic m) rfl, fun d => raised .badBlockSize (.hdrBadSize d) rfl,
    fun m => raised .badMarker (.badMark m) rfl, fun ones => raised .selectorRunTooLong (.selOverrun ones) rfl,
    fun bits => raised .huffmanNoMatch (.huffNoMatch bits) rfl, raised .rleCountMissing .rleTrunc rfl⟩

/-- The planned work of a position that names an element, once its bits are decoded. -/
theorem plannedWork_of_decode {s t : State} {ctx : DecodeCtx} {i : Instr} {rest : List Bool}
    (he : elementNext s = some (ctx, t))
    (hd : decode ctx (streamBits s.reader.src s.reader.bitpos ctx.window) = .ok (i, rest)) :
    plannedWork s = .instr i t := by
  rw [plannedWork_element he, hd]
  rfl

/-- A step from a state to itself is for ever. -/
theorem run_of_step_self {s : State} (h : step s = .next s) (k : Nat) : Host.Core.run Sys2Proof.core k s = .next s := by
  induction k with
  | zero => rfl
  | succ k ih => rw [run_next h, ih]

/-- An answered element is what its step runs. -/
theorem step_of_decode {s t : State} {ctx : DecodeCtx} {i : Instr} {rest : List Bool}
    (he : elementNext s = some (ctx, t))
    (hd : decode ctx (streamBits s.reader.src s.reader.bitpos ctx.window) = .ok (i, rest))
    (ha : AllAnswered s.reader (readWidths i)) : step s = exec i t := by
  refine step_of_instr (plannedWork_of_decode he hd) ?_
  rw [(elementAt_of_decode he hd).reader]
  exact answers_iff.2 ha

/-- An element whose requests are not all answered makes the step a wait. -/
theorem step_of_not_answered {s t : State} {ctx : DecodeCtx} {i : Instr} {rest : List Bool}
    (he : elementNext s = some (ctx, t))
    (hd : decode ctx (streamBits s.reader.src s.reader.bitpos ctx.window) = .ok (i, rest))
    (ha : ¬AllAnswered s.reader (readWidths i)) : step s = .next s.awaitSource := by
  refine step_of_wait (plannedWork_of_decode he hd) ?_
  rw [(elementAt_of_decode he hd).reader, ← Bool.not_eq_true]
  exact fun h => ha (answers_iff.1 h)

/-- Settles O9: the decoded element when the source answers, else a wait, which leaves nothing but the source's pace. -/
theorem stepExecutesElement : Obligations.StepExecutesElement := by
  intro s t ctx i rest he hd
  refine ⟨fun ha => ⟨step_of_decode he hd ha, elementNext_eq he⟩, fun ha => ?_⟩
  have hwait := step_of_not_answered he hd ha
  rcases awaitSource_cases s with ⟨hnone, e⟩ | ⟨ready, later, hsome, e⟩ <;> rw [e] at hwait
  · refine ⟨fun ready later h => ?_, fun _ => run_of_step_self hwait⟩
    rw [hnone] at h
    cases h
  · refine ⟨fun ready' later' h => ?_, fun h => ?_⟩ <;> rw [hsome] at h <;> cases h
    exact hwait

/-- The stream's next bits decide the element, however many bits the decoder is shown after them. -/
theorem decode_window_of_front {s t : State} {ctx : DecodeCtx} {i : Instr} {bits : List Bool} {src : List Byte} {p : Nat}
    (he : elementNext s = some (ctx, t)) (hbits : streamBits src p bits.length = bits)
    (hd : ∀ rest, decode ctx (bits ++ rest) = .ok (i, rest)) :
    ∃ rest, decode ctx (streamBits src p ctx.window) = .ok (i, rest) := by
  obtain ⟨j, tail, hj⟩ := elementNext_decodes he src p
  obtain ⟨read, hread, -, hany⟩ := (decode_reads (elementNext_ne_recon he)).front _ _ _ hj
  have hi : decode ctx (streamBits src p (bits.length + ctx.window)) =
      .ok (i, streamBits src (p + bits.length) ctx.window) := by
    rw [streamBits_add, hbits, hd]
  rw [Nat.add_comm, streamBits_add, hread, List.append_assoc, hany] at hi
  obtain rfl : j = i := congrArg Prod.fst (Except.ok.inj hi)
  exact ⟨tail, hj⟩

/-- A symbol is read bit by bit (41_huffman.md R164, 40_bit_reader.md R149). -/
theorem readWidths_symbolInstr_eq (numInUse v : Nat) (code : List Bool) :
    readWidths (symbolInstr numInUse v code) = List.replicate code.length 1 := by
  unfold symbolInstr
  split
  · rfl
  split
  · rfl
  split
  · rfl
  split <;> rfl

/-- Settles O10: an element's encoding and a symbol's canonical code decode to it, whatever bits follow. -/
theorem stepExecutesEncoding : Obligations.StepExecutesEncoding := by
  refine ⟨fun s t ctx i he hwf hadm hbits ha => ?_, fun s t lens v numInUse he hlens hv hbits ha => ?_⟩
  · obtain ⟨rest, hd⟩ := decode_window_of_front he hbits fun rest => decodeInvertsEncode ctx i rest hwf hadm
    exact step_of_decode he hd ha
  · obtain ⟨rest, hd⟩ := decode_window_of_front he hbits fun rest => decode_canonCode hlens hv numInUse rest
    exact step_of_decode he hd (by rwa [readWidths_symbolInstr_eq])

end Sys2Proof.Machine
end

section
/-! PROOF. The bit reader (40_bit_reader.md): the values of its operations, `SRC_POS` after them (R150), and the invariant of
R147 over every step. -/

namespace Sys2Proof.Machine

/-- What an instruction means keeps the reader's invariant: RESET starts a reader, every other meaning reads its widths. -/
theorem exec_readerInv {i : Instr} {s t : State} (hx : exec i s = .next t) (h : s.reader.Inv) : t.reader.Inv := by
  rcases exec_reader hx with hr | ⟨source, owns, -, hr⟩ <;> rw [hr]
  · exact h.advance fun n hn => (readWidths_le i n hn).2
  · exact Reader.start_inv source

theorem awaitSource_readerInv {s : State} (h : s.reader.Inv) : s.awaitSource.reader.Inv := by
  rcases awaitSource_cases s with ⟨-, e⟩ | ⟨ready, later, -, e⟩ <;> rw [e]
  · exact h
  · exact ⟨h.cnt_le, h.position, h.even, h.buffered⟩

/-- Settles O47: a stage leaves the reader, a wait changes its pace, and an instruction keeps the invariant. -/
theorem readerInvKept : Obligations.ReaderInvKept := by
  intro s t h hstep
  cases stepTo_of_step hstep with
  | stage hs => exact hs.reader ▸ h
  | wait => exact awaitSource_readerInv h
  | command c rest hp hc hd hx => exact exec_readerInv hx h
  | element he hx => exact exec_readerInv hx (he.reader ▸ h)
  | recon hp hr hi hx => exact exec_readerInv hx h

theorem readBits_of_le {n : Nat} (hn : n ≤ 16) (r : Reader) : r.readBits n = r.readBits16 n := if_pos hn

/-- A read of more than 16 bits is two, the first one 16 bits (40_bit_reader.md R144). -/
theorem readBits_of_gt {n : Nat} (hn : 16 < n) (r : Reader) :
    r.readBits n = ((r.readBits16 16).1 * 2 ^ (n - 16) + ((r.consumeBits 16).readBits16 (n - 16)).1,
      (r.consumeBits 16).consumeBits (n - 16)) := if_neg (by omega)

/-- A read of up to 32 bits returns the stream's next bits: above 16 the first 16 are the high ones (40_bit_reader.md
R140, R144). -/
theorem Reader.Inv.readBits_value {r : Reader} (h : r.Inv) {n : Nat} (hn : n ≤ 32) :
    (r.readBits n).1 = ofBits (streamBits r.src r.bitpos n) := by
  rcases Nat.lt_or_ge 16 n with hgt | hle
  · have hlo := (h.consumeBits (le_refl 16)).readBits16_value (n := n - 16) (by omega)
    rw [consumeBits_src, consumeBits_bitpos] at hlo
    have hsplit := ofBits_streamBits_split r.src r.bitpos 16 (n - 16)
    rw [Nat.add_sub_cancel' hgt.le] at hsplit
    rw [readBits_of_gt hgt, h.readBits16_value (le_refl 16), hlo, hsplit]
  · rw [readBits_of_le hle, h.readBits16_value hle]

/-- `PeekBits` finds the value `ReadBits` consumes (40_bit_reader.md R145). -/
theorem peekBits_fst (n : Nat) (r : Reader) : (r.peekBits n).1 = (r.readBits16 n).1 := rfl

@[simp] theorem peekBits_snd (n : Nat) (r : Reader) : (r.peekBits n).2 = r.refill := rfl

/-- Settles O44: the operations return the stream's bits, and move as `ReadBits`, refill and `ConsumeBits` do. -/
theorem readBitsReturnsStreamBits : Obligations.ReadBitsReturnsStreamBits := by
  intro r h
  refine ⟨fun n _ hn => ?_, fun n _ hn => ?_⟩
  · obtain ⟨hinv, hpos, hsrc⟩ := h.readBits hn
    exact ⟨h.readBits_value hn, hpos, hsrc, hinv⟩
  · rw [peekBits_fst, peekBits_snd, readBits_of_le hn, readBits16_snd]
    exact ⟨h.readBits16_value hn, refill_bitpos r, refill_src r, h.refill.1, rfl⟩

/-- `SRC_POS` after a refill, from `BITPOS` alone (40_bit_reader.md R150): `SRC_POS` is even, and the refill leaves it 16
to 31 bits ahead of `BITPOS`. -/
theorem Reader.Inv.refill_srcPos_eq {r : Reader} (h : r.Inv) : r.refill.srcPos = 2 * ((r.bitpos + 15) / 16 + 1) := by
  obtain ⟨⟨hcnt, hpos, heven, -⟩, h16⟩ := h.refill
  rw [refill_bitpos] at hpos
  omega

/-- Settles O45: a call moves `SRC_POS` only in its refill; a split read refills again, 16 bits on. -/
theorem sourcePositionFormula : Obligations.SourcePositionFormula := by
  refine ⟨fun _ => rfl, fun r n h _ => ⟨fun hn => ?_, fun hn hn' => ?_⟩⟩
  · rw [readBits_of_le hn, readBits16_snd, peekBits_snd, consumeBits_srcPos]
    exact ⟨h.refill_srcPos_eq, h.refill_srcPos_eq, h.refill_srcPos_eq⟩
  · have hsecond := (h.consumeBits (le_refl 16)).refill_srcPos_eq
    rw [consumeBits_bitpos] at hsecond
    rw [readBits_of_gt hn]
    exact hsecond

end Sys2Proof.Machine
end

section
/-! PROOF. The decode tables and the search over them (41_huffman.md R161 to R166): the order of `PERM`, the Kraft test, and
why bits that begin with no code are a no-match. -/

namespace Sys2Proof

/-! ### `PERM` lists every symbol once, by length and then by symbol (41_huffman.md R161) -/

theorem mem_symbolsOfLength {lens : List Nat} {l v : Nat} :
    v ∈ symbolsOfLength lens l ↔ v < lens.length ∧ lens.getD v 0 = l := by
  rw [symbolsOfLength, List.mem_filter, List.mem_range, beq_iff_eq]

theorem symbolsOfLength_pairwise_lt (lens : List Nat) (l : Nat) : (symbolsOfLength lens l).Pairwise (· < ·) :=
  List.pairwise_lt_range.filter _

theorem permOf_pairwise (lens : List Nat) : (permOf lens).Pairwise fun a b =>
    lens.getD a 0 < lens.getD b 0 ∨ (lens.getD a 0 = lens.getD b 0 ∧ a < b) := by
  refine List.pairwise_flatMap.2 ⟨fun k _ => ?_, List.pairwise_lt_range.imp fun {j k} hjk a ha b hb => .inl ?_⟩
  · refine (symbolsOfLength_pairwise_lt lens (k + 1)).imp_of_mem fun ha hb hab => .inr ⟨?_, hab⟩
    rw [(mem_symbolsOfLength.1 ha).2, (mem_symbolsOfLength.1 hb).2]
  · rw [(mem_symbolsOfLength.1 ha).2, (mem_symbolsOfLength.1 hb).2]
    omega

theorem permOf_perm_range {lens : List Nat} (h : ∀ l ∈ lens, 1 ≤ l ∧ l ≤ 20) :
    (permOf lens).Perm (List.range lens.length) := by
  have hnodup : (permOf lens).Nodup := (permOf_pairwise lens).imp fun hab e => by
    subst e
    omega
  refine (List.perm_ext_iff_of_nodup hnodup List.nodup_range).2 fun v => ⟨fun hv => ?_, fun hv => ?_⟩
  · exact List.mem_range.2 (mem_permOf hv)
  · have hlt := List.mem_range.1 hv
    have hlen := h (lens.getD v 0) (by
      rw [List.getD_eq_getElem _ _ hlt]
      exact List.getElem_mem hlt)
    refine List.mem_flatMap.2 ⟨lens.getD v 0 - 1, List.mem_range.2 (by omega), mem_symbolsOfLength.2 ⟨hlt, by omega⟩⟩

theorem firstIndexAt_add_countAt (lens : List Nat) {l : Nat} (lo : 1 ≤ l) (hi : l < 20) :
    (buildTables lens).firstIndexAt (l + 1) = (buildTables lens).firstIndexAt l + (buildTables lens).countAt l := by
  rw [countAt_buildTables lens lo hi.le]
  obtain ⟨k, rfl⟩ := Nat.exists_eq_add_of_le' lo
  rw [firstIndexAt_succ lens hi, firstIndexAt_succ lens (by omega), List.range_succ, List.map_append, List.sum_append,
    List.map_singleton, List.sum_singleton]

theorem maxLen_buildTables_mem {lens : List Nat} (h : lens ≠ []) : (buildTables lens).maxLen ∈ lens := by
  cases lens with
  | nil => exact absurd rfl h
  | cons x rest =>
    show rest.foldl max (max 0 x) ∈ x :: rest
    rw [Nat.zero_max]
    exact List.max?_mem List.max?_cons'

/-- Settles O6: the tables' entries one by one, and `PERM` as the flat list of the symbols of each length. -/
theorem treeTablesFollowLengths : Obligations.TreeTablesFollowLengths := by
  intro lens hlens
  refine ⟨fun l lo hi => countAt_buildTables lens lo hi, firstCodeAt_one lens, rfl, fun l lo hi => ⟨?_, ?_⟩,
    permOf_perm_range hlens, permOf_pairwise lens, fun l => le_maxLen_buildTables, maxLen_buildTables_mem⟩
  · rw [countAt_buildTables lens lo hi.le]
    exact firstCodeAt_succ lens lo hi
  · exact firstIndexAt_add_countAt lens lo hi

/-! ### The Kraft test (41_huffman.md R163) -/

/-- No code is longer than `l`: then those of `l` bits end where the whole tree's share of the code space does. -/
theorem codeEnd_mul_of_le {lens : List Nat} {l : Nat} (hlens : ∀ x ∈ lens, 1 ≤ x ∧ x ≤ l) (lo : 1 ≤ l) (hi : l ≤ 20) :
    ((buildTables lens).firstCodeAt l + lens.count l) * 2 ^ (20 - l) = kraftSum lens := by
  have hall : lens.filter (· ≤ l) = lens := List.filter_eq_self.2 fun x hx => decide_eq_true (hlens x hx).2
  rw [codeEnd_mul (fun x hx => (hlens x hx).1) lo hi, hall]

/-- The Kraft sum is above the code space exactly when the codes of some length overflow their bits. -/
theorem oversubscribed_iff_overflow {lens : List Nat} (hlens : ∀ l ∈ lens, 1 ≤ l ∧ l ≤ 20) :
    2 ^ 20 < kraftSum lens ↔
      ∃ l, 1 ≤ l ∧ l ≤ 20 ∧ 2 ^ l < (buildTables lens).firstCodeAt l + (buildTables lens).countAt l := by
  refine ⟨fun h => ⟨20, by omega, le_rfl, ?_⟩, fun ⟨l, lo, hi, hover⟩ => not_le.1 fun hkraft => ?_⟩
  · have hend := codeEnd_mul_of_le hlens (by omega) le_rfl
    rw [countAt_buildTables lens (by omega) le_rfl]
    omega
  · rw [countAt_buildTables lens lo hi] at hover
    exact absurd (codeEnd_le ⟨hlens, hkraft⟩ lo hi) (by omega)

/-! ### The codes and the rest of the code space (41_huffman.md R162 to R166) -/

/-- Settles O3: the search stops at none of the code's beginnings, and at its end finds the symbol's place in `PERM`. -/
theorem canonicalCodeDecodes : Obligations.CanonicalCodeDecodes := fun _ _ numInUse rest hlens hv =>
  decode_canonCode hlens hv numInUse rest

/-- Every rank among the codes of a length is some symbol's (41_huffman.md R162). -/
theorem exists_symbol_of_rank {lens : List Nat} {l r : Nat} (hr : r < lens.count l) :
    ∃ v < lens.length, lens.getD v 0 = l ∧ (lens.take v).count l = r := by
  have hlt : r < (symbolsOfLength lens l).length := by rwa [symbolsOfLength_length]
  obtain ⟨hv, hlen⟩ := mem_symbolsOfLength.1 (List.getElem_mem hlt)
  have hrank := symbolsOfLength_getElem? hv
  rw [hlen, ← List.getElem?_eq_getElem hlt] at hrank
  have hnodup : (symbolsOfLength lens l).Nodup := (symbolsOfLength_pairwise_lt lens l).imp fun hab => hab.ne
  exact ⟨_, hv, hlen, ((List.getElem?_inj hlt hnodup).1 hrank.symm).symm⟩

/-- Bits whose first `l` are the value of a code of `l` bits begin with a symbol's code. -/
theorem exists_canonCode_of_codes {lens : List Nat} {l : Nat} {bits : List Bool} (lo : 1 ≤ l) (hi : l ≤ 20)
    (hl : l ≤ bits.length) (h : (buildTables lens).Codes l (ofBits (bits.take l))) :
    ∃ v tail, v < lens.length ∧ bits = canonCode lens v ++ tail := by
  obtain ⟨hfirst, hend⟩ := h
  rw [countAt_buildTables lens lo hi] at hend
  obtain ⟨r, hvalue⟩ := Nat.exists_eq_add_of_le hfirst
  obtain ⟨v, hv, hlen, hrank⟩ := exists_symbol_of_rank (lens := lens) (l := l) (r := r) (by omega)
  have hcode : canonCode lens v = bits.take l := by
    have hbits := bitsOf_ofBits (bits.take l)
    rw [List.length_take_of_le hl, hvalue] at hbits
    rw [canonCode, hlen, hrank, hbits]
  exact ⟨v, bits.drop l, hv, by rw [hcode, List.take_append_drop]⟩

theorem ofBits_concat (bits : List Bool) (b : Bool) : ofBits (bits ++ [b]) = 2 * ofBits bits + b.toNat := by
  rw [ofBits_append, ofBits_cons]
  simp [Nat.mul_comm]

/-- The search is a no-match when none of the beginnings it reads is a code. -/
theorem findCode_none {t : Tree} {fuel : Nat} {read bits : List Bool} (hfuel : fuel ≤ bits.length)
    (hmiss : ∀ n, 1 ≤ n → n ≤ fuel → ¬t.Codes (read.length + n) (ofBits (read ++ bits.take n))) :
    findCode t fuel read.length (ofBits read) read bits = .ok (none, read ++ bits.take fuel, bits.drop fuel) := by
  induction fuel generalizing read bits with
  | zero => simp [findCode]
  | succ fuel ih =>
    cases bits with
    | nil => simp at hfuel
    | cons b rest =>
      have hlen : (read ++ [b]).length = read.length + 1 := List.length_append
      have hstop : ¬t.Codes (read.length + 1) (ofBits (read ++ [b])) := hmiss 1 le_rfl (by omega)
      have hgo := ih (read := read ++ [b]) (bits := rest) (by simpa using hfuel) fun n hn hle => by
        have hnext := hmiss (n + 1) (by omega) (by omega)
        rwa [List.take_succ_cons, List.append_cons, Nat.add_comm n 1, ← Nat.add_assoc, ← hlen] at hnext
      rw [findCode, ← ofBits_concat]
      refine (if_neg hstop).trans ?_
      rw [← hlen, hgo, ← List.append_cons]
      rfl

theorem maxLen_buildTables_le {lens : List Nat} (h : ∀ l ∈ lens, l ≤ 20) : (buildTables lens).maxLen ≤ 20 := by
  by_cases hnil : lens = []
  · subst hnil
    exact Nat.zero_le 20
  · exact h _ (maxLen_buildTables_mem hnil)

/-- Bits that begin with no code are a no-match after `MAXLEN` of them (41_huffman.md R165). -/
theorem findCode_of_no_code {lens : List Nat} {bits : List Bool} (hlens : ∀ l ∈ lens, l ≤ 20)
    (hlong : (buildTables lens).maxLen ≤ bits.length) (h : ∀ v < lens.length, ∀ tail, bits ≠ canonCode lens v ++ tail) :
    findCode (buildTables lens) (buildTables lens).maxLen 0 0 [] bits =
      .ok (none, bits.take (buildTables lens).maxLen, bits.drop (buildTables lens).maxLen) := by
  have hmax := maxLen_buildTables_le hlens
  refine findCode_none (read := []) hlong fun n lo hn hcodes => ?_
  rw [List.length_nil, Nat.zero_add] at hcodes
  obtain ⟨v, tail, hv, hbits⟩ := exists_canonCode_of_codes lo (hn.trans hmax) (hn.trans hlong) hcodes
  exact h v hv tail hbits

/-- A beginning one bit longer is worth twice the shorter one at least. -/
theorem two_mul_ofBits_take_le (bits : List Bool) {l : Nat} (h : l < bits.length) :
    2 * ofBits (bits.take l) ≤ ofBits (bits.take (l + 1)) := by
  rw [List.take_add_one, List.getElem?_eq_getElem h, Option.toList_some, ofBits_concat]
  exact Nat.le_add_right _ _

/-- Bits none of whose beginnings is a code lie past the codes of every length. -/
theorem codeEnd_le_of_not_codes {lens : List Nat} {bits : List Bool} {l : Nat} (lo : 1 ≤ l) (hi : l ≤ 20)
    (hl : l ≤ bits.length) (h : ∀ n, 1 ≤ n → n ≤ l → ¬(buildTables lens).Codes n (ofBits (bits.take n))) :
    (buildTables lens).firstCodeAt l + lens.count l ≤ ofBits (bits.take l) := by
  have hpast (n : Nat) (hn : 1 ≤ n) (hle : n ≤ l) (hfirst : (buildTables lens).firstCodeAt n ≤ ofBits (bits.take n)) :
      (buildTables lens).firstCodeAt n + lens.count n ≤ ofBits (bits.take n) := by
    rw [← countAt_buildTables lens hn (hle.trans hi)]
    exact not_lt.1 fun hend => h n hn hle ⟨hfirst, hend⟩
  induction l, lo using Nat.le_induction with
  | base => exact hpast 1 le_rfl le_rfl (Nat.zero_le _)
  | succ l lo ih =>
    have hshort := ih (by omega) (by omega) (fun n hn hle => h n hn (by omega)) fun n hn hle => hpast n hn (by omega)
    have htwice := two_mul_ofBits_take_le bits (l := l) hl
    refine hpast (l + 1) (by omega) le_rfl ?_
    rw [firstCodeAt_succ lens lo hi]
    omega

/-- A complete tree's codes fill the code space, so some beginning of any bits is a code (41_huffman.md R166). -/
theorem exists_codes_of_complete {lens : List Nat} {bits : List Bool} (hlens : ∀ l ∈ lens, 1 ≤ l ∧ l ≤ 20)
    (hfull : kraftSum lens = 2 ^ 20) (hlong : (buildTables lens).maxLen ≤ bits.length) :
    ∃ l, 1 ≤ l ∧ l ≤ (buildTables lens).maxLen ∧ (buildTables lens).Codes l (ofBits (bits.take l)) := by
  have hne : lens ≠ [] := by
    rintro rfl
    exact absurd hfull (by decide)
  obtain ⟨lo, hi⟩ := hlens _ (maxLen_buildTables_mem hne)
  by_contra hnone
  have hpast := codeEnd_le_of_not_codes lo hi hlong fun n hn hle hcodes => hnone ⟨n, hn, hle, hcodes⟩
  have hend := codeEnd_mul_of_le (fun x hx => ⟨(hlens x hx).1, le_maxLen_buildTables hx⟩) lo hi
  have hlt := ofBits_lt (bits.take (buildTables lens).maxLen)
  rw [List.length_take_of_le hlong] at hlt
  have hspace := Nat.mul_lt_mul_of_pos_right (hpast.trans_lt hlt) (Nat.two_pow_pos (20 - (buildTables lens).maxLen))
  rw [hend, hfull, ← pow_add, Nat.add_sub_cancel' hi] at hspace
  exact lt_irrefl _ hspace

/-- Settles O4: a search that stopped at a beginning of the bits would have found a code there; and bits past every code lie
past the whole space of a complete tree. -/
theorem unusedCodeSpaceIsNoMatch : Obligations.UnusedCodeSpaceIsNoMatch := by
  rintro lens numInUse bits ⟨hlens, -⟩ hlong
  refine ⟨fun h => ?_, fun hfull => ?_⟩
  · rw [decode, decodeSymbol, findCode_of_no_code (fun l hl => (hlens l hl).2) hlong h]
    rfl
  · obtain ⟨l, lo, hl, hcodes⟩ := exists_codes_of_complete hlens hfull hlong
    have hmax := maxLen_buildTables_le fun l hl => (hlens l hl).2
    exact exists_canonCode_of_codes lo (hl.trans hmax) (hl.trans hlong) hcodes

end Sys2Proof
end

section
/-! PROOF. The Huffman stages and elements of the machine (41_huffman.md R163, R170 to R182): the counts, the selectors, the
code lengths, BuildTree and group switching. -/

namespace Sys2Proof.Machine

/-! ### BuildTree (41_huffman.md R163) -/

/-- BuildTree on lengths in range is decided by the Kraft test alone. -/
theorem buildTree_of_lengths {s : State} (h : ∀ l ∈ treeLengths s s.seq.treeIdx, 1 ≤ l ∧ l ≤ 20) :
    buildTree s =
      if 2 ^ 20 < kraftSum (treeLengths s s.seq.treeIdx) then raiseFault .huffmanOversubscribed s
      else { s with
        tab := { s.tab with trees := s.tab.trees.set s.seq.treeIdx (buildTables (treeLengths s s.seq.treeIdx)) }
        seq := { s.seq with
          treeIdx := s.seq.treeIdx + 1
          pos := if s.seq.treeIdx + 1 < s.tab.numTrees then .build else .startSymbols } } := by
  have hrange : ¬(treeLengths s s.seq.treeIdx).any lengthOutOfRange = true := by
    intro hany
    obtain ⟨l, hl, hout⟩ := List.any_eq_true.1 hany
    have hin := h l hl
    rw [lengthOutOfRange_iff] at hout
    omega
  exact if_neg hrange

/-- Settles O7: both tests compare the end of the codes with the space they have; lengths in range leave BuildTree only the
Kraft test. -/
theorem oversubscribedTreeIsRejected : Obligations.OversubscribedTreeIsRejected := by
  refine ⟨fun lens hlens => oversubscribed_iff_overflow hlens, fun s hp hlens => ?_⟩
  have hstep : step s = .next (buildTree s) := step_of_stage (StageTo.build hp).planned
  rw [hstep, buildTree_of_lengths hlens]
  refine ⟨fun hover => ?_, fun hfits => ?_⟩
  · rw [if_pos hover, raiseFault_eq_faultedWith]
    rfl
  · rw [if_neg (not_lt.2 hfits)]

/-! ### The counts and the selectors (41_huffman.md R170 to R173) -/

/-- Settles O18: each count is read and tested; the first of one or more selectors is a SEL. -/
theorem treeAndSelectorCounts : Obligations.TreeAndSelectorCounts := by
  refine ⟨fun t s => ?_, fun n s => ?_⟩
  · show execNTrees t s = _
    unfold execNTrees
    by_cases h : 2 ≤ t.toNat ∧ t.toNat ≤ 6
    · rw [if_pos h]
      exact if_neg (show ¬(t.toNat < 2 ∨ 6 < t.toNat) by omega)
    · rw [if_neg h]
      refine (if_pos (show t.toNat < 2 ∨ 6 < t.toNat by omega)).trans ?_
      rw [raiseFault_eq_faultedWith]
      rfl
  · show execNSel n s = _
    unfold execNSel
    by_cases h : n = 0
    · subst h
      exact congrArg Host.Outcome.next (raiseFault_eq_faultedWith .badSelectorCount _)
    · have hpos : 0 < n.toNat := Nat.pos_of_ne_zero fun h0 => h (BitVec.eq_of_toNat_eq h0)
      rw [if_neg h]
      refine (if_neg (not_lt.2 hpos)).trans ?_
      exact congrArg Host.Outcome.next (if_pos hpos)

/-- `GetAndMove` at a rank the table has (42_mtf_symbols.md R192). -/
theorem getAndMove_of_getElem? {α : Type} {table : List α} {r : Nat} {v : α} (h : table[r]? = some v) :
    getAndMove table r = (some v, v :: table.eraseIdx r) := by
  rw [getAndMove, h, List.eraseIdx_eq_take_drop_succ]

/-- The element after a SEL, as one state: only `t` and the position depend on what is left (30_encoding.md R100). -/
theorem nextSelector_eq (s : State) : nextSelector s = { s with seq := { s.seq with
    treeIdx := if s.seq.selIdx < s.tab.numSel then s.seq.treeIdx else 0
    pos := if s.seq.selIdx < s.tab.numSel then .sel else .lBase } } := by
  rcases nextSelector_cases s with ⟨h, e⟩ | ⟨h, e⟩
  · rw [e, if_pos h, if_pos h]
    rfl
  · rw [e, if_neg (not_lt.2 h), if_neg (not_lt.2 h)]

/-- Settles O19: the rank's tree comes to the front and is the selector written. -/
theorem selMovesRankToFront : Obligations.SelMovesRankToFront := by
  intro j v s hj hi
  refine ⟨tableSet s.tab.selector s.seq.selIdx v, ?_, fun k hk => ?_, ?_⟩
  · rw [tableSet_getElem? v hi, if_pos rfl]
  · rw [tableSet_getElem? v hi, if_neg hk]
  · show execSel j s = _
    unfold execSel
    simp only [State.consume_tab, getAndMove_of_getElem? hj]
    exact congrArg Host.Outcome.next (nextSelector_eq _)

/-! ### The code lengths (41_huffman.md R175 to R179) -/

/-- Settles O20: each length code is its read and its change of `cur`. -/
theorem lengthCodesStep : Obligations.LengthCodesStep := by
  refine fun s => ⟨fun l => rfl, rfl, fun c hc => ?_⟩
  have hcur : s.seq.cur - 1 = c := by omega
  rw [← hcur]
  rfl

/-- A list's entries after one that it has is replaced. -/
theorem getD_set_of_lt {α : Type} {l : List α} {i : Nat} (h : i < l.length) (a d : α) (j : Nat) :
    (l.set i a).getD j d = if j = i then a else l.getD j d := by
  rw [List.getD_eq_getElem?_getD, List.getElem?_set]
  by_cases hj : j = i
  · rw [if_pos hj.symm, if_pos h, if_pos hj]
    rfl
  · rw [if_neg (Ne.symm hj), if_neg hj, List.getD_eq_getElem?_getD]

/-- `LEN[t][s] <- cur` writes that entry and no other (41_huffman.md R175). -/
theorem setLen_getD {len : List (List Nat)} {t sym : Nat} (cur : Nat) (ht : t < len.length)
    (hs : sym < (len.getD t []).length) (t' k : Nat) :
    ((setLen len t sym cur).getD t' []).getD k 0 = if t' = t ∧ k = sym then cur else (len.getD t' []).getD k 0 := by
  rw [setLen, getD_set_of_lt ht]
  by_cases htt : t' = t
  · subst htt
    simp only [if_true, getD_set_of_lt hs, true_and]
  · simp only [htt, if_false, false_and]

/-- The element after a symbol's length, as one state (41_huffman.md R176, R182). -/
theorem afterLength_eq_ite (s : State) : afterLength s = { s with seq := { s.seq with
    symIdx := if s.seq.symIdx + 1 < s.tab.alpha then s.seq.symIdx + 1 else s.seq.symIdx
    treeIdx := if s.seq.symIdx + 1 < s.tab.alpha then s.seq.treeIdx
      else if s.seq.treeIdx + 1 < s.tab.numTrees then s.seq.treeIdx + 1 else 0
    pos := if s.seq.symIdx + 1 < s.tab.alpha then .lCode
      else if s.seq.treeIdx + 1 < s.tab.numTrees then .lBase else .build } } := by
  unfold afterLength
  by_cases hsym : s.seq.symIdx + 1 < s.tab.alpha
  · simp only [if_pos hsym]
  · by_cases htree : s.seq.treeIdx + 1 < s.tab.numTrees
    · simp only [if_neg hsym, if_pos htree]
    · simp only [if_neg hsym, if_neg htree]

/-- Settles O21: the length is stored, then the next symbol, the next tree or BuildTree by what is left. -/
theorem lendStoresLength : Obligations.LendStoresLength := by
  intro s ht hs
  refine ⟨setLen s.tab.len s.seq.treeIdx s.seq.symIdx s.seq.cur, setLen_getD s.seq.cur ht hs, ?_⟩
  exact congrArg Host.Outcome.next (afterLength_eq_ite _)

/-- A running length out of range faults before a bit of the length code is read (41_huffman.md R179). -/
theorem step_of_length_out_of_range {s : State} (hp : s.seq.pos = .lCode) (h : s.seq.cur < 1 ∨ 20 < s.seq.cur) :
    step s = .next (s.faultedWith 8) := by
  rw [step_of_stage (StageTo.badLength hp (lengthOutOfRange_iff.2 h)).planned, raiseFault_eq_faultedWith]
  rfl

/-- Settles O31: the check comes before the length code, and a base's check before symbol 0's. -/
theorem lengthRangeCheckedFirst : Obligations.LengthRangeCheckedFirst := by
  refine ⟨fun s hp h => step_of_length_out_of_range hp h, fun s i rest hp lo hi hd ha => ?_, fun l s t hx h => ?_⟩
  · have he : elementNext s = some (.lCode, s) := by simp only [elementNext, hp, if_pos (And.intro lo hi)]
    exact step_of_decode he hd ha
  · cases hx
    exact step_of_length_out_of_range rfl h

/-! ### Group switching (41_huffman.md R180, R181) -/

/-- The next symbol's position, while the selectors are not used up (41_huffman.md R180). -/
theorem elementNext_symbol {s : State} (hp : s.seq.pos = .symbol)
    (h : ¬(s.sym.groupLeft = 0 ∧ (s.tab.numSel : Int) ≤ s.sym.groupIdx + 1)) :
    elementNext s =
      some (.symbol (currentTree (takeSymbolSlot s)) (takeSymbolSlot s).tab.numInUse, takeSymbolSlot s) := by
  simp only [elementNext, hp, if_neg h]

/-- Settles O32: used-up selectors are a stage, which faults; otherwise the symbol is run in the state of its slot. -/
theorem groupSwitching : Obligations.GroupSwitching := by
  refine fun s hp => ⟨fun hleft hused => ?_, fun i rest t hnew hsame hd ha => ?_⟩
  · have hstep := step_of_stage (StageTo.usedUp hp (selectorsUsedUp_iff.2 ⟨hleft, hused⟩)).planned
    rw [hstep, raiseFault_eq_faultedWith, nextGroup, if_pos hleft]
    rfl
  · obtain ⟨hmore, rfl⟩ : ¬(s.sym.groupLeft = 0 ∧ (s.tab.numSel : Int) ≤ s.sym.groupIdx + 1) ∧ takeSymbolSlot s = t := by
      rcases takeSymbolSlot_cases s with ⟨hleft, e⟩ | ⟨hleft, e⟩
      · obtain ⟨hidx, rfl⟩ := hnew hleft
        exact ⟨fun h => absurd h.2 (not_le.2 hidx), e⟩
      · obtain rfl := hsame hleft
        exact ⟨fun h => hleft h.1, e⟩
    exact step_of_decode (elementNext_symbol hp hmore) hd ha

end Sys2Proof.Machine
end

section
/-! PROOF. The symbols of a block (42_mtf_symbols.md): the in-use list, the start of the symbol stream, move to front, runs,
and what each class of symbol does. -/

namespace Sys2Proof.Machine

/-! ### GetAndMove (42_mtf_symbols.md R192, R205) -/

/-- Settles O35: the moved table is the entry in front of the table without it. -/
theorem getAndMoveMovesToFront : Obligations.GetAndMoveMovesToFront := by
  intro α table r v hv
  obtain ⟨hr, rfl⟩ := List.getElem?_eq_some_iff.1 hv
  rw [getAndMove_of_getElem? hv]
  refine ⟨rfl, rfl, fun k hk hkr => ?_, fun k hk => ?_, List.getElem_cons_eraseIdx_perm hr, ?_⟩
  · obtain ⟨j, rfl⟩ : ∃ j, k = j + 1 := ⟨k - 1, by omega⟩
    rw [List.getElem?_cons_succ, List.getElem?_eraseIdx_of_lt (by omega), Nat.add_sub_cancel]
  · obtain ⟨j, rfl⟩ : ∃ j, k = j + 1 := ⟨k - 1, by omega⟩
    rw [List.getElem?_cons_succ, List.getElem?_eraseIdx_of_ge (by omega)]
  · exact getAndMove_of_getElem? rfl

/-! ### The in-use list (42_mtf_symbols.md R190) -/

/-- A field of group `i` marks the values of that group at its set stream-order bits (30_encoding.md R106). -/
theorem mem_groupValues {i : Nat} (hi : i < 16) {f : BitVec 16} {b : Byte} :
    b ∈ groupValues i f ↔ b.toNat / 16 = i ∧ f.getLsbD (15 - b.toNat % 16) = true := by
  simp only [groupValues, List.mem_map, List.mem_filter, List.mem_range]
  constructor
  · rintro ⟨j, ⟨hj, hf⟩, rfl⟩
    have hb : (BitVec.ofNat 8 (16 * i + j)).toNat = 16 * i + j := by
      rw [BitVec.toNat_ofNat]
      omega
    have hdiv : (16 * i + j) / 16 = i := by omega
    have hmod : (16 * i + j) % 16 = j := by omega
    rw [hb, hdiv, hmod]
    exact ⟨rfl, hf⟩
  · rintro ⟨rfl, hf⟩
    refine ⟨b.toNat % 16, ⟨Nat.mod_lt _ (by decide), hf⟩, BitVec.eq_of_toNat_eq ?_⟩
    rw [BitVec.toNat_ofNat, Nat.div_add_mod]
    exact Nat.mod_eq_of_lt b.isLt

theorem groupValues_pairwise_lt {i : Nat} (hi : i < 16) (f : BitVec 16) :
    (groupValues i f).Pairwise fun x y => x.toNat < y.toNat := by
  refine List.pairwise_map.2 ((List.pairwise_lt_range.sublist List.filter_sublist).imp_of_mem fun {j k} _ hk hjk => ?_)
  have hk16 : k < 16 := List.mem_range.1 (List.mem_filter.1 hk).1
  have hi16 : 16 * i ≤ 240 := Nat.mul_le_mul_left 16 (Nat.le_of_lt_succ hi)
  rw [BitVec.toNat_ofNat, BitVec.toNat_ofNat]
  omega

theorem inUseOfGroups_nil (g : BitVec 16) (groups : List Nat) : inUseOfGroups g groups [] = [] := by
  induction groups with
  | nil => rfl
  | cons i groups ih => simp only [inUseOfGroups, ih, ite_self]

/-- A marked group takes the next field. -/
theorem inUseOfGroups_of_marked {g : BitVec 16} {i : Nat} (h : g.getLsbD (15 - i) = true) (groups : List Nat)
    (f : BitVec 16) (fields : List (BitVec 16)) :
    inUseOfGroups g (i :: groups) (f :: fields) = groupValues i f ++ inUseOfGroups g groups fields := if_pos h

theorem inUseOfGroups_of_unmarked {g : BitVec 16} {i : Nat} (h : ¬g.getLsbD (15 - i) = true) (groups : List Nat)
    (fields : List (BitVec 16)) : inUseOfGroups g (i :: groups) fields = inUseOfGroups g groups fields := if_neg h

/-- How many of the `n` groups from `a` on are marked: the index of the field of group `a + n`, counted from the field of the
first marked one. -/
def markedGroups (g : BitVec 16) (a n : Nat) : Nat := ((List.range' a n).filter fun i => g.getLsbD (15 - i)).length

theorem markedGroups_succ (g : BitVec 16) (a n : Nat) :
    markedGroups g a (n + 1) = (g.getLsbD (15 - a)).toNat + markedGroups g (a + 1) n := by
  rw [markedGroups, List.range'_succ, List.filter_cons]
  cases g.getLsbD (15 - a)
  · exact (Nat.zero_add _).symm
  · exact Nat.add_comm _ 1

/-- What the groups `a .. a + n - 1` list, when `fields` are those from group `a` on. -/
theorem mem_inUseOfGroups {g : BitVec 16} {a n : Nat} (h16 : a + n ≤ 16) {fields : List (BitVec 16)} {b : Byte} :
    b ∈ inUseOfGroups g (List.range' a n) fields ↔ (a ≤ b.toNat / 16 ∧ b.toNat / 16 < a + n) ∧
      g.getLsbD (15 - b.toNat / 16) = true ∧
      ∃ f, fields[markedGroups g a (b.toNat / 16 - a)]? = some f ∧ f.getLsbD (15 - b.toNat % 16) = true := by
  induction n generalizing a fields with
  | zero => simp only [List.range'_zero, inUseOfGroups, List.not_mem_nil, false_iff]; omega
  | succ n ih =>
    have hfirst : markedGroups g a 0 = 0 := rfl
    have hlater (hlt : a < b.toNat / 16) : markedGroups g a (b.toNat / 16 - a) =
        (g.getLsbD (15 - a)).toNat + markedGroups g (a + 1) (b.toNat / 16 - (a + 1)) := by
      rw [← markedGroups_succ]
      congr 1
      omega
    rw [List.range'_succ]
    by_cases hm : g.getLsbD (15 - a) = true
    · cases fields with
      | nil => simp [inUseOfGroups_nil]
      | cons f fields =>
        rw [inUseOfGroups_of_marked hm, List.mem_append, mem_groupValues (by omega), ih (by omega)]
        rcases Nat.lt_trichotomy a (b.toNat / 16) with hlt | heq | hgt
        · rw [hlater hlt, hm, Bool.toNat_true, Nat.add_comm 1, List.getElem?_cons_succ]
          simp [hlt, hlt.le, hlt.ne', Nat.add_assoc, Nat.add_comm 1 n]
        · simp [← heq, hm, hfirst]
        · simp [hgt.ne, Nat.not_le.2 hgt, Nat.not_le.2 (Nat.lt_succ_of_lt hgt)]
    · rw [inUseOfGroups_of_unmarked hm, ih (by omega)]
      rcases Nat.lt_trichotomy a (b.toNat / 16) with hlt | heq | hgt
      · rw [hlater hlt, Bool.eq_false_iff.2 hm, Bool.toNat_false, Nat.zero_add]
        simp [hlt, hlt.le, Nat.add_assoc, Nat.add_comm 1 n]
      · simp [← heq, hm]
      · simp [Nat.not_le.2 hgt, Nat.not_le.2 (Nat.lt_succ_of_lt hgt)]

/-- The values of the groups from `a` on come in ascending order. -/
theorem inUseOfGroups_pairwise_lt {g : BitVec 16} {a n : Nat} (h16 : a + n ≤ 16) (fields : List (BitVec 16)) :
    (inUseOfGroups g (List.range' a n) fields).Pairwise fun x y => x.toNat < y.toNat := by
  induction n generalizing a fields with
  | zero => exact .nil
  | succ n ih =>
    rw [List.range'_succ]
    by_cases hm : g.getLsbD (15 - a) = true
    · cases fields with
      | nil => rw [inUseOfGroups_nil]; exact .nil
      | cons f fields =>
        rw [inUseOfGroups_of_marked hm]
        refine List.pairwise_append.2 ⟨groupValues_pairwise_lt (by omega) f, ih (by omega) fields, fun x hx y hy => ?_⟩
        obtain ⟨hgroup, -⟩ := (mem_groupValues (by omega)).1 hx
        obtain ⟨⟨hlater, -⟩, -⟩ := (mem_inUseOfGroups (by omega)).1 hy
        omega
    · rw [inUseOfGroups_of_unmarked hm]
      exact ih (by omega) fields

/-- Settles O17: the sixteen groups list their marked values in order; the fault is INUSE's own test of the list. -/
theorem inUseListsMarkedValues : Obligations.InUseListsMarkedValues := by
  refine fun g fields s => ⟨inUseList g fields, fun b => ?_, ?_, ?_⟩
  · have hb : b.toNat / 16 < 0 + 16 := by have := b.isLt; omega
    rw [inUseList, List.range_eq_range', mem_inUseOfGroups (by decide), List.range_eq_range']
    exact and_iff_right ⟨Nat.zero_le _, hb⟩
  · rw [inUseList, List.range_eq_range']
    exact inUseOfGroups_pairwise_lt (by decide) fields
  · show execInUse g fields s = _
    unfold execInUse
    by_cases h : inUseList g fields = []
    · rw [if_pos h]
      refine (if_pos (List.length_eq_zero_iff.2 h)).trans ?_
      rw [raiseFault_eq_faultedWith]
      rfl
    · rw [if_neg h]
      exact if_neg (mt List.length_eq_zero_iff.1 h)

/-! ### The start of the symbols (42_mtf_symbols.md R191, R195) -/

/-- Settles O33: the start is a stage. -/
theorem symbolsStart : Obligations.SymbolsStart := fun _ hp => step_of_stage (StageTo.startSymbols hp).planned

/-! ### Run digits (42_mtf_symbols.md R196, R198, R203, R204) -/

/-- A run digit is added, whether or not the run then fits (42_mtf_symbols.md R203). -/
theorem runSymbol_eq_ite (v : Nat) (s : State) : runSymbol v s =
    let u : State := { s with sym := { s.sym with
      runLen := s.sym.runLen + (v + 1) * 2 ^ s.sym.runShift, runShift := s.sym.runShift + 1 } }
    if s.ctrl.capacity < s.sym.n + (s.sym.runLen + (v + 1) * 2 ^ s.sym.runShift) then u.faultedWith 13
    else { u with seq := { u.seq with pos := .symbol } } := by
  unfold runSymbol
  simp only [overflows_iff, runDigit_eq, raiseFault_eq_faultedWith]
  rfl

/-- Settles O22: RUNA and RUNB are the digits 1 and 2. -/
theorem runDigitsExtendRun : Obligations.RunDigitsExtendRun := by
  rintro code s d i (⟨rfl, rfl⟩ | ⟨rfl, rfl⟩)
  · exact (congrArg Host.Outcome.next (runSymbol_eq_ite 0 _)).trans (apply_ite Host.Outcome.next _ _ _)
  · exact (congrArg Host.Outcome.next (runSymbol_eq_ite 1 _)).trans (apply_ite Host.Outcome.next _ _ _)

/-- Digits that fit, read from `RUN_SHIFT` on, add their value shifted by it. -/
theorem foldl_runSymbol_sym (digits : List Bool) {s : State}
    (hfit : s.sym.n + (s.sym.runLen + runValue digits * 2 ^ s.sym.runShift) ≤ s.ctrl.capacity) :
    (digits.foldl (fun t d => runSymbol d.toNat t) s).sym = { s.sym with
      runLen := s.sym.runLen + runValue digits * 2 ^ s.sym.runShift
      runShift := s.sym.runShift + digits.length } := by
  induction digits generalizing s with
  | nil => simp [runValue]
  | cons d digits ih =>
    have hvalue : s.sym.runLen + runValue (d :: digits) * 2 ^ s.sym.runShift =
        s.sym.runLen + (d.toNat + 1) * 2 ^ s.sym.runShift + runValue digits * 2 ^ (s.sym.runShift + 1) := by
      rw [runValue, pow_succ]
      ring
    rw [hvalue] at hfit ⊢
    rw [List.foldl_cons, runSymbol_eq_ite]
    simp only [if_neg (show ¬s.ctrl.capacity < s.sym.n + (s.sym.runLen + (d.toNat + 1) * 2 ^ s.sym.runShift) by omega)]
    rw [ih hfit, List.length_cons, Nat.add_assoc s.sym.runShift 1, Nat.add_comm 1]

theorem runValue_injective : Function.Injective runValue := by
  intro digits
  induction digits with
  | nil =>
    rintro (_ | ⟨d, other⟩) h
    · rfl
    · simp only [runValue] at h
      omega
  | cons d digits ih =>
    rintro (_ | ⟨d', other⟩) h
    · simp only [runValue] at h
      omega
    · simp only [runValue] at h
      have hd : d.toNat = d'.toNat := by
        have := d.toNat_le
        have := d'.toNat_le
        omega
      rw [Function.LeftInverse.injective Bool.ofNat_toNat hd, ih (show runValue digits = runValue other by omega)]

theorem runValue_surjective : Function.Surjective runValue := by
  intro n
  induction n using Nat.strong_induction_on with
  | _ n ih =>
    rcases n with _ | m
    · exact ⟨[], rfl⟩
    · obtain ⟨digits, hdigits⟩ := ih (m / 2) (by omega)
      have hparity : (m % 2 == 1).toNat = m % 2 := by
        rcases Nat.mod_two_eq_zero_or_one m with h | h <;> rw [h] <;> rfl
      refine ⟨(m % 2 == 1) :: digits, ?_⟩
      rw [runValue, hdigits, hparity]
      omega

/-- Settles O34: the digits add up from an empty run, and `runValue` is a bijection. -/
theorem runLengthIsBijective : Obligations.RunLengthIsBijective := by
  refine ⟨fun digits s hlen hshift hfit => ?_, fun n => ?_⟩
  · rw [foldl_runSymbol_sym digits (by simpa [hlen, hshift] using hfit), hlen, hshift]
    simp
  · obtain ⟨digits, rfl⟩ := runValue_surjective n
    exact ⟨digits, rfl, fun _ h => runValue_injective h⟩

/-! ### The symbols that flush the run (42_mtf_symbols.md R195, R197, R199 to R201) -/

/-- The state after a flush that leaves `buf` in `BUF` (42_mtf_symbols.md R197). -/
def State.flushedTo (buf : List Host.Cell) (s : State) : State :=
  { s with
    mem := { s.mem with buf := buf }
    sym := { s.sym with
      n := s.sym.n + s.sym.runLen
      runLen := 0
      runShift := if 0 < s.sym.runLen then 0 else s.sym.runShift } }

/-- A run that fits is flushed as copies of the head, after the block's bytes. -/
theorem flushRun_of_fits {s : State} {head : Byte} (halloc : s.mem.allocated = true)
    (hfit : s.sym.n + s.sym.runLen ≤ s.ctrl.capacity) (hhead : s.sym.mtf[0]? = some head) :
    ∃ buf, flushRun s = .ok (s.flushedTo buf) ∧ ∀ a, cellRead buf a =
      if s.sym.n ≤ a ∧ a < s.sym.n + s.sym.runLen then some head else cellRead s.mem.buf a := by
  obtain ⟨t, ht⟩ := flushRun_total (hfit.trans_eq (entries_of_allocated halloc).symm)
  obtain ⟨buf, rfl, -, hcells⟩ := flushRun_ok ht
  have hmtf : mtfHead s = head := by
    rw [mtfHead, List.headD_eq_head?_getD, List.head?_eq_getElem?, hhead]
    rfl
  rw [hmtf] at hcells
  exact ⟨buf, ht, hcells⟩

/-- The MTF class once the run is flushed, at a rank the table has (42_mtf_symbols.md R199, R203). -/
theorem mtfSymbol_of_getElem? {v : Nat} {b : Byte} {s : State} (halloc : s.mem.allocated = true)
    (hb : s.sym.mtf[v - 1]? = some b) : mtfSymbol v s = .ok
      (if s.ctrl.capacity < s.sym.n + 1 then s.faultedWith 13
      else { s with
        mem := { s.mem with buf := cellWrite s.mem.buf s.sym.n b }
        sym := { s.sym with mtf := b :: s.sym.mtf.eraseIdx (v - 1), n := s.sym.n + 1 }
        seq := { s.seq with pos := .symbol } }) := by
  obtain ⟨t, ht⟩ := mtfSymbol_total (v := v) (entries_of_allocated halloc)
  rw [ht]
  rcases mtfSymbol_ok ht with ⟨hfull, rfl⟩ | ⟨hroom, -, rfl⟩
  · rw [if_pos hfull, raiseFault_eq_faultedWith]
    rfl
  · rw [if_neg (not_lt.2 hroom), mtfRank, getAndMove_of_getElem? hb]
    rfl

/-- Settles O23: the flush, then the MTF class in the state it leaves. -/
theorem mtfWritesRankedByte : Obligations.MtfWritesRankedByte := by
  intro v code s head b halloc hfit hhead hb
  obtain ⟨buf, hflush, hcells⟩ := flushRun_of_fits (s := s.consume (.mtf v code)) halloc hfit hhead
  have hx : exec (.mtf v code) s = outcomeOf (mtfSymbol v ((s.consume (.mtf v code)).flushedTo buf)) := by
    rw [exec, execMtf, hflush]
    rfl
  rw [hx, mtfSymbol_of_getElem? (s := (s.consume (.mtf v code)).flushedTo buf) halloc hb, outcomeOf_ok]
  by_cases hfull : s.ctrl.capacity < s.sym.n + s.sym.runLen + 1
  · refine ⟨buf, fun a => ?_, ?_⟩
    · rw [hcells, if_neg (show ¬(a = s.sym.n + s.sym.runLen ∧ a < s.ctrl.capacity) by omega)]
      rfl
    · exact (congrArg Host.Outcome.next (if_pos hfull)).trans (if_pos hfull).symm
  · refine ⟨cellWrite buf (s.sym.n + s.sym.runLen) b, fun a => ?_, ?_⟩
    · rw [cellRead_cellWrite, hcells]
      by_cases ha : a = s.sym.n + s.sym.runLen
      · rw [if_pos ha, if_neg (by omega), if_pos (by omega)]
      · rw [if_neg ha, if_neg (show ¬(a = s.sym.n + s.sym.runLen ∧ a < s.ctrl.capacity) from fun h => ha h.1)]
        rfl
    · exact (congrArg Host.Outcome.next (if_neg hfull)).trans (if_neg hfull).symm

/-- Settles O24: both symbols flush; EOB then moves on and INVALID_SYM faults. -/
theorem eobFlushesAndEnds : Obligations.EobFlushesAndEnds := by
  intro v code s head halloc hfit hhead
  obtain ⟨buf, hflush, hcells⟩ := flushRun_of_fits (s := s.consume (.eob code)) halloc hfit hhead
  refine ⟨buf, hcells, ?_, ?_⟩
  · rw [exec, execEob, hflush]
    rfl
  · have hflush' : flushRun (s.consume (.invalidSym v code)) = _ := hflush
    rw [exec, execInvalidSym, hflush']
    exact congrArg Host.Outcome.next (raiseFault_eq_faultedWith .invalidSymbol _)

/-! ### INVALID_SYMBOL (42_mtf_symbols.md R201, 60_exceptions.md R310) -/

/-- What a symbol's step adds to the responses: nothing, or a fault that is not INVALID_SYMBOL's. -/
def NoInvalidSymbol (s t : State) : Prop :=
  t.host.responses = s.host.responses ∨
    ∃ code, code ≠ FaultKind.invalidSymbol.code ∧ t.host.responses = s.host.responses ++ [.fault code]

theorem NoInvalidSymbol.of_host {s t : State} (h : t.host = s.host) : NoInvalidSymbol s t :=
  .inl (congrArg HostPort.responses h)

theorem NoInvalidSymbol.raise {k : FaultKind} (hk : k.code ≠ FaultKind.invalidSymbol.code) {s t : State}
    (h : t.host = s.host) : NoInvalidSymbol s (raiseFault k t) :=
  .inr ⟨k.code, hk, by rw [raiseFault_host_responses, h]⟩

theorem runSymbol_noInvalidSymbol (v : Nat) (s : State) : NoInvalidSymbol s (runSymbol v s) := by
  unfold runSymbol
  dsimp only
  split
  · exact .raise (by decide) rfl
  · exact .of_host rfl

/-- Only INVALID_SYM raises INVALID_SYMBOL among the symbols. -/
theorem exec_symbol_noInvalidSymbol {numInUse : Nat} {i : Instr} {s t : State} (hi : SymbolElement numInUse i)
    (hne : ∀ v code, i ≠ .invalidSym v code) (hx : exec i s = .next t) : NoInvalidSymbol s t := by
  cases hi with
  | runA code => cases hx; exact runSymbol_noInvalidSymbol 0 (s.consume (.runA code))
  | runB code => cases hx; exact runSymbol_noInvalidSymbol 1 (s.consume (.runB code))
  | mtf v code =>
    obtain ⟨u, hu, ht⟩ := bind_ok (outcomeOf_next.1 hx)
    have hhost : u.host = s.host := (flushRun_reader_host hu).2
    rcases mtfSymbol_ok ht with ⟨-, rfl⟩ | ⟨-, -, rfl⟩
    · exact .raise (by decide) hhost
    · exact .of_host hhost
  | eob code =>
    obtain ⟨u, hu, ht⟩ := bind_ok (outcomeOf_next.1 hx)
    cases ht
    exact .of_host (flushRun_reader_host hu).2
  | invalidSym v code => exact absurd rfl (hne v code)
  | huffNoMatch bits => cases hx; exact .raise (by decide) rfl

/-- After its slot is taken a symbol is read with a tree of the whole alphabet (41_huffman.md R160, R180). -/
theorem TablesInv.slotTree {s : State} (h : TablesInv s) (hp : s.seq.pos = .symbol) (hu : selectorsUsedUp s = false) :
    ∃ lens, lens.length = s.tab.numInUse + 2 ∧ currentTree (Machine.takeSymbolSlot s) = buildTables lens := by
  have hslot := h.takeSlot hp hu
  have hread := h.read (by rw [hp]; decide)
  obtain ⟨-, -, hcur⟩ := hslot.group (by rw [takeSymbolSlot_seq]; exact hp)
  have hidx : 0 ≤ (Machine.takeSymbolSlot s).sym.groupIdx := by
    obtain ⟨hlo, hnone, -⟩ := h.group hp
    rcases takeSymbolSlot_cases s with ⟨-, e⟩ | ⟨hleft, e⟩ <;> rw [e]
    · show 0 ≤ s.sym.groupIdx + 1
      omega
    · show 0 ≤ s.sym.groupIdx
      have : s.sym.groupIdx ≠ -1 := mt hnone hleft
      omega
  obtain ⟨hsel, htree⟩ := hcur hidx
  rw [takeSymbolSlot_tab] at hsel htree
  have hselIdx := hread.selectorsRead
  obtain ⟨v, hv, hvt⟩ := hread.selector (Machine.takeSymbolSlot s).sym.groupIdx.toNat (by omega)
  obtain rfl : v = (Machine.takeSymbolSlot s).sym.curTree := Option.some.inj (hv.symm.trans htree)
  obtain ⟨lens, -, hlens, hbuilt⟩ := h.trees (by rw [hp]; decide) _ (by rwa [if_neg (by rw [hp]; decide)])
  refine ⟨lens, hlens.trans hread.alpha, ?_⟩
  rw [currentTree, takeSymbolSlot_tab, List.getD_eq_getElem?_getD, hbuilt]
  rfl

theorem awaitSource_host (s : State) : s.awaitSource.host = s.host := by
  rcases awaitSource_cases s with ⟨-, e⟩ | ⟨_, _, -, e⟩ <;> rw [e]

theorem takeSymbolSlot_host (s : State) : (takeSymbolSlot s).host = s.host := by
  obtain ⟨_, _, _, e⟩ := takeSymbolSlot_eq s
  rw [e]

theorem nextGroup_host (s : State) : (nextGroup s).host = s.host := by
  unfold nextGroup
  split <;> rfl

/-- A step in the symbol stream is the fault of the used-up selectors, a wait, or a symbol of the alphabet
(30_encoding.md R112, 41_huffman.md R181). -/
theorem TablesInv.symbol_noInvalidSymbol {s t : State} (h : TablesInv s) (hp : s.seq.pos = .symbol)
    (hx : step s = .next t) : NoInvalidSymbol s t := by
  cases hu : selectorsUsedUp s with
  | true =>
    rw [step_of_stage (StageTo.usedUp hp hu).planned] at hx
    cases hx
    exact .raise (by decide) (nextGroup_host s)
  | false =>
    have he := elementNext_symbol hp (by rw [← selectorsUsedUp_iff, hu]; decide)
    obtain ⟨i, rest, hd⟩ := elementNext_decodes he s.reader.src s.reader.bitpos
    by_cases ha : AllAnswered s.reader (readWidths i)
    · obtain ⟨lens, hlens, htree⟩ := h.slotTree hp hu
      have hi := decodeSymbol_ok (show decodeSymbol _ _ _ = _ from hd)
      rw [step_of_decode he hd ha] at hx
      rw [htree, takeSymbolSlot_tab] at hd
      obtain ⟨hne, -⟩ := decodedSymbolInAlphabet lens s.tab.numInUse _ _ _ hlens hd
      have hsymbol := exec_symbol_noInvalidSymbol hi hne hx
      rwa [NoInvalidSymbol, takeSymbolSlot_host] at hsymbol
    · rw [step_of_not_answered he hd ha] at hx
      cases hx
      exact .of_host (awaitSource_host s)

/-- Settles O54: a step in the symbol stream answers nothing, or a fault with another code. -/
theorem invalidSymbolNeverRaised : Obligations.InvalidSymbolNeverRaised := by
  intro s t h hp hx
  rcases h.symbol_noInvalidSymbol hp hx with e | ⟨code, hcode, e⟩ <;> rw [e] <;> intro heq
  · exact List.cons_ne_nil _ _ (List.self_eq_append_right.1 heq)
  · obtain rfl : code = 12 := Response.fault.inj (List.cons.inj (List.append_cancel_left heq)).1
    exact hcode rfl

end Sys2Proof.Machine
end

section
/-! PROOF. The inverse BWT (43_inverse_bwt.md): where the pointer table puts each position, why that is the stable sort of
the block, and what the chain walk reads along the pointers. -/

namespace Sys2Proof.Machine

theorem step_inverseBwt {s t : State} (hp : s.seq.pos = .invBwt) (h : inverseBwt s = .ok t) : step s = .next t :=
  step_of_stage (StageTo.invBwt hp h).planned

/-- Settles O36: the check of `ORIG_PTR` comes before the transform. -/
theorem badOrigPtrFaults : Obligations.BadOrigPtrFaults := by
  intro s hp hptr
  rw [step_inverseBwt hp (if_pos hptr), raiseFault_eq_faultedWith]
  rfl

/-! ### The counts (43_inverse_bwt.md R221, R222) -/

theorem countP_toNat_eq (bytes : List Byte) (b : Byte) : bytes.countP (fun c => c.toNat == b.toNat) = bytes.count b :=
  List.countP_congr fun c _ => by simp [BitVec.toNat_inj]

theorem countP_toNat_le (bytes : List Byte) (v : Nat) : bytes.countP (fun c => c.toNat ≤ v) =
    bytes.countP (fun c => c.toNat < v) + bytes.countP (fun c => c.toNat == v) := by
  induction bytes with
  | nil => rfl
  | cons c rest ih =>
    simp only [List.countP_cons, ih, decide_eq_true_eq, beq_iff_eq]
    split_ifs <;> omega

theorem byteCounts_length (bytes : List Byte) : (byteCounts bytes).length = 256 :=
  (foldl_bump bytes List.length_replicate).1

theorem offsets_byteCounts_length (bytes : List Byte) : (offsetsFrom 0 (byteCounts bytes)).length = 256 := by
  rw [offsetsFrom_length, byteCounts_length]

theorem tableGet_byteCounts (bytes : List Byte) (b : Byte) : tableGet (byteCounts bytes) b.toNat = bytes.count b := by
  obtain ⟨-, -, hcount⟩ := foldl_bump bytes (f := List.replicate 256 0) List.length_replicate
  rw [byteCounts, hcount, tableGet, List.getD_replicate _ b.isLt, Nat.zero_add]

/-- Each offset is the one before it and the count before it. -/
theorem tableGet_offsetsFrom_succ {fs : List Nat} (sum : Nat) {k : Nat} (hk : k + 1 < fs.length) :
    tableGet (offsetsFrom sum fs) (k + 1) = tableGet (offsetsFrom sum fs) k + tableGet fs k := by
  induction fs generalizing sum k with
  | nil => cases hk
  | cons f rest ih =>
    have hk' : k < rest.length := Nat.lt_of_succ_lt_succ hk
    cases k with
    | zero =>
      cases rest with
      | nil => cases hk'
      | cons g rest => rfl
    | succ k => exact ih (sum + f) hk'

/-- `CUM` starts at the number of bytes below each value (43_inverse_bwt.md R222). -/
theorem tableGet_offsets_byteCounts (bytes : List Byte) {v : Nat} (hv : v < 256) :
    tableGet (offsetsFrom 0 (byteCounts bytes)) v = bytes.countP fun b => b.toNat < v := by
  have hlen := byteCounts_length bytes
  induction v with
  | zero =>
    cases hf : byteCounts bytes with
    | nil => rw [hf] at hlen; cases hlen
    | cons f rest => simp [offsetsFrom, tableGet]
  | succ v ih =>
    have hv' : (BitVec.ofNat 8 v).toNat = v := by
      rw [BitVec.toNat_ofNat]
      omega
    have hcount := tableGet_byteCounts bytes (BitVec.ofNat 8 v)
    rw [← countP_toNat_eq, hv'] at hcount
    rw [tableGet_offsetsFrom_succ 0 (by omega), ih (by omega), hcount, ← countP_toNat_le]
    simp only [Nat.lt_succ_iff]

/-! ### Where the pointer table puts each position (43_inverse_bwt.md R223) -/

/-- The entry of `TT` that position `i` goes to: its byte's offset, and one more for each equal byte before it. -/
def place (cum : List Nat) (bytes : List Byte) (i : Nat) : Nat :=
  tableGet cum (bytes.getD i 0).toNat + (bytes.take i).count (bytes.getD i 0)

theorem place_cons_zero (cum : List Nat) (c : Byte) (rest : List Byte) :
    place cum (c :: rest) 0 = tableGet cum c.toNat := rfl

/-- Once the first byte is placed the others go where they went with it. -/
theorem place_cons_succ {cum : List Nat} (hlen : cum.length = 256) (c : Byte) (rest : List Byte) (i : Nat) :
    place cum (c :: rest) (i + 1) = place (bump cum c.toNat) rest i := by
  rw [place, List.getD_cons_succ, List.take_succ_cons, ← tableGet_bump_add_count hlen, ← place]

/-- One position of the pointer loop. -/
theorem pointerLoop_cons {limit i : Nat} {c : Byte} {rest : List Byte} {cum : List Nat} {tt : List (Nat × Nat)}
    {r : List (Nat × Nat) × List Nat} (h : pointerLoop limit i (c :: rest) cum tt = .ok r) :
    pointerLoop limit (i + 1) rest (bump cum c.toNat) (cellWrite tt (tableGet cum c.toNat) i) = .ok r := by
  rw [pointerLoop] at h
  obtain ⟨tt', hwrite, hrest⟩ := bind_ok h
  obtain ⟨-, rfl⟩ := writeEntry_ok.1 hwrite
  exact hrest

section
variable {limit i : Nat} {bytes : List Byte} {cum cum' : List Nat} {tt tt' : List (Nat × Nat)}

/-- `CUM` ends past each byte's bucket. -/
theorem pointerLoop_cum (hlen : cum.length = 256) (h : pointerLoop limit i bytes cum tt = .ok (tt', cum')) :
    cum'.length = 256 ∧ ∀ b : Byte, tableGet cum' b.toNat = tableGet cum b.toNat + bytes.count b := by
  induction bytes generalizing i cum tt with
  | nil =>
    cases h
    exact ⟨hlen, fun b => rfl⟩
  | cons c rest ih =>
    obtain ⟨hlen', hcum⟩ := ih (by rw [bump_length, hlen]) (pointerLoop_cons h)
    exact ⟨hlen', fun b => (hcum b).trans (tableGet_bump_add_count hlen c rest b)⟩

/-- An entry to which no position goes is not written. -/
theorem pointerLoop_frame (hlen : cum.length = 256) (h : pointerLoop limit i bytes cum tt = .ok (tt', cum')) {a : Nat}
    (ha : ∀ j < bytes.length, place cum bytes j ≠ a) : cellRead tt' a = cellRead tt a := by
  induction bytes generalizing i cum tt with
  | nil =>
    cases h
    rfl
  | cons c rest ih =>
    have hrest : ∀ j < rest.length, place (bump cum c.toNat) rest j ≠ a := fun j hj => by
      rw [← place_cons_succ hlen]
      exact ha (j + 1) (Nat.succ_lt_succ hj)
    rw [ih (by rw [bump_length, hlen]) (pointerLoop_cons h) hrest]
    exact cellRead_cellWrite_of_ne _ _ (ha 0 (Nat.succ_pos _)).symm

/-- Where no two positions go to one entry, each entry keeps its position. -/
theorem pointerLoop_cells (hlen : cum.length = 256) (h : pointerLoop limit i bytes cum tt = .ok (tt', cum'))
    (hinj : Set.InjOn (place cum bytes) (Set.Iio bytes.length)) :
    ∀ j < bytes.length, cellRead tt' (place cum bytes j) = some (i + j) := by
  induction bytes generalizing i cum tt with
  | nil => exact nofun
  | cons c rest ih =>
    have hlen' : (bump cum c.toNat).length = 256 := by rw [bump_length, hlen]
    intro j hj
    cases j with
    | zero =>
      have hrest : ∀ k < rest.length, place (bump cum c.toNat) rest k ≠ tableGet cum c.toNat := fun k hk heq => by
        rw [← place_cons_succ hlen, ← place_cons_zero cum c rest] at heq
        cases hinj (Nat.succ_lt_succ hk) hj heq
      rw [place_cons_zero, pointerLoop_frame hlen' (pointerLoop_cons h) hrest, cellRead_cellWrite_same, Nat.add_zero]
    | succ j =>
      have hinj' : Set.InjOn (place (bump cum c.toNat) rest) (Set.Iio rest.length) := fun k hk l hl heq => by
        rw [← place_cons_succ hlen, ← place_cons_succ hlen] at heq
        exact Nat.succ.inj (hinj (Nat.succ_lt_succ hk) (Nat.succ_lt_succ hl) heq)
      rw [place_cons_succ hlen, ih hlen' (pointerLoop_cons h) hinj' j (Nat.lt_of_succ_lt_succ hj)]
      congr 1
      omega

end

/-! ### The stable sort (43_inverse_bwt.md R223) -/

/-- Positions are sorted by byte, those of equal bytes in their order. -/
def sortKey (bytes : List Byte) (i : Nat) : ℕ ×ₗ ℕ := toLex ((bytes.getD i 0).toNat, i)

/-- The positions of a block in the order of `sortKey`. -/
def sortedPositions (bytes : List Byte) : List Nat :=
  (List.range bytes.length).mergeSort fun i j => sortKey bytes i ≤ sortKey bytes j

theorem sortKey_lt_iff {bytes : List Byte} {i j : Nat} : sortKey bytes i < sortKey bytes j ↔
    (bytes.getD i 0).toNat < (bytes.getD j 0).toNat ∨ (bytes.getD i 0 = bytes.getD j 0 ∧ i < j) := by
  rw [sortKey, sortKey, Prod.Lex.toLex_lt_toLex, BitVec.toNat_inj]

theorem sortKey_injective (bytes : List Byte) : Function.Injective (sortKey bytes) :=
  fun _ _ h => congrArg (fun key => (ofLex key).2) h

theorem sortedPositions_perm (bytes : List Byte) : (sortedPositions bytes).Perm (List.range bytes.length) :=
  List.mergeSort_perm _ _

theorem sortedPositions_length (bytes : List Byte) : (sortedPositions bytes).length = bytes.length :=
  (sortedPositions_perm bytes).length_eq.trans List.length_range

theorem lt_of_sortedPositions_getElem? {bytes : List Byte} {k i : Nat} (hk : (sortedPositions bytes)[k]? = some i) :
    i < bytes.length :=
  List.mem_range.1 ((sortedPositions_perm bytes).mem_iff.1 (List.mem_of_getElem? hk))

theorem sortedPositions_pairwise (bytes : List Byte) :
    (sortedPositions bytes).Pairwise fun i j => sortKey bytes i < sortKey bytes j := by
  have hsorted : (sortedPositions bytes).Pairwise fun i j => decide (sortKey bytes i ≤ sortKey bytes j) = true :=
    List.pairwise_mergeSort
      (fun _ _ _ hab hbc => decide_eq_true ((of_decide_eq_true hab).trans (of_decide_eq_true hbc)))
      (fun a b => by simpa using le_total (sortKey bytes a) (sortKey bytes b)) _
  have hnodup : (sortedPositions bytes).Nodup := (sortedPositions_perm bytes).nodup_iff.2 List.nodup_range
  exact hsorted.imp₂ (fun i j hle hne => (of_decide_eq_true hle).lt_of_ne ((sortKey_injective bytes).ne hne)) hnodup

/-- In a strictly sorted list as many entries lie below an entry as stand before it. -/
theorem countP_lt_of_pairwise {α β : Type} [LinearOrder β] {f : α → β} {l : List α}
    (h : l.Pairwise fun x y => f x < f y) {k : Nat} {x : α} (hk : l[k]? = some x) : l.countP (fun y => f y < f x) = k := by
  induction l generalizing k with
  | nil => cases hk
  | cons a rest ih =>
    obtain ⟨hhead, hrest⟩ := List.pairwise_cons.1 h
    cases k with
    | zero =>
      obtain rfl : a = x := Option.some.inj hk
      rw [List.countP_eq_zero]
      intro y hy
      rcases List.mem_cons.1 hy with rfl | hy
      · simp
      · simpa using (hhead y hy).le
    | succ k =>
      rw [List.getElem?_cons_succ] at hk
      rw [List.countP_cons_of_pos (by simpa using hhead x (List.mem_of_getElem? hk)), ih hrest hk]

/-- A count over the positions, with a test of the byte that changes at position `i`. -/
theorem countP_range_getD (p q : Byte → Bool) {bytes : List Byte} {i : Nat} (hi : i ≤ bytes.length) :
    (List.range bytes.length).countP (fun j => if j < i then p (bytes.getD j 0) else q (bytes.getD j 0)) =
      (bytes.take i).countP p + (bytes.drop i).countP q := by
  induction bytes generalizing i with
  | nil => simp
  | cons c rest ih =>
    rw [List.length_cons, List.range_succ_eq_map, List.countP_cons, List.countP_map]
    cases i with
    | zero =>
      have htail := ih (Nat.zero_le _)
      simp only [Nat.not_lt_zero, if_false, List.take_zero, List.drop_zero, List.countP_nil, Nat.zero_add] at htail ⊢
      rw [List.countP_cons, ← htail]
      rfl
    | succ i =>
      have htail := ih (Nat.le_of_succ_le_succ hi)
      rw [List.take_succ_cons, List.drop_succ_cons, List.countP_cons, Nat.add_right_comm, ← htail]
      simp [Function.comp_def]

/-- A position goes to the entry that its rank in the sort order gives. -/
theorem place_eq_countP_sortKey {bytes : List Byte} {i : Nat} (hi : i ≤ bytes.length) :
    place (offsetsFrom 0 (byteCounts bytes)) bytes i =
      (List.range bytes.length).countP fun j => sortKey bytes j < sortKey bytes i := by
  have hkey : (List.range bytes.length).countP (fun j => sortKey bytes j < sortKey bytes i) =
      (bytes.take i).countP (fun b => b.toNat ≤ (bytes.getD i 0).toNat) +
        (bytes.drop i).countP (fun b => b.toNat < (bytes.getD i 0).toNat) := by
    rw [← countP_range_getD _ _ hi]
    refine List.countP_congr fun j _ => ?_
    rw [decide_eq_true_eq, sortKey_lt_iff, ← BitVec.toNat_inj]
    split_ifs <;> rw [decide_eq_true_eq] <;> omega
  rw [hkey, countP_toNat_le, countP_toNat_eq, Nat.add_right_comm, ← List.countP_append, List.take_append_drop, place,
    tableGet_offsets_byteCounts _ (bytes.getD i 0).isLt]

/-- The `k`-th position of the sort goes to entry `k`. -/
theorem place_sortedPositions {bytes : List Byte} {k i : Nat} (hk : (sortedPositions bytes)[k]? = some i) :
    place (offsetsFrom 0 (byteCounts bytes)) bytes i = k := by
  rw [place_eq_countP_sortKey (lt_of_sortedPositions_getElem? hk).le, ← (sortedPositions_perm bytes).countP_eq,
    countP_lt_of_pairwise (sortedPositions_pairwise bytes) hk]

/-- Every position is in the sort, at the entry it goes to. -/
theorem sortedPositions_getElem?_place {bytes : List Byte} {i : Nat} (hi : i < bytes.length) :
    (sortedPositions bytes)[place (offsetsFrom 0 (byteCounts bytes)) bytes i]? = some i := by
  obtain ⟨k, hk⟩ := List.mem_iff_getElem?.1 ((sortedPositions_perm bytes).mem_iff.2 (List.mem_range.2 hi))
  rwa [place_sortedPositions hk]

theorem injOn_place (bytes : List Byte) :
    Set.InjOn (place (offsetsFrom 0 (byteCounts bytes)) bytes) (Set.Iio bytes.length) := fun i hi j hj heq => by
  have hsame := sortedPositions_getElem?_place hi
  rw [heq, sortedPositions_getElem?_place hj] at hsame
  exact (Option.some.inj hsame).symm

/-- The pointer table of a block is its stable sort, and nothing beyond it is written (43_inverse_bwt.md R223). -/
theorem pointerLoop_sorts {limit : Nat} {bytes : List Byte} {cum : List Nat} {tt tt' : List (Nat × Nat)}
    (h : pointerLoop limit 0 bytes (offsetsFrom 0 (byteCounts bytes)) tt = .ok (tt', cum)) :
    (∀ k < bytes.length, cellRead tt' k = (sortedPositions bytes)[k]?) ∧
      ∀ k, bytes.length ≤ k → cellRead tt' k = cellRead tt k := by
  have hlen := offsets_byteCounts_length bytes
  have hsize := sortedPositions_length bytes
  refine ⟨fun k hk => ?_, fun k hk => pointerLoop_frame hlen h fun j hj heq => ?_⟩
  · have hi := List.getElem?_eq_getElem (hsize ▸ hk)
    have hcell := pointerLoop_cells hlen h (injOn_place bytes) _ (lt_of_sortedPositions_getElem? hi)
    rwa [place_sortedPositions hi, Nat.zero_add, ← hi] at hcell
  · obtain ⟨hplace, -⟩ := List.getElem?_eq_some_iff.1 (sortedPositions_getElem?_place hj)
    omega

/-! ### The chain walk (43_inverse_bwt.md R224) -/

/-- The place a pointer leads to. -/
def follow (tt : List (Nat × Nat)) (i : Nat) : Nat := (cellRead tt i).getD 0

/-- The walk writes its `left` entries with the bytes it comes by, and ends `left` pointers on. -/
theorem chainWalk_cells {limit left k focus focus' : Nat} {buf recon recon' : List Host.Cell} {tt : List (Nat × Nat)}
    (h : chainWalk limit buf tt left k focus recon = .ok (recon', focus')) :
    (∀ j < left, cellRead recon' (k + j) = cellRead buf ((follow tt)^[j] focus)) ∧
      (∀ a, a < k ∨ k + left ≤ a → cellRead recon' a = cellRead recon a) ∧ focus' = (follow tt)^[left] focus := by
  induction left generalizing k focus recon with
  | zero =>
    cases h
    exact ⟨nofun, fun _ _ => rfl, rfl⟩
  | succ left ih =>
    rw [chainWalk] at h
    obtain ⟨b, hb, h⟩ := bind_ok h
    obtain ⟨recon₁, hwrite, h⟩ := bind_ok h
    obtain ⟨next, hnext, h⟩ := bind_ok h
    obtain ⟨-, rfl⟩ := writeEntry_ok.1 hwrite
    obtain rfl : follow tt focus = next := by rw [follow, (readEntry_ok.1 hnext).2, Option.getD_some]
    obtain ⟨hcells, hframe, hfocus⟩ := ih h
    refine ⟨fun j hj => ?_, fun a ha => ?_, hfocus⟩
    · cases j with
      | zero =>
        rw [Nat.add_zero, hframe k (by omega), cellRead_cellWrite_same, Function.iterate_zero_apply, (readEntry_ok.1 hb).2]
      | succ j => rw [Function.iterate_succ_apply, ← hcells j (by omega), Nat.add_right_comm, Nat.add_assoc]
    · rw [hframe a (by omega), cellRead_cellWrite_of_ne _ _ (by omega)]

/-- Pointers below `n` stay below `n`. -/
theorem iterate_follow_lt {n : Nat} {tt : List (Nat × Nat)} (h : ∀ j < n, PointsBelow n tt j) (m : Nat) {i : Nat}
    (hi : i < n) : (follow tt)^[m] i < n := by
  induction m generalizing i with
  | zero => exact hi
  | succ m ih =>
    obtain ⟨v, hv, hcell⟩ := h i hi
    rw [Function.iterate_succ_apply, follow, hcell]
    exact ih hv

/-! ### The stage -/

theorem bufBytes_length (s : State) : (bufBytes s).length = s.sym.n := by simp [bufBytes]

theorem bufBytes_getElem? {s : State} {k : Nat} (hk : k < s.sym.n) :
    (bufBytes s)[k]? = some ((cellRead s.mem.buf k).getD 0) := by
  rw [bufBytes, List.getElem?_map, List.getElem?_range hk, Option.map_some]

/-- The bytes of a written block. -/
theorem readRun_bufBytes {s : State} (hl : s.sym.n ≤ s.entries) (hw : Written s.mem.buf s.sym.n) :
    readRun s.entries .buf s.mem.buf 0 s.sym.n = .ok (bufBytes s) := by
  obtain ⟨vals, hread, hlen, hvals⟩ := readRun_written (name := .buf) hw hl (Nat.zero_add _).le
  refine hread.trans (congrArg Except.ok (List.ext_getElem? fun k => ?_))
  by_cases hk : k < s.sym.n
  · obtain ⟨b, hb⟩ := Option.isSome_iff_exists.1 (hw k hk)
    rw [hvals k hk, Nat.zero_add, bufBytes_getElem? hk, hb, Option.getD_some]
  · rw [List.getElem?_eq_none (by omega), List.getElem?_eq_none (by rw [bufBytes_length]; omega)]

/-- The whole stage on a written block, `ORIG_PTR` inside it (43_inverse_bwt.md R221 to R224). -/
theorem step_invBwt_written {s : State} (hp : s.seq.pos = .invBwt) (halloc : s.mem.allocated = true)
    (hn : s.sym.n ≤ s.ctrl.capacity) (hw : Written s.mem.buf s.sym.n) (hptr : s.blk.origPtr.toNat < s.sym.n) :
    ∃ tt cum recon focus,
      pointerLoop s.entries 0 (bufBytes s) (offsetsFrom 0 (byteCounts (bufBytes s))) s.mem.tt = .ok (tt, cum) ∧
      chainWalk s.entries s.mem.buf tt s.sym.n 0 (follow tt s.blk.origPtr.toNat) s.mem.recon = .ok (recon, focus) ∧
      step s = .next { s with
        bwt := ⟨byteCounts (bufBytes s), cum, focus, s.sym.n - 1⟩
        mem := { s.mem with tt := tt, recon := recon }
        seq := { s.seq with pos := .derand } } := by
  have hl : s.sym.n ≤ s.entries := hn.trans_eq (entries_of_allocated halloc).symm
  obtain ⟨t, ht⟩ := inverseBwt_total hl hw
  have hinvert : invertBlock s = .ok t := (if_neg (not_le.2 hptr)).symm.trans ht
  obtain ⟨bytes, tt, cum, first, recon, focus, hread, hloop, hfirst, hwalk, rfl⟩ := invertBlock_ok hinvert
  rw [readRun_bufBytes hl hw] at hread
  cases hread
  obtain rfl : follow tt s.blk.origPtr.toNat = first := by rw [follow, (readEntry_ok.1 hfirst).2, Option.getD_some]
  exact ⟨tt, cum, recon, focus, hloop, hwalk, step_inverseBwt hp ht⟩

/-- An entry a table has, read as the table reads it. -/
theorem getElem?_of_tableGet {table : List Nat} {v x : Nat} (hv : v < table.length) (h : tableGet table v = x) :
    table[v]? = some x := by
  rw [← h, tableGet, List.getD_eq_getElem _ _ hv, List.getElem?_eq_getElem hv]

/-- Settles O37: position by position the pointer loop places the block's stable sort; `CUM` starts at the bytes below each
value and ends past those equal to it. -/
theorem pointerTableSortsStably : Obligations.PointerTableSortsStably := by
  intro s hp halloc hn hw hptr
  obtain ⟨tt, cum, recon, focus, hloop, -, hstep⟩ := step_invBwt_written hp halloc hn hw hptr
  obtain ⟨hsorted, hrest⟩ := pointerLoop_sorts hloop
  obtain ⟨hlen, hcum⟩ := pointerLoop_cum (offsets_byteCounts_length _) hloop
  have hperm := sortedPositions_perm (bufBytes s)
  rw [bufBytes_length] at hsorted hrest hperm
  refine ⟨_, sortedPositions (bufBytes s), hstep, rfl, hperm,
    (sortedPositions_pairwise _).imp sortKey_lt_iff.1, hsorted, hrest, fun v hv => ?_, fun v hv => ?_⟩
  · exact getElem?_of_tableGet (by rwa [byteCounts_length])
      ((tableGet_byteCounts _ (BitVec.ofNatLT v hv)).trans (countP_toNat_eq _ _).symm)
  · refine getElem?_of_tableGet (hlen ▸ hv) ((hcum (BitVec.ofNatLT v hv)).trans ?_)
    rw [countP_toNat_le, ← countP_toNat_eq]
    exact congrArg (· + _) (tableGet_offsets_byteCounts _ hv)

/-- Settles O38: the walk starts one pointer after `ORIG_PTR` and follows the pointers the block has. -/
theorem chainWalkFollowsPointers : Obligations.ChainWalkFollowsPointers := by
  intro s hp halloc hn hw hptr
  obtain ⟨tt, cum, recon, focus, hloop, hwalk, hstep⟩ := step_invBwt_written hp halloc hn hw hptr
  have hpoints : ∀ j < s.sym.n, PointsBelow s.sym.n tt j := by
    have hlen := bufBytes_length s
    obtain ⟨tt', cum', hloop', hpoints⟩ := pointerLoop_block (limit := s.entries) (bufBytes s) s.mem.tt
      (by rwa [hlen, entries_of_allocated halloc])
    rw [hloop] at hloop'
    cases hloop'
    rwa [hlen] at hpoints
  obtain ⟨hcells, hrest, hfocus⟩ := chainWalk_cells hwalk
  refine ⟨_, hstep, fun k hk => ⟨iterate_follow_lt hpoints (k + 1) hptr, ?_⟩, fun k hk => hrest k (by omega), hfocus⟩
  exact (congrArg _ (Nat.zero_add k).symm).trans (hcells k hk)

end Sys2Proof.Machine
end

section
/-! PROOF. The derandomiser (44_derandomizer.md): the countdown after each byte told by how many entries of `RNUMS` have been
loaded, the places it flips, and the whole stage. -/

namespace Sys2Proof.Machine

/-! ### The sums of the table (44_derandomizer.md R238, R239) -/

/-- The sum of the first `m` entries loaded: where the countdown runs out for the `m`-th time. `S_m` is `loadedSum (m + 1)`. -/
def loadedSum (m : Nat) : Nat := ((List.range m).map fun j => tableGet rnums (j % 512)).sum

theorem derandSum_eq_loadedSum (m : Nat) : derandSum m = loadedSum (m + 1) := rfl

theorem loadedSum_succ (m : Nat) : loadedSum (m + 1) = loadedSum m + tableGet rnums (m % 512) := by
  simp [loadedSum, List.range_succ]

/-- No entry of `RNUMS` is below 50 (44_derandomizer.md R238). -/
theorem le_tableGet_rnums_mod (m : Nat) : 50 ≤ tableGet rnums (m % 512) := by
  have hall : ∀ x ∈ rnums, 50 ≤ x := by decide +kernel
  have hlen : m % 512 < rnums.length := (m.mod_lt (by decide)).trans_eq (by decide +kernel)
  rw [tableGet, List.getD_eq_getElem _ _ hlen]
  exact hall _ (List.getElem_mem hlen)

theorem loadedSum_add_le_succ (m : Nat) : loadedSum m + 50 ≤ loadedSum (m + 1) := by
  rw [loadedSum_succ]
  exact Nat.add_le_add_left (le_tableGet_rnums_mod m) _

theorem loadedSum_mono : Monotone loadedSum :=
  monotone_nat_of_le_succ fun m => (Nat.le_add_right _ 50).trans (loadedSum_add_le_succ m)

/-! ### The countdown (44_derandomizer.md R236, R237) -/

/-- The bytes whose bit 0 is flipped (44_derandomizer.md R239). -/
def FlipPlace (k : Nat) : Prop := ∃ m, k + 2 = derandSum m

/-- The derandomiser has counted `k` bytes: after `m` loads the countdown runs out at the sum of the entries loaded, and it
has run out for all loads before the last. -/
def CountedTo (k : Nat) (d : Derand) : Prop :=
  ∃ m, d.tpos = m % 512 ∧ k + d.ntogo = loadedSum m ∧ ∀ i < m, loadedSum i ≤ k

theorem countedTo_fresh : CountedTo 0 ⟨0, 0⟩ := ⟨0, rfl, rfl, nofun⟩

theorem derandTick_flip (d : Derand) : (derandTick d).2 = ((derandTick d).1.ntogo == 1) := rfl

theorem derandTick_of_zero {d : Derand} (h : d.ntogo = 0) :
    (derandTick d).1 = ⟨tableGet rnums d.tpos - 1, (d.tpos + 1) % 512⟩ := by
  rw [derandTick, if_pos h]
  rfl

theorem derandTick_of_ne_zero {d : Derand} (h : d.ntogo ≠ 0) : (derandTick d).1 = ⟨d.ntogo - 1, d.tpos⟩ := by
  rw [derandTick, if_neg h]

/-- Counting one more byte keeps `CountedTo`: a countdown that has run out loads the next entry first. -/
theorem CountedTo.tick {k : Nat} {d : Derand} (h : CountedTo k d) : CountedTo (k + 1) (derandTick d).1 := by
  obtain ⟨m, hpos, hsum, hbefore⟩ := h
  by_cases hz : d.ntogo = 0
  · have hload := loadedSum_succ m
    have hentry := le_tableGet_rnums_mod m
    rw [derandTick_of_zero hz, hpos]
    refine ⟨m + 1, Nat.mod_add_mod m 512 1, by simp only; omega, fun i hi => ?_⟩
    have hmono := loadedSum_mono (Nat.lt_succ_iff.1 hi)
    omega
  · rw [derandTick_of_ne_zero hz]
    exact ⟨m, hpos, by simp only; omega, fun i hi => (hbefore i hi).trans k.le_succ⟩

/-- With byte `k` counted, the countdown is at 1 exactly where `k` is a place: the sums of earlier loads are behind, and that
of the next is at least 50 further on. -/
theorem CountedTo.ntogo_eq_one_iff {k : Nat} {d : Derand} (h : CountedTo (k + 1) d) : d.ntogo = 1 ↔ FlipPlace k := by
  obtain ⟨m, -, hsum, hbefore⟩ := h
  constructor
  · intro hone
    cases m with
    | zero => exact absurd hsum (by simp [loadedSum])
    | succ m => exact ⟨m, by rw [derandSum_eq_loadedSum]; omega⟩
  · rintro ⟨i, hi⟩
    rw [derandSum_eq_loadedSum] at hi
    rcases lt_trichotomy (i + 1) m with hlt | rfl | hgt
    · have hbehind := hbefore _ hlt
      omega
    · omega
    · have hnext := loadedSum_mono (Nat.lt_iff_add_one_le.1 hgt)
      have hgap := loadedSum_add_le_succ m
      omega

theorem CountedTo.flip_iff {k : Nat} {d : Derand} (h : CountedTo k d) : (derandTick d).2 = true ↔ FlipPlace k := by
  rw [derandTick_flip, beq_iff_eq, h.tick.ntogo_eq_one_iff]

/-! ### The loop (44_derandomizer.md R237) -/

/-- One byte of the loop writes the byte's entry, if it is a place, and nothing else. -/
theorem derandLoop_byte {limit left k : Nat} {d : Derand} {recon : List Host.Cell} {r : List Host.Cell × Derand}
    (hd : CountedTo k d) (h : derandLoop limit (left + 1) k d recon = .ok r) :
    ∃ recon₁, derandLoop limit left (k + 1) (derandTick d).1 recon₁ = .ok r ∧
      (FlipPlace k → cellRead recon₁ k = (cellRead recon k).map fun b => b ^^^ 1) ∧
      ∀ a, (a = k → ¬ FlipPlace k) → cellRead recon₁ a = cellRead recon a := by
  rw [derandLoop_succ] at h
  split at h
  case isTrue hflip =>
    split at h
    case h_2 => cases h
    case h_1 b hb =>
      refine ⟨_, h, fun _ => ?_, fun a ha => cellRead_cellWrite_of_ne _ _ fun hak => ha hak (hd.flip_iff.1 hflip)⟩
      rw [cellRead_cellWrite_same, (readEntry_ok.1 hb).2]
      rfl
  case isFalse hflip => exact ⟨recon, h, fun hplace => absurd (hd.flip_iff.2 hplace) hflip, fun _ _ => rfl⟩

/-- The loop flips bit 0 at the places among its bytes, and leaves every other entry. -/
theorem derandLoop_cells {limit left k : Nat} {d d' : Derand} {recon recon' : List Host.Cell} (hd : CountedTo k d)
    (h : derandLoop limit left k d recon = .ok (recon', d')) :
    (∀ a, k ≤ a → a < k + left → FlipPlace a → cellRead recon' a = (cellRead recon a).map fun b => b ^^^ 1) ∧
      ∀ a, a < k ∨ k + left ≤ a ∨ ¬ FlipPlace a → cellRead recon' a = cellRead recon a := by
  induction left generalizing k d recon with
  | zero =>
    cases h
    exact ⟨fun a hlo hhi => absurd hhi (by omega), fun _ _ => rfl⟩
  | succ left ih =>
    obtain ⟨recon₁, hrest, hflip, hkeep⟩ := derandLoop_byte hd h
    obtain ⟨hflips, hkeeps⟩ := ih hd.tick hrest
    refine ⟨fun a hlo hhi ha => ?_, fun a ha => ?_⟩
    · rcases hlo.eq_or_lt with rfl | hlt
      · rw [hkeeps k (.inl k.lt_succ_self), hflip ha]
      · rw [hflips a hlt (by omega) ha, hkeep a fun hak => absurd hak hlt.ne']
    · rw [hkeeps a (ha.imp Nat.lt_succ_of_lt (Or.imp_left (by omega))), hkeep a]
      rintro rfl
      exact (ha.resolve_left (lt_irrefl _)).resolve_left (by omega)

/-! ### The stage (44_derandomizer.md R235) -/

theorem step_derandomise {s t : State} (hp : s.seq.pos = .derand) (h : derandomise s = .ok t) : step s = .next t :=
  step_of_stage (StageTo.derand hp h).planned

/-- Settles O39: byte by byte the countdown stands at 1 exactly at the places `S_m - 2`. -/
theorem derandomiserFlipsAtSums : Obligations.DerandomiserFlipsAtSums := by
  intro s hp
  refine ⟨fun hr => step_derandomise hp (if_neg (by simp [hr])), fun hr halloc hn hw => ?_⟩
  obtain ⟨⟨recon, d⟩, hloop⟩ := derandLoop_total (limit := s.entries) (left := s.sym.n) (k := 0) ⟨0, 0⟩
    (by rwa [Nat.zero_add]) (by rwa [Nat.zero_add, entries_of_allocated halloc])
  obtain ⟨hflipped, hkept⟩ := derandLoop_cells countedTo_fresh hloop
  rw [Nat.zero_add] at hflipped hkept
  refine ⟨_, step_derandomise hp (by rw [derandomise, if_pos hr, hloop]; rfl), rfl,
    fun k hk hplace => hflipped k k.zero_le hk hplace, fun k hk => hkept k (.inr ?_)⟩
  exact hk.imp_right not_exists.2

end Sys2Proof.Machine
end

section
/-! PROOF. The CRC (45_crc.md): the recurrence's bit step is linear, so the table update is eight of its steps; the drain's
fold. -/

namespace Sys2Proof.Machine

/-! ### One bit of the recurrence (45_crc.md R251) -/

theorem crcShift_of_msb {x : Word} (h : x.msb = true) : crcShift x = (x <<< 1) ^^^ crcPoly := if_pos h

theorem crcShift_of_not_msb {x : Word} (h : x.msb = false) : crcShift x = x <<< 1 := if_neg (by simp [h])

/-- The bit step is linear: the polynomial comes in where one of the operands has its top bit set, and cancels where both
have. -/
theorem crcShift_xor (x y : Word) : crcShift (x ^^^ y) = crcShift x ^^^ crcShift y := by
  have hmsb : (x ^^^ y).msb = (x.msb ^^ y.msb) := BitVec.msb_xor
  have hshift : (x ^^^ y) <<< 1 = x <<< 1 ^^^ y <<< 1 := BitVec.shiftLeft_xor_distrib x y 1
  cases hx : x.msb <;> cases hy : y.msb <;> rw [hx, hy] at hmsb
  case false.false => rw [crcShift_of_not_msb hmsb, crcShift_of_not_msb hx, crcShift_of_not_msb hy, hshift]
  case false.true =>
    rw [crcShift_of_msb hmsb, crcShift_of_not_msb hx, crcShift_of_msb hy, hshift, BitVec.xor_assoc]
  case true.false =>
    rw [crcShift_of_msb hmsb, crcShift_of_msb hx, crcShift_of_not_msb hy, hshift]
    ac_rfl
  case true.true =>
    rw [crcShift_of_not_msb hmsb, crcShift_of_msb hx, crcShift_of_msb hy, hshift]
    calc x <<< 1 ^^^ y <<< 1 = (x <<< 1 ^^^ y <<< 1) ^^^ (crcPoly ^^^ crcPoly) := by rw [BitVec.xor_self, BitVec.xor_zero]
      _ = (x <<< 1 ^^^ crcPoly) ^^^ (y <<< 1 ^^^ crcPoly) := by ac_rfl

theorem iterate_crcShift_xor (n : Nat) (x y : Word) : crcShift^[n] (x ^^^ y) = crcShift^[n] x ^^^ crcShift^[n] y :=
  Function.Semiconj₂.iterate crcShift_xor n x y

/-- Bits that do not reach the top in `n` steps are only shifted. -/
theorem iterate_crcShift_of_lt {n : Nat} {x : Word} (h : x.toNat * 2 ^ n < 2 ^ 32) : crcShift^[n] x = x <<< n := by
  induction n generalizing x with
  | zero => exact (BitVec.shiftLeft_zero x).symm
  | succ n ih =>
    have htwice : 2 * x.toNat * 2 ^ n < 2 ^ 32 := by rwa [Nat.pow_succ', ← Nat.mul_assoc, Nat.mul_comm x.toNat] at h
    have hlow : 2 * x.toNat < 2 ^ 32 := (Nat.le_mul_of_pos_right _ n.two_pow_pos).trans_lt htwice
    have hmsb : x.msb = false := BitVec.msb_eq_false_iff_two_mul_lt.2 hlow
    have hdouble : (x <<< 1).toNat = 2 * x.toNat := by
      rw [BitVec.toNat_shiftLeft, Nat.shiftLeft_eq, Nat.pow_one, Nat.mul_comm, Nat.mod_eq_of_lt hlow]
    rw [Function.iterate_succ_apply, crcShift_of_not_msb hmsb, ih (by rwa [hdouble]), ← BitVec.shiftLeft_add, Nat.add_comm]

/-! ### The table update (45_crc.md R251, R252) -/

theorem crcTable_eq_iterate (i : Byte) : crcTable i = crcShift^[8] (i.setWidth 32 <<< 24) := rfl

/-- A register with a byte XORed into its top byte splits into its low three bytes and, in the top byte, the table index of
R252. -/
theorem xor_topByte_eq (c : Word) (b : Byte) :
    c ^^^ (b.setWidth 32 <<< 24) = (c <<< 8) >>> 8 ^^^ (((c >>> 24).setWidth 8 ^^^ b).setWidth 32 <<< 24) := by
  apply BitVec.eq_of_getLsbD_eq
  intro i hi
  simp only [BitVec.getLsbD_xor, BitVec.getLsbD_shiftLeft, BitVec.getLsbD_ushiftRight, BitVec.getLsbD_setWidth]
  by_cases htop : i < 24
  · have hin : 8 + i < 32 := by omega
    simp [htop, hin]
  · have hout : ¬ 8 + i < 32 := by omega
    have hbyte : i - 24 < 8 := by omega
    have hword : i - 24 < 32 := by omega
    have hsame : 24 + (i - 24) = i := by omega
    simp [htop, hout, hbyte, hword, hsame, hi]

theorem lowBytes_toNat_lt (c : Word) : ((c <<< 8) >>> 8).toNat * 2 ^ 8 < 2 ^ 32 := by
  rw [BitVec.toNat_ushiftRight, Nat.shiftRight_eq_div_pow]
  exact (Nat.div_mul_le_self _ _).trans_lt (BitVec.isLt _)

theorem lowBytes_shiftLeft (c : Word) : (c <<< 8) >>> 8 <<< 8 = c <<< 8 := by
  apply BitVec.eq_of_getLsbD_eq
  intro i hi
  simp only [BitVec.getLsbD_shiftLeft, BitVec.getLsbD_ushiftRight]
  by_cases hlow : i < 8
  · simp [hlow]
  · have hsame : 8 + (i - 8) = i := by omega
    simp [hlow, hsame, hi]

/-- Settles O40: in eight bit steps the low three bytes are only shifted, and the top byte becomes its table entry. -/
theorem crcUpdateIsBitwise : Obligations.CrcUpdateIsBitwise := by
  intro c b
  change _ = crcShift^[8] _
  rw [xor_topByte_eq, iterate_crcShift_xor, iterate_crcShift_of_lt (lowBytes_toNat_lt c), lowBytes_shiftLeft,
    ← crcTable_eq_iterate, crcUpdate]

/-! ### The fold at the drain (45_crc.md R256, 47_stream_control.md R292) -/

theorem rotl1_eq_rotateLeft (x : Word) : rotl1 x = x.rotateLeft 1 := rfl

/-- Settles O43: the end of the released bytes is a stage, which drains the block or answers. -/
theorem drainFoldsBlockCrc : Obligations.DrainFoldsBlockCrc := by
  intro s hp hl
  rw [step_of_stage (StageTo.releaseDone hp hl).planned]
  rcases releaseDone_cases s with ⟨hz, he⟩ | ⟨hleft, he⟩
  · exact ⟨fun _ => by rw [he, drain, foldCrc, rotl1_eq_rotateLeft], fun h => absurd hz h⟩
  · exact ⟨fun h => absurd h hleft, fun _ => congrArg _ he⟩

end Sys2Proof.Machine
end

section
/-! PROOF. The output expander (46_output_rle.md R266 to R273): how long an expansion is, what a byte of `RECON` means, and
what one call of the expander returns, in either pass. -/

namespace Sys2Proof.Machine

/-! ### The length of an expansion (46_output_rle.md R268, R273) -/

/-- With `run` bytes of the run already seen, every five bytes of run and rest together give at most 254 more than are
stored. -/
theorem expandFrom_length_le {bytes out : List Byte} {run : Nat} {prev : Option Byte} (hrun : run ≤ 4)
    (h : expandFrom run prev bytes = some out) : out.length ≤ bytes.length + 254 * ((bytes.length + run) / 5) := by
  induction bytes generalizing run prev out with
  | nil =>
    rw [expandFrom] at h
    split at h <;> cases h
    exact Nat.zero_le _
  | cons b rest ih =>
    rw [expandFrom] at h
    split at h
    · obtain ⟨tail, htail, rfl⟩ := Option.map_eq_some_iff.1 h
      have hle := ih (Nat.zero_le 4) htail
      have hb := b.isLt
      simp only [List.length_append, List.length_replicate, List.length_cons]
      omega
    · obtain ⟨tail, htail, rfl⟩ := Option.map_eq_some_iff.1 h
      split at htail
      all_goals
        have hle := ih (by omega) htail
        simp only [List.length_cons]
        omega

/-- The first byte of a block is never a count byte. -/
theorem expand_cons (b : Byte) (rest : List Byte) :
    expand (b :: rest) = (expandFrom 1 (some b) rest).map (b :: ·) := rfl

/-- Settles O26: the bound of a block from its start, and its first byte, which is output. -/
theorem expansionBound : Obligations.ExpansionBound := by
  intro bytes out h
  have hlen : out.length ≤ bytes.length + 254 * (bytes.length / 5) := expandFrom_length_le (Nat.zero_le 4) h
  refine ⟨hlen, fun hmax => ?_, fun hne => ?_⟩
  · unfold Config.maxBlock at hmax
    unfold Config.maxExpanded
    omega
  · obtain ⟨b, rest, rfl⟩ := List.exists_cons_of_ne_nil hne
    obtain ⟨tail, -, rfl⟩ := Option.map_eq_some_iff.1 (expand_cons b rest ▸ h)
    exact List.cons_ne_nil b tail

/-! ### The bytes of `RECON` (46_output_rle.md R266 to R268) -/

/-- In both passes the work is `ExpandNext()`; they differ at the end of the block alone. -/
theorem plannedWork_expandNext {s : State} (hp : s.seq.pos = .prepass ∨ (s.seq.pos = .release ∧ s.seq.readLeft ≠ 0)) :
    ∃ atEnd, plannedWork s = expandNext atEnd s := by
  rcases hp with hp | ⟨hp, hl⟩
  · exact ⟨_, by rw [plannedWork, hp]⟩
  · exact ⟨_, by rw [plannedWork, hp]; exact if_neg hl⟩

/-- The step of a pass executes the byte class its bits decode to. -/
theorem step_of_reconBits {s : State} {i : Instr} {bits rest : List Bool}
    (hp : s.seq.pos = .prepass ∨ (s.seq.pos = .release ∧ s.seq.readLeft ≠ 0)) (hr : s.exp.rep = 0)
    (hb : reconBits s = .ok bits) (hd : decode (.recon s.exp.run) bits = .ok (i, rest)) (hw : readWidths i = []) :
    step s = exec i s := by
  obtain ⟨atEnd, hplan⟩ := plannedWork_expandNext hp
  refine step_of_instr (hplan.trans (expandNext_of_decode atEnd hr hb hd)) ?_
  rw [hw, answers_nil]

/-- The byte of `RECON` at `EXP_POS`, as bits. -/
theorem reconBits_of_cell {s : State} {b : Byte} (hn : s.exp.pos ≠ s.sym.n) (hl : s.exp.pos < s.entries)
    (hb : cellRead s.mem.recon s.exp.pos = some b) : reconBits s = .ok (bitsOf 8 b.toNat) := by
  rw [reconBits, if_neg hn, readEntry_ok.2 ⟨hl, hb⟩]
  rfl

/-- A byte after four equal ones is a count, every other a literal (30_encoding.md R115). -/
theorem decode_recon_byte (run : Nat) (b : Byte) :
    decode (.recon run) (bitsOf 8 b.toNat) = .ok (if run = 4 then .count b else .lit b, []) := by
  have decoded (i : Instr) (hwf : i.wf = true) (hadm : DecodeCtx.admits (.recon run) i = true) :
      decode (.recon run) (encode i) = .ok (i, []) := by
    have hdecode := decodeInvertsEncode _ i [] hwf hadm
    rwa [List.append_nil] at hdecode
  split
  · exact decoded (.count b) rfl (decide_eq_true ‹_›)
  · exact decoded (.lit b) rfl (decide_eq_true ‹_›)

/-- Settles O11: the owed copy is a stage; else the step runs what the bits of `RECON` decode to. -/
theorem stepExecutesReconByte : Obligations.StepExecutesReconByte := by
  intro s hp
  refine ⟨fun hr => step_of_stage (StageTo.owedCopy hp hr).planned, fun b hr hn hl hb => ?_, fun hr hn h4 => ?_⟩
  · exact step_of_reconBits hp hr (reconBits_of_cell hn hl hb) (decode_recon_byte _ b) (by split <;> rfl)
  · exact step_of_reconBits (rest := []) hp hr (if_pos hn) (by rw [h4]; rfl) rfl

/-- Settles O25: LIT returns its byte; a count of 0 owes nothing, and another returns its first copy at once. -/
theorem litAndCountExpand : Obligations.LitAndCountExpand := by
  intro b s
  refine ⟨rfl, fun hb => hb ▸ rfl, fun hb => ?_⟩
  have hpos : 0 < b.toNat := Nat.pos_of_ne_zero fun h => hb (BitVec.eq_of_toNat_eq h)
  exact congrArg Host.Outcome.next (if_pos hpos)

/-! ### One call of the expander (46_output_rle.md R266) -/

/-- The bytes returned one by one. -/
def giveBytes (out : List Byte) (s : State) : State := out.foldl (fun u b => returnByte b u) s

/-- The bytes gone to the CRC and the count, as in the pre-pass (46_output_rle.md R271). -/
def countBytes (out : List Byte) (s : State) : State :=
  { s with
    crc := { s.crc with running := out.foldl crcUpdate s.crc.running }
    seq := { s.seq with expCount := s.seq.expCount + out.length } }

theorem countBytes_append (out out' : List Byte) (s : State) :
    countBytes (out ++ out') s = countBytes out' (countBytes out s) := by
  simp [countBytes, Nat.add_assoc]

/-- Before the block is active the bytes returned are counted. -/
theorem giveBytes_of_not_active {s : State} (h : s.ctrl.phase ≠ .blockActive) (out : List Byte) :
    giveBytes out s = countBytes out s := by
  induction out generalizing s with
  | nil => rfl
  | cons b rest ih =>
    calc giveBytes (b :: rest) s = giveBytes rest (returnByte b s) := rfl
      _ = giveBytes rest (countBytes [b] s) := congrArg _ (if_neg h)
      _ = countBytes rest (countBytes [b] s) := ih h
      _ = countBytes (b :: rest) s := (countBytes_append [b] rest s).symm

/-- A bound on the calls of `ExpandNext()` still to come: 256 for each byte of `RECON`, and the copies owed. -/
def callsLeft (s : State) : Nat := (s.sym.n - s.exp.pos) * 256 + s.exp.rep

theorem callsLeft_returnByte (b : Byte) (s : State) : callsLeft (returnByte b s) = callsLeft s := by
  rcases returnByte_cases b s with ⟨-, e⟩ | ⟨-, e⟩ <;> rw [e] <;> rfl

/-- The expander goes on from `s` to `t` by returning `out`: `Emits`, with nothing changed but its registers and by those
bytes; and fewer calls are to come. -/
structure Expands (s t : State) (out : List Byte) : Prop where
  emits : Emits s t out
  gives : ∃ e, t = giveBytes out { s with exp := e }
  calls : callsLeft t < callsLeft s

/-- An owed copy is the first of the bytes to come. -/
theorem owedCopy_expands {s : State} (hready : ExpanderReady s) (hr : 0 < s.exp.rep) :
    Expands s (owedCopy s) [prevByte s] := by
  obtain ⟨hpos, hrun, hprev⟩ := hready
  obtain ⟨b, hb⟩ := Option.ne_none_iff_exists'.1 (hprev (.inr hr))
  obtain ⟨m, hm⟩ := Nat.exists_eq_add_of_lt hr
  refine ⟨returnByte_emits ?_ ⟨hpos, hrun, fun _ => by rw [hb]; nofun⟩ rfl, ⟨_, rfl⟩, ?_⟩
  · rw [prevByte_some hb]
    simp [expansionLeft, hm, hb, List.replicate_succ, Function.comp_def, reconFrom]
  · rw [owedCopy, callsLeft_returnByte]
    simp only [callsLeft]
    omega

theorem execLit_expands {s : State} {b : Byte} (hready : ExpanderReady s) (hr : s.exp.rep = 0) (h4 : s.exp.run ≠ 4)
    (hlt : s.exp.pos < s.sym.n) (hb : cellRead s.mem.recon s.exp.pos = some b) :
    ∃ t, execLit b s = .next t ∧ Expands s t [b] := by
  obtain ⟨t, hx, hemits⟩ := execLit_emits hready hr h4 hlt hb
  refine ⟨t, hx, hemits, ⟨_, (Host.Outcome.next.inj hx).symm⟩, ?_⟩
  rw [← Host.Outcome.next.inj hx, callsLeft_returnByte]
  simp only [callsLeft]
  omega

/-- The run closed by a count byte, with every copy of it still owed (46_output_rle.md R268). -/
def closeRun (n : Byte) (s : State) : State :=
  { s with exp := { s.exp with pos := s.exp.pos + 1, rep := countCopies n, run := 0 } }

/-- A count byte returns nothing itself. -/
theorem closeRun_expands {s : State} {b : Byte} (hready : ExpanderReady s) (hr : s.exp.rep = 0) (h4 : s.exp.run = 4)
    (hlt : s.exp.pos < s.sym.n) (hb : cellRead s.mem.recon s.exp.pos = some b) : Expands s (closeRun b s) [] where
  emits := {
    left := by
      rw [expansionLeft_of_rep_zero hr, reconFrom_of_lt hlt hb, expandFrom, if_pos h4]
      simp only [List.nil_append, Option.map_id']
      rfl
    ready := by
      obtain ⟨-, -, hprev⟩ := hready
      exact ⟨hlt, Nat.zero_le _, fun _ => hprev (.inl (by omega))⟩
    ctrl := rfl, mem := rfl, sym := rfl, pos := rfl
    released := fun _ => ⟨rfl, rfl⟩
    counted := fun _ => rfl }
  gives := ⟨_, rfl⟩
  calls := by
    have hcopies : countCopies b < 256 := b.isLt
    simp only [callsLeft, closeRun]
    omega

theorem execCount_expands {s : State} {b : Byte} (hready : ExpanderReady s) (hr : s.exp.rep = 0) (h4 : s.exp.run = 4)
    (hlt : s.exp.pos < s.sym.n) (hb : cellRead s.mem.recon s.exp.pos = some b) :
    ∃ t out, execCount b s = .next t ∧ Expands s t out := by
  have hclose := closeRun_expands hready hr h4 hlt hb
  by_cases hcopies : 0 < countCopies b
  · have hcopy := owedCopy_expands hclose.emits.ready hcopies
    exact ⟨_, _, congrArg Host.Outcome.next (if_pos hcopies),
      hclose.emits.trans hcopy.emits, ⟨_, rfl⟩, hcopy.calls.trans hclose.calls⟩
  · exact ⟨_, _, congrArg Host.Outcome.next (if_neg hcopies), hclose⟩

/-- In either pass a step over a written block returns the next bytes, until the block ends. -/
theorem step_expands {s : State} (hp : s.seq.pos = .prepass ∨ (s.seq.pos = .release ∧ s.seq.readLeft ≠ 0))
    (hblock : BlockReady s) (hready : ExpanderReady s) (hmore : 0 < s.exp.rep ∨ s.exp.pos < s.sym.n) :
    ∃ t out, step s = .next t ∧ Expands s t out := by
  obtain ⟨howed, hbyte, -⟩ := stepExecutesReconByte s hp
  by_cases hr : 0 < s.exp.rep
  · exact ⟨_, _, howed hr, owedCopy_expands hready hr⟩
  obtain ⟨halloc, hfit, hw⟩ := hblock
  have hr0 : s.exp.rep = 0 := Nat.eq_zero_of_not_pos hr
  have hlt : s.exp.pos < s.sym.n := hmore.resolve_left hr
  obtain ⟨b, hb⟩ := Option.isSome_iff_exists.1 (hw _ hlt)
  rw [hbyte b hr0 hlt.ne (entries_of_allocated halloc ▸ hlt.trans_le hfit) hb]
  by_cases h4 : s.exp.run = 4
  · rw [if_pos h4]
    exact execCount_expands hready hr0 h4 hlt hb
  · rw [if_neg h4]
    obtain ⟨t, hx, he⟩ := execLit_expands hready hr0 h4 hlt hb
    exact ⟨t, _, hx, he⟩

end Sys2Proof.Machine
end

section
/-! PROOF. The pre-pass (46_output_rle.md R271, 45_crc.md R253 to R255), from its start to its end: how far it has come, that
it comes to an end, and what the check there does. -/

namespace Sys2Proof.Machine

/-! ### How far the pre-pass has come -/

/-- The pre-pass started at `s`, with the expander at `e` and the bytes `out` gone to the CRC and the count. -/
def prepassAfter (s : State) (e : Expander) (out : List Byte) : State := countBytes out { startPrepass s with exp := e }

theorem prepassAfter_expCount (s : State) (e : Expander) (out : List Byte) :
    (prepassAfter s e out).seq.expCount = out.length := Nat.zero_add _

/-- 45_crc.md R253, R254. -/
theorem prepassAfter_crc (s : State) (e : Expander) (out : List Byte) :
    crcFinal (prepassAfter s e out).crc.running = blockCrc out := rfl

theorem prepassAfter_giveBytes {s : State} (hphase : s.ctrl.phase = .blockPending) (e e' : Expander) (out out' : List Byte) :
    giveBytes out' { prepassAfter s e out with exp := e' } = prepassAfter s e' (out ++ out') := by
  have hinactive : { prepassAfter s e out with exp := e' }.ctrl.phase ≠ .blockActive := fun h => nomatch hphase.symm.trans h
  exact (giveBytes_of_not_active hinactive out').trans (countBytes_append out out' { startPrepass s with exp := e' }).symm

/-- The pre-pass of the block of `s` has come to `u`, with `out` the first bytes of the expansion. -/
structure PrepassAt (s u : State) (out : List Byte) : Prop where
  counted : ∃ e, u = prepassAfter s e out
  ready : ExpanderReady u
  left : expand (reconFrom s 0) = (expansionLeft u).map (out ++ ·)

theorem prepassAt_start (s : State) : PrepassAt s (startPrepass s) [] where
  counted := ⟨_, rfl⟩
  ready := ⟨Nat.zero_le _, Nat.zero_le _, fun h => absurd h (by simp [startPrepass])⟩
  left := by
    rw [expansionLeft_of_rep_zero rfl]
    simp only [List.nil_append, Option.map_id']
    rfl

theorem PrepassAt.expands {s u t : State} {out out' : List Byte} (h : PrepassAt s u out)
    (hphase : s.ctrl.phase = .blockPending) (hx : Expands u t out') : PrepassAt s t (out ++ out') where
  counted := by
    obtain ⟨e, rfl⟩ := h.counted
    obtain ⟨e', rfl⟩ := hx.gives
    exact ⟨e', prepassAfter_giveBytes hphase e e' out out'⟩
  ready := hx.emits.ready
  left := by
    rw [h.left, hx.emits.left, Option.map_map]
    simp only [Function.comp_def, List.append_assoc]

/-! ### Its end -/

/-- How the pre-pass of the block of `s` ends: a count byte is missing, or the CRC of the whole expansion is checked. -/
inductive PrepassEnd (s : State) : State → Prop
  | missing {u : State} {out : List Byte} (h : PrepassAt s u out) (hnone : expand (reconFrom s 0) = none) :
      PrepassEnd s (raiseFault .rleCountMissing u)
  | checked {u : State} {out : List Byte} (h : PrepassAt s u out) (hsome : expand (reconFrom s 0) = some out) :
      PrepassEnd s (finishPrepass u)

/-- At the end of the block the pre-pass ends. -/
theorem PrepassAt.step_end {s u : State} {out : List Byte} (h : PrepassAt s u out) (hp : u.seq.pos = .prepass)
    (hr : u.exp.rep = 0) (hn : u.exp.pos = u.sym.n) : ∃ t, step u = .next t ∧ PrepassEnd s t := by
  obtain ⟨-, -, hmissing⟩ := stepExecutesReconByte u (.inl hp)
  by_cases h4 : u.exp.run = 4
  · refine ⟨_, hmissing hr hn h4, .missing h ?_⟩
    rw [h.left, expansionLeft_missing hr hn h4, Option.map_none]
  · refine ⟨_, step_of_stage (StageTo.finishPrepass hp hr hn h4).planned, .checked h ?_⟩
    rw [h.left, expansionLeft_end hr hn h4, Option.map_some, List.append_nil]

/-- The pre-pass ends: each step leaves fewer calls. -/
theorem PrepassAt.runs_to_end {s u : State} {out : List Byte} (hblock : BlockReady s) (hphase : s.ctrl.phase = .blockPending)
    (h : PrepassAt s u out) : ∃ k t, Host.Core.run Sys2Proof.core k u = .next t ∧ PrepassEnd s t := by
  induction hcalls : callsLeft u using Nat.strong_induction_on generalizing u out with
  | _ calls ih =>
    obtain ⟨hp, hblock'⟩ : u.seq.pos = .prepass ∧ BlockReady u := by
      obtain ⟨e, rfl⟩ := h.counted
      exact ⟨rfl, hblock⟩
    by_cases hmore : 0 < u.exp.rep ∨ u.exp.pos < u.sym.n
    · obtain ⟨v, out', hstep, hx⟩ := step_expands (.inl hp) hblock' h.ready hmore
      obtain ⟨k, t, hrun, hend⟩ := ih _ (hcalls ▸ hx.calls) (h.expands hphase hx) rfl
      exact ⟨k + 1, t, (run_next hstep k).trans hrun, hend⟩
    · have hpos := h.ready.1
      obtain ⟨t, hstep, hend⟩ := h.step_end hp (by omega) (by omega)
      exact ⟨1, t, run_next hstep 0, hend⟩

/-- The whole pre-pass, from its start. -/
theorem prepass_runs_to_end {s : State} (hp : s.seq.pos = .prepassStart) (hblock : BlockReady s)
    (hphase : s.ctrl.phase = .blockPending) :
    ∃ k t, Host.Core.run Sys2Proof.core k s = .next t ∧ PrepassEnd s t := by
  obtain ⟨k, t, hrun, hend⟩ := (prepassAt_start s).runs_to_end hblock hphase
  exact ⟨k + 1, t, (run_next (step_of_stage (StageTo.prepassStart hp).planned) k).trans hrun, hend⟩

theorem PrepassEnd.mem_reader {s t : State} (h : PrepassEnd s t) : t.mem = s.mem ∧ t.reader = s.reader := by
  cases h with
  | missing h =>
    obtain ⟨e, rfl⟩ := h.counted
    exact ⟨rfl, rfl⟩
  | checked h =>
    obtain ⟨e, rfl⟩ := h.counted
    exact ⟨finishPrepass_mem _, finishPrepass_reader _⟩

/-! ### The check (45_crc.md R255) -/

/-- A block that has the stored CRC is active, its bytes counted are to be released, and the READ in progress goes on: one that
has drained answers, another releases (46_output_rle.md R271, 47_stream_control.md R287, R292). -/
theorem finishPrepass_of_match {s : State} (h : crcFinal s.crc.running = s.blk.storedCrc) :
    (finishPrepass s).crc.block = crcFinal s.crc.running ∧ (finishPrepass s).ctrl.phase = .blockActive ∧
      (finishPrepass s).exp = ⟨0, 0, none, 0, s.seq.expCount⟩ ∧
      (s.seq.drained = true → (finishPrepass s).seq.pos = .idle ∧
        (finishPrepass s).host.responses = s.host.responses ++ [.data s.seq.data]) ∧
      (s.seq.drained = false → (finishPrepass s).seq.pos = .release ∧
        (finishPrepass s).host.responses = s.host.responses ∧
        (finishPrepass s).seq.readLeft = min s.seq.readCount s.seq.expCount) := by
  rcases finishPrepass_cases s with ⟨hne, -⟩ | ⟨-, e⟩
  · exact absurd h hne
  rw [e]
  rcases afterMarker_cases _ with ⟨hd, e'⟩ | ⟨-, hdone, -⟩ | ⟨hd, -, e'⟩
  · rw [e']
    exact ⟨rfl, rfl, rfl, fun _ => ⟨rfl, rfl⟩, fun h => absurd (hd.symm.trans h) nofun⟩
  · cases hdone
  · rw [e']
    exact ⟨rfl, rfl, rfl, fun h => absurd (hd.symm.trans h) nofun, fun _ => ⟨rfl, rfl, rfl⟩⟩

/-- A block that has another CRC faults (45_crc.md R255). -/
theorem finishPrepass_of_mismatch {s : State} (h : crcFinal s.crc.running ≠ s.blk.storedCrc) :
    (finishPrepass s).crc.block = crcFinal s.crc.running ∧ (finishPrepass s).ctrl.phase = .faulted ∧
      (finishPrepass s).ctrl.faultCode = 16 ∧
      (finishPrepass s).host.responses = s.host.responses ++ [.fault 16] := by
  rcases finishPrepass_cases s with ⟨-, e⟩ | ⟨heq, -⟩
  · rw [e]
    exact ⟨rfl, rfl, rfl, rfl⟩
  · exact absurd heq h

/-- Settles O41: the pre-pass runs to one of its ends, by the calls left; the check at the end finds the CRC and the length of
the whole expansion. -/
theorem prepassChecksBlockCrc : Obligations.PrepassChecksBlockCrc := by
  intro s hp hphase halloc hfit hw
  obtain ⟨k, t, hrun, hend⟩ := prepass_runs_to_end hp ⟨halloc, hfit, hw⟩ hphase
  obtain ⟨hmem, hreader⟩ := hend.mem_reader
  refine ⟨k, t, hrun, hmem, hreader, ?_⟩
  cases hend with
  | missing h hnone =>
    obtain ⟨e, rfl⟩ := h.counted
    rw [hnone]
    exact ⟨fun _ => ⟨rfl, rfl, rfl⟩, nofun⟩
  | @checked _ out h hsome =>
    obtain ⟨e, rfl⟩ := h.counted
    rw [hsome]
    refine ⟨nofun, ?_⟩
    rintro _ ⟨⟩
    by_cases hcrc : blockCrc out = s.blk.storedCrc
    · have hmatch := finishPrepass_of_match (s := prepassAfter s e out) hcrc
      rw [prepassAfter_expCount, prepassAfter_crc] at hmatch
      obtain ⟨hblock, hgoesOn⟩ := hmatch
      exact ⟨hblock, absurd hcrc, fun _ => hgoesOn⟩
    · obtain ⟨hblock, hfault⟩ := finishPrepass_of_mismatch (s := prepassAfter s e out) hcrc
      exact ⟨hblock, fun _ => hfault, fun h => absurd h hcrc⟩

end Sys2Proof.Machine
end

section
/-! PROOF. The host's commands (47_stream_control.md R280 to R302): how one is taken, and what each answers and leaves. -/

namespace Sys2Proof.Machine

/-- A command of R280 is the instruction it is issued for. -/
theorem decodeCommand_of_encodeCommand {i : Instr} {c : HostCmd} (h : encodeCommand i = some c) :
    decodeCommand c = some i := by
  cases i <;> cases h <;> rfl

/-- Between commands the oldest command is run at once: it reads nothing of the stream. -/
theorem step_of_command {s : State} {c : HostCmd} {rest : List HostCmd} {i : Instr} (hp : s.seq.pos = .idle)
    (hc : s.host.cmds = c :: rest) (hd : decodeCommand c = some i) :
    step s = exec i { s with host := { s.host with cmds := rest } } := by
  refine step_of_instr ?_ (by rw [readWidths_command hd, answers_nil])
  simp [plannedWork, hp, takeCommand, hc, hd]

/-- Between commands an answer leaves the position too. -/
theorem respond_eq_answered {s : State} (hp : s.seq.pos = .idle) (r : Response) : s.respond r = s.answered r := by
  rw [State.respond, ← hp]
  rfl

theorem refuseUnsupported_eq_answered {s : State} (hp : s.seq.pos = .idle) :
    refuseUnsupported s = s.answered (.refused (if s.ctrl.closed = true then .closed else .unsupported)) :=
  respond_eq_answered hp _

/-- Settles O12: a named command is run; without one, or with one that R280 does not name, the step is a stage. -/
theorem stepTakesCommand : Obligations.StepTakesCommand := by
  intro s hp
  refine ⟨fun hc => step_of_stage (StageTo.noCommand hp hc).planned,
    fun i c rest hi hc => step_of_command hp hc (decodeCommand_of_encodeCommand hi), fun number args rest hc => ?_⟩
  rw [step_of_stage (StageTo.unknownCommand _ rest hp hc rfl).planned, refuseUnsupported_eq_answered (by exact hp)]

/-- Settles O27: the elements of `State.resetTo` to which R340 gives a value. -/
theorem resetGivesResetState : Obligations.ResetGivesResetState := by
  intro source owns s
  exact ⟨_, rfl, rfl, rfl, rfl, rfl, rfl, rfl, rfl, fun _ => ⟨rfl, rfl, rfl⟩, rfl, rfl, rfl⟩

/-- A command other than RESET is refused once CLOSE has run (47_stream_control.md R301). -/
theorem exec_command_of_closed {i : Instr} {c : HostCmd} {s : State} (hclosed : s.ctrl.closed = true)
    (hi : encodeCommand i = some c) (hne : ∀ source owns, i ≠ .reset source owns) :
    exec i s = .next (s.respond (.refused .closed)) := by
  cases i <;> cases hi
  case reset source owns => exact absurd rfl (hne source owns)
  case read => rw [exec, execRead, if_pos hclosed]
  case close => rw [exec, execClose, if_pos hclosed]
  case getCaps => rw [exec, execGetCaps, if_pos hclosed]
  all_goals
    show Host.Outcome.next (s.respond (.refused (if s.ctrl.closed = true then .closed else .unsupported))) = _
    rw [if_pos hclosed]

/-- Settles O28: the checks in the order of `execRead`, and the two starts of `startRead`. -/
theorem readChecksThenStarts : Obligations.ReadChecksThenStarts := by
  intro count s hp
  simp only [← respond_eq_answered hp]
  refine ⟨fun hclosed => exec_command_of_closed hclosed rfl nofun, fun hclosed => ?_⟩
  have hopen : exec (.read count) s = if count = 0 then .next (s.respond (.refused .badArgument))
      else if s.ctrl.phase = .faulted then .next (s.respond (.fault s.ctrl.faultCode))
      else if s.ctrl.phase = .done then .next (s.respond .eof)
      else .next (startRead count s) := if_neg (by rw [hclosed]; nofun)
  rw [hopen]
  refine ⟨fun h0 => if_pos h0, fun h0 => ?_⟩
  rw [if_neg h0]
  refine ⟨fun hfaulted => if_pos hfaulted, fun hdone => ?_, fun hheader => ?_, fun hactive => ?_⟩
  · rw [hdone]
    rfl
  · rcases startRead_cases count s with ⟨-, e⟩ | ⟨hne, -⟩
    · rw [e, hheader]
      rfl
    · exact absurd hheader hne
  · rcases startRead_cases count s with ⟨hheader, -⟩ | ⟨-, e⟩
    · cases hactive.symm.trans hheader
    · rw [e, hactive]
      rfl

/-- Settles O29: CLOSE releases, unless it is refused. -/
theorem closeReleases : Obligations.CloseReleases := by
  intro s hp
  refine ⟨fun hclosed => ?_, fun hclosed => ?_⟩
  · rw [exec_command_of_closed hclosed (i := .close) rfl nofun, respond_eq_answered hp]
  · rw [exec, execClose, if_neg (by rw [hclosed]; nofun)]
    exact congrArg Host.Outcome.next (respond_eq_answered (by exact hp) .ok)

/-- Settles O30: GET_CAPS answers while the engine is open; the unsupported commands have one meaning, their refusal. -/
theorem capsAndRefusals : Obligations.CapsAndRefusals := by
  intro s hp
  refine ⟨fun hclosed => ?_, fun args i hi => ?_, fun i c hclosed hi hne => ?_⟩
  · rw [exec, execGetCaps, if_neg (by rw [hclosed]; nofun), respond_eq_answered hp]
  · have hrefused : exec i s = .next (refuseUnsupported s) := by
      simp only [List.mem_cons, List.not_mem_nil, or_false] at hi
      rcases hi with rfl | rfl | rfl | rfl | rfl | rfl <;> rfl
    rw [hrefused, refuseUnsupported_eq_answered hp]
  · rw [exec_command_of_closed hclosed hi hne, respond_eq_answered hp]

end Sys2Proof.Machine
end

section
/-! PROOF. The elements that start a stream or a block, or end it (47_stream_control.md R288 to R293): what each loads. -/

namespace Sys2Proof.Machine

/-- Settles O13: HDR is its reads and its registers. -/
theorem hdrLoadsCapacity : Obligations.HdrLoadsCapacity := fun _ _ => rfl

/-- Settles O15: BLK is its reads and its registers, of which `RAND` is written first. -/
theorem blkLoadsBlockHeader : Obligations.BlkLoadsBlockHeader := by
  intro bcrc rand origPtr s
  simp only [exec, execBlk, State.goto, State.setRand, State.consume, readWidths]

/-- An end marker with the stream's CRC ends NextMarker in DONE (47_stream_control.md R293). -/
theorem exec_eos_of_match {scrc : Word} {s : State} (h : scrc = s.crc.combined) :
    exec (.eos scrc) s = .next (afterMarker ((s.consume (.eos scrc)).setPhase .done)) := if_neg (Classical.not_not.2 h)

theorem exec_eos_of_mismatch {scrc : Word} {s : State} (h : scrc ≠ s.crc.combined) :
    exec (.eos scrc) s = .next (raiseFault .streamCrcMismatch (s.consume (.eos scrc))) := if_pos h

/-- Settles O16: the check, then what a READ answers when NextMarker ends in DONE. -/
theorem eosChecksStreamCrc : Obligations.EosChecksStreamCrc := by
  intro scrc s
  by_cases hcrc : scrc = s.crc.combined
  · rw [if_pos hcrc, exec_eos_of_match hcrc]
    rcases afterMarker_cases ((s.consume (.eos scrc)).setPhase .done) with ⟨hd, e⟩ | ⟨hd, -, e⟩ | ⟨-, hne, -⟩
    · rw [e, if_pos (show s.seq.drained = true from hd)]
      rfl
    · rw [e, if_neg (Bool.eq_false_iff.1 (show s.seq.drained = false from hd))]
      rfl
    · exact absurd rfl hne
  · rw [if_neg hcrc, exec_eos_of_mismatch hcrc, raiseFault_eq_faultedWith]
    rfl

end Sys2Proof.Machine
end

section
/-! PROOF. A step seen from the host (47_stream_control.md R281 to R283): what it does to the phase, to the command in
progress and to the responses, one named case each. -/

namespace Sys2Proof.Machine

/-! ### The commands -/

/-- What taking a command does: an answer that carries no data, a READ that starts, CLOSE, or RESET
(47_stream_control.md R284, R287, R298 to R302). -/
inductive CommandTo (s : State) : HostCmd → State → Prop
  | answers (c : HostCmd) (r : Response) (hr : ∀ bytes, r ≠ .data bytes) : CommandTo s c (s.respond r)
  | starts (count : Nat) (hcount : count ≠ 0) (hclosed : s.ctrl.closed = false) (hfaulted : s.ctrl.phase ≠ .faulted)
      (hdone : s.ctrl.phase ≠ .done) : CommandTo s (.read count) (startRead count s)
  | closes (released : Bool) : CommandTo s .close (State.respond .ok { s with
      mem := ⟨false, [], [], []⟩
      ctrl := { s.ctrl with closed := true, sourceReleased := released } })
  | resets (source : Source) (owns : Bool) : CommandTo s (.reset source owns) ((s.resetWith source owns).respond .ok)

theorem refuseUnsupported_commandTo (c : HostCmd) (s : State) : CommandTo s c (refuseUnsupported s) := .answers c _ nofun

theorem execRead_commandTo {count : Nat} {s t : State} (h : execRead count s = .next t) : CommandTo s (.read count) t := by
  unfold execRead at h
  split at h
  · cases h; exact .answers _ _ nofun
  split at h
  · cases h; exact .answers _ _ nofun
  split at h
  · cases h; exact .answers _ _ nofun
  split at h <;> cases h
  · exact .answers _ _ nofun
  · exact .starts count ‹_› (Bool.eq_false_iff.2 ‹_›) ‹_› ‹_›

theorem exec_commandTo {c : HostCmd} {i : Instr} {s t : State} (hd : decodeCommand c = some i) (hx : exec i s = .next t) :
    CommandTo s c t := by
  cases c <;> cases hd
  case reset source owns => cases hx; exact .resets source owns
  case read => exact execRead_commandTo hx
  case close =>
    simp only [exec, execClose] at hx
    split at hx <;> cases hx
    · exact .answers _ _ nofun
    · exact .closes _
  case getCaps =>
    simp only [exec, execGetCaps] at hx
    split at hx <;> cases hx <;> exact .answers _ _ nofun
  all_goals cases hx; exact refuseUnsupported_commandTo _ s

/-! ### The command in progress -/

/-- The control registers, the host's side and the READ in progress are as they were. -/
structure KeepsCommand (s t : State) : Prop where
  ctrl : t.ctrl = s.ctrl
  host : t.host = s.host
  readCount : t.seq.readCount = s.seq.readCount
  data : t.seq.data = s.seq.data
  drained : t.seq.drained = s.seq.drained

theorem KeepsCommand.refl (s : State) : KeepsCommand s s := ⟨rfl, rfl, rfl, rfl, rfl⟩

theorem KeepsCommand.consume {s u : State} (h : KeepsCommand s u) (i : Instr) : KeepsCommand s (u.consume i) :=
  ⟨h.ctrl, h.host, h.readCount, h.data, h.drained⟩

theorem takeSymbolSlot_keepsCommand (s : State) : KeepsCommand s (takeSymbolSlot s) := by
  obtain ⟨_, _, _, e⟩ := takeSymbolSlot_eq s
  rw [e]
  exact ⟨rfl, rfl, rfl, rfl, rfl⟩

theorem awaitSource_keepsCommand (s : State) : KeepsCommand s s.awaitSource := by
  rcases awaitSource_cases s with ⟨-, e⟩ | ⟨_, _, -, e⟩ <;> rw [e] <;> exact ⟨rfl, rfl, rfl, rfl, rfl⟩

/-- The two passes over `RECON` (46_output_rle.md R271, R272). -/
def InPass (s : State) : Prop := s.seq.pos = .prepass ∨ (s.seq.pos = .release ∧ s.seq.readLeft ≠ 0)

/-- The end of the block in the pre-pass (46_output_rle.md R266, R271). -/
def PrepassDone (s : State) : Prop := s.seq.pos = .prepass ∧ s.exp.rep = 0 ∧ s.exp.pos = s.sym.n ∧ s.exp.run ≠ 4

/-- The block just made active, before the READ goes on (46_output_rle.md R271, 47_stream_control.md R291). -/
def activated (s : State) : State :=
  { s with
    crc := { s.crc with block := crcFinal s.crc.running }
    exp := ⟨0, 0, none, 0, s.seq.expCount⟩
    ctrl := { s.ctrl with phase := .blockActive }
    freeCount := s.freeCount + 1 }

/-- Everything a step can do to the phase, the command in progress and the responses. -/
inductive ControlTo (s : State) : State → Prop
  | rests (hp : s.seq.pos = .idle) (hc : s.host.cmds = []) : ControlTo s s
  | command {t : State} (c : HostCmd) (rest : List HostCmd) (hp : s.seq.pos = .idle) (hc : s.host.cmds = c :: rest)
      (h : CommandTo { s with host := { s.host with cmds := rest } } c t) : ControlTo s t
  | waits (hp : s.seq.pos ≠ .idle) : ControlTo s s.awaitSource
  | faults {u : State} (k : FaultKind) (hp : s.seq.pos ≠ .idle) (hk : KeepsCommand s u) : ControlTo s (raiseFault k u)
  | header {t : State} (d : BitVec 4) (hp : s.seq.pos = .header) (hx : execHdr d s = .next t) : ControlTo s t
  /-- On inside the block. From the inverse BWT on it has a byte, and the pre-pass starts with the expander reset. -/
  | works {t : State} (hs : s.seq.pos.inBlock = true) (ht : t.seq.pos.inBlock = true) (hk : KeepsCommand s t)
      (hblock : t.seq.pos.afterBwt = true → 1 ≤ t.sym.n ∨ (s.seq.pos.afterBwt = true ∧ t.sym.n = s.sym.n))
      (hfresh : t.seq.pos = .prepass → t.exp.pos = 0 ∧ t.exp.run = 0 ∧ t.exp.rep = 0) : ControlTo s t
  | ends (scrc : Word) (hp : s.seq.pos = .marker) : ControlTo s (afterMarker ((s.consume (.eos scrc)).setPhase .done))
  /-- A pass returns one byte, or none after a count byte. -/
  | returns (e : Expander) (out : List Byte) (hp : InPass s) (hrem : e.remaining = s.exp.remaining)
      (hlen : out.length ≤ 1) (hnone : out = [] → s.exp.run = 4) : ControlTo s (giveBytes out { s with exp := e })
  | activates (h : PrepassDone s) (hcrc : crcFinal s.crc.running = s.blk.storedCrc) : ControlTo s (afterMarker (activated s))
  | released (hp : s.seq.pos = .release) (hl : s.seq.readLeft = 0) : ControlTo s (releaseDone s)

/-- On inside the block, no further than the inverse BWT. -/
theorem ControlTo.before {s t : State} (hs : s.seq.pos.inBlock = true) (ht : t.seq.pos.inBlock = true)
    (ha : t.seq.pos.afterBwt = false) (hk : KeepsCommand s t) : ControlTo s t :=
  .works hs ht hk (fun h => absurd h (by rw [ha]; nofun)) fun h => by rw [h] at ha; cases ha

/-! ### The elements and stages of a block -/

theorem nextSelector_control {s u : State} (hs : s.seq.pos.inBlock = true) (hk : KeepsCommand s u) :
    ControlTo s (nextSelector u) := by
  obtain ⟨hctrl, hhost, hcount, hdata, hdrained⟩ := hk
  rcases nextSelector_cases u with ⟨-, e⟩ | ⟨-, e⟩ <;> rw [e] <;>
    exact .before hs rfl rfl ⟨hctrl, hhost, hcount, hdata, hdrained⟩

theorem afterLength_control {s u : State} (hs : s.seq.pos.inBlock = true) (hk : KeepsCommand s u) :
    ControlTo s (afterLength u) := by
  obtain ⟨hctrl, hhost, hcount, hdata, hdrained⟩ := hk
  obtain ⟨_, _, p, hp, e⟩ := afterLength_eq u
  rw [e]
  rcases hp with rfl | rfl | rfl <;> exact .before hs rfl rfl ⟨hctrl, hhost, hcount, hdata, hdrained⟩

theorem buildTree_control {s : State} (hp : s.seq.pos = .build) : ControlTo s (buildTree s) := by
  have hne : s.seq.pos ≠ .idle := by rw [hp]; nofun
  rcases buildTree_cases s with e | e | ⟨p, hpos, e⟩ <;> rw [e]
  · exact .faults _ hne (.refl s)
  · exact .faults _ hne (.refl s)
  · have hs : s.seq.pos.inBlock = true := by rw [hp]; rfl
    rcases hpos with rfl | rfl <;> exact .before hs rfl rfl ⟨rfl, rfl, rfl, rfl, rfl⟩

theorem runSymbol_control {s u : State} (hp : s.seq.pos = .symbol) (hk : KeepsCommand s u) (v : Nat) :
    ControlTo s (runSymbol v u) := by
  obtain ⟨hctrl, hhost, hcount, hdata, hdrained⟩ := hk
  unfold runSymbol
  dsimp only
  split
  · exact .faults _ (by rw [hp]; nofun) ⟨hctrl, hhost, hcount, hdata, hdrained⟩
  · exact .before (by rw [hp]; rfl) rfl rfl ⟨hctrl, hhost, hcount, hdata, hdrained⟩

theorem flushRun_keepsCommand {s t u : State} (hk : KeepsCommand s u) (h : flushRun u = .ok t) : KeepsCommand s t := by
  obtain ⟨hctrl, hhost, hcount, hdata, hdrained⟩ := hk
  obtain ⟨_, rfl, -⟩ := flushRun_ok h
  exact ⟨hctrl, hhost, hcount, hdata, hdrained⟩

theorem exec_symbol_control {n : Nat} {i : Instr} {s t u : State} (hp : s.seq.pos = .symbol) (hk : KeepsCommand s u)
    (hi : SymbolElement n i) (hx : exec i u = .next t) : ControlTo s t := by
  have hs : s.seq.pos.inBlock = true := by rw [hp]; rfl
  have hne : s.seq.pos ≠ .idle := by rw [hp]; nofun
  have hk' := hk.consume i
  cases hi with
  | runA code => cases hx; exact runSymbol_control hp hk' 0
  | runB code => cases hx; exact runSymbol_control hp hk' 1
  | mtf v code =>
    obtain ⟨w, hw, ht⟩ := bind_ok (outcomeOf_next.1 hx)
    obtain ⟨hctrl, hhost, hcount, hdata, hdrained⟩ := flushRun_keepsCommand hk' hw
    rcases mtfSymbol_ok ht with ⟨-, rfl⟩ | ⟨-, -, rfl⟩
    · exact .faults _ hne ⟨hctrl, hhost, hcount, hdata, hdrained⟩
    · exact .before hs rfl rfl ⟨hctrl, hhost, hcount, hdata, hdrained⟩
  | eob code =>
    obtain ⟨w, hw, ht⟩ := bind_ok (outcomeOf_next.1 hx)
    obtain ⟨hctrl, hhost, hcount, hdata, hdrained⟩ := flushRun_keepsCommand hk' hw
    cases ht
    exact .before hs rfl rfl ⟨hctrl, hhost, hcount, hdata, hdrained⟩
  | invalidSym v code =>
    obtain ⟨w, hw, ht⟩ := bind_ok (outcomeOf_next.1 hx)
    cases ht
    exact .faults _ hne (flushRun_keepsCommand hk' hw)
  | huffNoMatch bits => cases hx; exact .faults _ hne hk'

/-- A block whose inverse BWT is done has the byte at `ORIG_PTR` (43_inverse_bwt.md R220). -/
theorem inverseBwt_control {s t : State} (hp : s.seq.pos = .invBwt) (h : inverseBwt s = .ok t) : ControlTo s t := by
  unfold inverseBwt at h
  split at h
  · cases h
    exact .faults _ (by rw [hp]; nofun) ⟨rfl, rfl, rfl, rfl, rfl⟩
  · rename_i hptr
    obtain ⟨_, _, _, _, _, _, -, -, -, -, rfl⟩ := invertBlock_ok h
    exact .works (by rw [hp]; rfl) rfl ⟨rfl, rfl, rfl, rfl, rfl⟩ (fun _ => .inl (Nat.one_le_of_lt (not_le.1 hptr))) nofun

theorem derandomise_control {s t : State} (hp : s.seq.pos = .derand) (h : derandomise s = .ok t) : ControlTo s t := by
  have hs : s.seq.pos.inBlock = true := by rw [hp]; rfl
  have hafter : s.seq.pos.afterBwt = true := by rw [hp]; rfl
  rcases derandomise_ok h with ⟨-, rfl⟩ | ⟨-, _, _, -, rfl⟩ <;>
    exact .works hs rfl ⟨rfl, rfl, rfl, rfl, rfl⟩ (fun _ => .inr ⟨hafter, rfl⟩) nofun

theorem startPrepass_control {s : State} (hp : s.seq.pos = .prepassStart) : ControlTo s (startPrepass s) := by
  have hafter : s.seq.pos.afterBwt = true := by rw [hp]; rfl
  exact .works (by rw [hp]; rfl) rfl ⟨rfl, rfl, rfl, rfl, rfl⟩ (fun _ => .inr ⟨hafter, rfl⟩) fun _ => ⟨rfl, rfl, rfl⟩

theorem finishPrepass_control {s : State} (h : PrepassDone s) : ControlTo s (finishPrepass s) := by
  have hp : s.seq.pos = .prepass := h.1
  rcases finishPrepass_cases s with ⟨-, e⟩ | ⟨hcrc, e⟩ <;> rw [e]
  · exact .faults _ (by rw [hp]; nofun) ⟨rfl, rfl, rfl, rfl, rfl⟩
  · exact .activates h hcrc

/-! ### The passes -/

theorem InPass.pos_ne_idle {s : State} (h : InPass s) : s.seq.pos ≠ .idle := by
  rcases h with hp | ⟨hp, -⟩ <;> rw [hp] <;> nofun

theorem exec_recon_control {i : Instr} {s t : State} (hp : InPass s) (hi : ReconElement s.exp.run i)
    (hx : exec i s = .next t) : ControlTo s t := by
  cases hi with
  | lit b => cases hx; exact .returns _ [b] hp rfl (le_refl 1) nofun
  | count n h4 =>
    simp only [exec, execCount] at hx
    split at hx <;> cases hx
    · exact .returns _ [prevByte s] hp rfl (le_refl 1) nofun
    · exact .returns _ [] hp rfl (Nat.zero_le 1) fun _ => h4
  | rleTrunc => cases hx; exact .faults _ hp.pos_ne_idle (.refl s)

/-! ### The whole -/

theorem StageTo.control {s t : State} (h : StageTo s t) : ControlTo s t := by
  cases h with
  | noCommand hp hc => exact .rests hp hc
  | unknownCommand c rest hp hc => exact .command c rest hp hc (refuseUnsupported_commandTo c _)
  | badLength hp => exact .faults _ (by rw [hp]; nofun) (.refl s)
  | build hp => exact buildTree_control hp
  | startSymbols hp => exact .before (by rw [hp]; rfl) rfl rfl ⟨rfl, rfl, rfl, rfl, rfl⟩
  | usedUp hp =>
    refine .faults _ (by rw [hp]; nofun) ?_
    unfold nextGroup
    split <;> exact ⟨rfl, rfl, rfl, rfl, rfl⟩
  | invBwt hp h => exact inverseBwt_control hp h
  | derand hp h => exact derandomise_control hp h
  | prepassStart hp => exact startPrepass_control hp
  | owedCopy hp => exact .returns _ [prevByte s] hp rfl (le_refl 1) nofun
  | finishPrepass hp hr hn h4 => exact finishPrepass_control ⟨hp, hr, hn, h4⟩
  | releaseDone hp hl => exact .released hp hl

theorem ElementAt.control {s t u : State} {i : Instr} (h : ElementAt s i u) (hx : exec i u = .next t) : ControlTo s t := by
  have hne := h.pos_ne_idle
  cases h with
  | hdr d hp => exact .header d hp hx
  | hdrBadMagic => cases hx; exact .faults _ hne (.consume (.refl s) _)
  | hdrBadSize => cases hx; exact .faults _ hne (.consume (.refl s) _)
  | blk bcrc rand origPtr hp =>
    rw [← Host.Outcome.next.inj hx]
    exact .before (by rw [hp]; rfl) rfl rfl ⟨by simp, by simp, by simp, by simp, by simp⟩
  | eos scrc hp =>
    rcases execEos_cases hx with rfl | rfl
    · exact .faults _ hne (.consume (.refl s) _)
    · exact .ends scrc hp
  | badMark => cases hx; exact .faults _ hne (.consume (.refl s) _)
  | inUse g fields hp =>
    rcases execInUse_cases hx with rfl | rfl
    · exact .faults _ hne ⟨rfl, rfl, rfl, rfl, rfl⟩
    · exact .before (by rw [hp]; rfl) rfl rfl ⟨rfl, rfl, rfl, rfl, rfl⟩
  | nTrees n hp =>
    rcases execNTrees_cases hx with rfl | ⟨-, -, rfl⟩
    · exact .faults _ hne (.consume (.refl s) _)
    · exact .before (by rw [hp]; rfl) rfl rfl ⟨rfl, rfl, rfl, rfl, rfl⟩
  | nSel n hp =>
    rcases execNSel_cases hx with rfl | rfl
    · exact .faults _ hne (.consume (.refl s) _)
    · exact nextSelector_control (by rw [hp]; rfl) ⟨rfl, rfl, rfl, rfl, rfl⟩
  | sel j hp => cases hx; exact nextSelector_control (by rw [hp]; rfl) ⟨rfl, rfl, rfl, rfl, rfl⟩
  | selOverrun => cases hx; exact .faults _ hne (.consume (.refl s) _)
  | lBase l hp => cases hx; exact .before (by rw [hp]; rfl) rfl rfl ⟨rfl, rfl, rfl, rfl, rfl⟩
  | lEnd hp => cases hx; exact afterLength_control (by rw [hp]; rfl) ⟨rfl, rfl, rfl, rfl, rfl⟩
  | lInc hp =>
    cases hx
    exact .before (by rw [hp]; rfl) (by simp [hp, Position.inBlock]) (by simp [hp, Position.afterBwt])
      ⟨rfl, rfl, rfl, rfl, rfl⟩
  | lDec hp =>
    cases hx
    exact .before (by rw [hp]; rfl) (by simp [hp, Position.inBlock]) (by simp [hp, Position.afterBwt])
      ⟨rfl, rfl, rfl, rfl, rfl⟩
  | symbol hp _ hi => exact exec_symbol_control hp (takeSymbolSlot_keepsCommand s) hi hx

theorem controlTo_of_step {s t : State} (h : step s = .next t) : ControlTo s t := by
  cases stepTo_of_step h with
  | stage hs => exact hs.control
  | wait hp => exact .waits hp
  | command c rest hp hc hd hx => exact .command c rest hp hc (exec_commandTo hd hx)
  | element he hx => exact he.control hx
  | recon hp _ hi hx => exact exec_recon_control hp hi hx

end Sys2Proof.Machine
end

section
/-! PROOF. The phase over a step (47_stream_control.md R283, R292, R301; 10_state.md R33, R34), and the number of the responses
(R281, R282): read off the cases of `ControlTo`. -/

namespace Sys2Proof.Machine

/-! ### What the cases leave -/

theorem afterMarker_ctrl (s : State) : (afterMarker s).ctrl = s.ctrl := by
  rcases afterMarker_cases s with ⟨-, e⟩ | ⟨-, -, e⟩ | ⟨-, -, e⟩ <;> rw [e] <;> rfl

theorem afterMarker_crc (s : State) : (afterMarker s).crc = s.crc := by
  rcases afterMarker_cases s with ⟨-, e⟩ | ⟨-, -, e⟩ | ⟨-, -, e⟩ <;> rw [e] <;> rfl

theorem startRead_ctrl (count : Nat) (s : State) : (startRead count s).ctrl = s.ctrl := by
  rcases startRead_cases count s with ⟨-, e⟩ | ⟨-, e⟩ <;> rw [e]

theorem awaitSource_seq (s : State) : s.awaitSource.seq = s.seq := by
  rcases awaitSource_cases s with ⟨-, e⟩ | ⟨_, _, -, e⟩ <;> rw [e]

/-- The bytes returned leave the control registers, the host's side and the position. -/
theorem giveBytes_leaves (out : List Byte) (s : State) :
    (giveBytes out s).ctrl = s.ctrl ∧ (giveBytes out s).host = s.host ∧ (giveBytes out s).seq.pos = s.seq.pos := by
  induction out generalizing s with
  | nil => exact ⟨rfl, rfl, rfl⟩
  | cons b rest ih =>
    have hrest := ih (returnByte b s)
    rcases returnByte_cases b s with ⟨-, e⟩ | ⟨-, e⟩ <;> rw [e] at hrest <;> rw [giveBytes, List.foldl_cons, e] <;> exact hrest

/-! ### The phase agrees with the position -/

/-- A step that leaves the control registers and the position. -/
theorem PhaseInv.stands {s t : State} (h : PhaseInv s) (hctrl : t.ctrl = s.ctrl) (hpos : t.seq.pos = s.seq.pos) :
    PhaseInv t := by
  obtain ⟨hidle, hheader, hblock, hrelease, hclosed, hfault⟩ := h
  constructor <;> simpa only [hctrl, hpos]

/-- NextMarker ends a command, or goes on to release the active block. -/
theorem afterMarker_phaseInv {s : State} (hphase : s.ctrl.phase = .done ∨ s.ctrl.phase = .blockActive)
    (hclosed : s.ctrl.closed = false) (hfault : s.ctrl.faultCode = 0) : PhaseInv (afterMarker s) := by
  have answer (r : Response) : PhaseInv (s.respond r) := by
    refine (phaseInv_idle rfl).2 ?_
    rw [State.respond_ctrl, hfault]
    rcases hphase with e | e <;> rw [e] <;> decide
  rcases afterMarker_cases s with ⟨-, e⟩ | ⟨-, -, e⟩ | ⟨-, hne, e⟩ <;> rw [e]
  · exact answer _
  · exact answer _
  · exact (phaseInv_running (by nofun)).2 ⟨hphase.resolve_left hne, hclosed, hfault⟩

/-- Between commands READ finds the header or an active block, or answers (47_stream_control.md R283, R284). -/
theorem PhaseInv.readable {s : State} (h : PhaseInv s) (hp : s.seq.pos = .idle) (hfaulted : s.ctrl.phase ≠ .faulted)
    (hdone : s.ctrl.phase ≠ .done) : s.ctrl.phase = .header ∨ s.ctrl.phase = .blockActive := by
  cases hphase : s.ctrl.phase with
  | header => exact .inl rfl
  | blockPending => exact absurd hphase (h.idle hp)
  | blockActive => exact .inr rfl
  | done => exact absurd hphase hdone
  | faulted => exact absurd hphase hfaulted

theorem CommandTo.phaseInv {s t : State} {c : HostCmd} (hc : CommandTo s c t) (hp : s.seq.pos = .idle) (h : PhaseInv s) :
    PhaseInv t := by
  have hidle := (phaseInv_idle hp).1 h
  cases hc with
  | answers => exact (phaseInv_idle rfl).2 hidle
  | starts count _ hclosed hfaulted hdone =>
    have hfault : s.ctrl.faultCode = 0 := Classical.not_not.1 (hfaulted ∘ h.fault.1.2)
    rcases startRead_cases count s with ⟨hheader, e⟩ | ⟨hheader, e⟩ <;> rw [e]
    · exact (phaseInv_running (by nofun)).2 ⟨hheader, hclosed, hfault⟩
    · exact (phaseInv_running (by nofun)).2 ⟨(h.readable hp hfaulted hdone).resolve_left hheader, hclosed, hfault⟩
  | closes => exact (phaseInv_idle rfl).2 hidle
  | resets => exact (phaseInv_idle rfl).2 ⟨nofun, ⟨nofun, absurd rfl⟩, Nat.zero_le _⟩

theorem releaseDone_phaseInv {s : State} (h : PhaseInv s) (hp : s.seq.pos = .release) : PhaseInv (releaseDone s) := by
  obtain ⟨hphase, hclosed, hfault⟩ := (phaseInv_running (by rw [hp]; nofun)).1 h
  rcases releaseDone_cases s with ⟨-, e⟩ | ⟨-, e⟩ <;> rw [e]
  · exact (phaseInv_running (by nofun)).2 ⟨rfl, hclosed, hfault⟩
  · refine (phaseInv_idle rfl).2 ⟨?_, h.fault⟩
    rw [State.respond_ctrl, hphase, hp]
    nofun

/-- Settles O49: each case of a step leaves the phase that its new position has. -/
theorem phaseInvKept : Obligations.PhaseInvKept := by
  intro s t h hx
  have running (hp : s.seq.pos ≠ .idle) : s.ctrl.closed = false ∧ s.ctrl.faultCode = 0 := ((phaseInv_running hp).1 h).2
  cases controlTo_of_step hx with
  | rests => exact h
  | command c rest hp hc hcmd => exact hcmd.phaseInv hp (h.stands rfl rfl)
  | waits => exact h.stands (awaitSource_keepsCommand s).ctrl (by rw [awaitSource_seq])
  | @faults u k => exact (raiseFault_sound k u).phase
  | header d hp hx => cases hx; exact (phaseInv_running (by nofun)).2 ⟨rfl, running (by rw [hp]; nofun)⟩
  | works hs ht hk => exact h.moved hs ht hk.ctrl
  | ends scrc hp =>
    obtain ⟨hclosed, hfault⟩ := running (by rw [hp]; nofun)
    exact afterMarker_phaseInv (.inl rfl) hclosed hfault
  | returns e out =>
    obtain ⟨hctrl, -, hpos⟩ := giveBytes_leaves out { s with exp := e }
    exact h.stands hctrl hpos
  | activates hdone =>
    obtain ⟨hclosed, hfault⟩ := running (by rw [hdone.1]; nofun)
    exact afterMarker_phaseInv (.inr rfl) hclosed hfault
  | released hp => exact releaseDone_phaseInv h hp

/-! ### The table of transitions (47_stream_control.md R283) -/

/-- Where the position names an element, a step waits or runs what the bits decode to. -/
theorem step_element_inv {s t u : State} {ctx : DecodeCtx} (he : elementNext s = some (ctx, u)) (h : step s = .next t) :
    t = s.awaitSource ∨ ∃ i rest,
      decode ctx (streamBits s.reader.src s.reader.bitpos ctx.window) = .ok (i, rest) ∧ exec i u = .next t := by
  obtain ⟨i, rest, hd⟩ := elementNext_decodes he s.reader.src s.reader.bitpos
  by_cases ha : AllAnswered s.reader (readWidths i)
  · rw [step_of_decode he hd ha] at h
    exact .inr ⟨i, rest, hd, h⟩
  · rw [step_of_not_answered he hd ha] at h
    exact .inl (Host.Outcome.next.inj h).symm

/-- The header's step leaves HEADER for BLOCK_PENDING on a valid header alone (47_stream_control.md R288). -/
theorem step_header_pending {s t : State} (hp : s.seq.pos = .header) (h : step s = .next t)
    (hfrom : s.ctrl.phase ≠ .blockPending) (hto : t.ctrl.phase = .blockPending) :
    ∃ d rest, decode .header (streamBits s.reader.src s.reader.bitpos 32) = .ok (.hdr d, rest) ∧ 1 ≤ d.toNat ∧
      d.toNat ≤ 9 ∧ t.ctrl.capacity = d.toNat * 100000 := by
  rcases step_element_inv (ctx := .header) (by rw [elementNext, hp]) h with rfl | ⟨i, rest, hd, hx⟩
  · rw [(awaitSource_keepsCommand s).ctrl] at hto
    exact absurd hto hfrom
  · rcases decodeHeader_ok hd with ⟨m, rfl⟩ | ⟨m, rfl⟩ | ⟨d, rfl, hlo, hhi⟩
    · cases hx; cases hto
    · cases hx; cases hto
    · cases hx; exact ⟨d, rest, hd, hlo, hhi, rfl⟩

/-- A marker's step reaches DONE on an end marker with the stream's CRC alone (47_stream_control.md R293). -/
theorem step_marker_done {s t : State} (hp : s.seq.pos = .marker) (h : step s = .next t)
    (hfrom : s.ctrl.phase ≠ .done) (hto : t.ctrl.phase = .done) :
    ∃ rest, decode .marker (streamBits s.reader.src s.reader.bitpos 105) = .ok (.eos s.crc.combined, rest) := by
  rcases step_element_inv (ctx := .marker) (by rw [elementNext, hp]) h with rfl | ⟨i, rest, hd, hx⟩
  · rw [(awaitSource_keepsCommand s).ctrl] at hto
    exact absurd hto hfrom
  · rcases decodeMarker_ok hd with ⟨bcrc, rand, orig, rfl⟩ | ⟨scrc, rfl⟩ | ⟨m, rfl⟩
    · rw [← Host.Outcome.next.inj hx] at hto
      exact absurd hto hfrom
    · by_cases hcrc : scrc = s.crc.combined
      · exact ⟨rest, hcrc ▸ hd⟩
      · rw [exec_eos_of_mismatch hcrc] at hx
        cases hx; cases hto
    · cases hx; cases hto

theorem CommandTo.phase {s t : State} {c : HostCmd} (h : CommandTo s c t) :
    t.ctrl.phase = s.ctrl.phase ∨ (t.ctrl.phase = .header ∧ ∃ source owns, c = .reset source owns) := by
  cases h with
  | answers => exact .inl rfl
  | starts count => exact .inl (congrArg Ctrl.phase (startRead_ctrl count s))
  | closes => exact .inl rfl
  | resets source owns => exact .inr ⟨rfl, source, owns, rfl⟩

/-- Settles O55: the cases of a step that change the phase are the rows of the table. -/
theorem phaseTransitions : Obligations.PhaseTransitions := by
  intro s t h hx hne
  have running {p : Position} (hp : s.seq.pos = p) (hidle : p ≠ .idle) : s.ctrl.phase = p.phase :=
    hp ▸ ((phaseInv_running (hp ▸ hidle)).1 h).1
  cases controlTo_of_step hx with
  | rests => exact absurd rfl hne
  | command c rest hp hc hcmd =>
    rcases hcmd.phase with e | ⟨hphase, source, owns, rfl⟩
    · exact absurd e hne
    · exact .inl ⟨hp, hphase, source, owns, rest, hc⟩
  | waits => exact absurd (congrArg Ctrl.phase (awaitSource_keepsCommand s).ctrl) hne
  | faults k hp hk =>
    have hphase := running rfl hp
    have hcode : k.code ≠ 0 := by cases k <;> decide
    refine .inr (.inr (.inr (.inr (.inr ⟨?_, ?_, rfl, hcode, ?_⟩))))
    · rw [hphase]
      cases s.seq.pos <;> decide
    · rw [hphase]
      exact s.seq.pos.phase_ne_faulted
    · rw [raiseFault_host_responses, hk.host]
      rfl
  | header d hp hd =>
    have hphase := running hp nofun
    have hto : t.ctrl.phase = .blockPending := by cases hd; rfl
    exact .inr (.inl ⟨hphase, hp, hto, step_header_pending hp hx (by rw [hphase]; nofun) hto⟩)
  | works _ _ hk => exact absurd (congrArg Ctrl.phase hk.ctrl) hne
  | ends scrc hp =>
    have hphase := running hp nofun
    have hto := congrArg Ctrl.phase (afterMarker_ctrl ((s.consume (.eos scrc)).setPhase .done))
    exact .inr (.inr (.inr (.inl ⟨hphase, hp, hto, step_marker_done hp hx (by rw [hphase]; nofun) hto⟩)))
  | returns e out =>
    obtain ⟨hctrl, -⟩ := giveBytes_leaves out { s with exp := e }
    exact absurd (congrArg Ctrl.phase hctrl) hne
  | activates hdone hcrc =>
    obtain ⟨hp, hr, hn, h4⟩ := hdone
    rw [afterMarker_ctrl, afterMarker_crc]
    exact .inr (.inr (.inl ⟨running hp nofun, hp, rfl, hr, hn, h4, rfl, hcrc⟩))
  | released hp hl =>
    rcases releaseDone_cases s with ⟨hz, e⟩ | ⟨-, e⟩ <;> rw [e] at hne ⊢
    · exact .inr (.inr (.inr (.inr (.inl ⟨running hp nofun, hp, hl, hz, rfl⟩))))
    · exact absurd rfl hne

/-! ### One response for each command (47_stream_control.md R281, R282) -/

/-- The step appends the responses `new`, at most one, and the commands not yet answered are fewer by as many. -/
structure AnswersNew (s t : State) (new : List Response) : Prop where
  responses : t.host.responses = s.host.responses ++ new
  atMostOne : new.length ≤ 1
  unanswered : new.length + t.host.cmds.length + t.busy = s.host.cmds.length + s.busy

theorem busy_of_idle {s : State} (hp : s.seq.pos = .idle) : s.busy = 0 := if_pos hp

theorem busy_of_ne_idle {s : State} (hp : s.seq.pos ≠ .idle) : s.busy = 1 := if_neg hp

/-- A step that goes on with the command in progress. -/
theorem AnswersNew.goesOn {s t : State} (hs : s.seq.pos ≠ .idle) (ht : t.seq.pos ≠ .idle) (hh : t.host = s.host) :
    AnswersNew s t [] where
  responses := by rw [hh, List.append_nil]
  atMostOne := Nat.zero_le 1
  unanswered := by rw [busy_of_ne_idle hs, busy_of_ne_idle ht, hh, List.length_nil, Nat.zero_add]

/-- A step that answers the command in progress. -/
theorem AnswersNew.answers {s t : State} {r : Response} (hs : s.seq.pos ≠ .idle) (ht : t.seq.pos = .idle)
    (hr : t.host.responses = s.host.responses ++ [r]) (hc : t.host.cmds = s.host.cmds) : AnswersNew s t [r] where
  responses := hr
  atMostOne := le_refl 1
  unanswered := by
    rw [busy_of_ne_idle hs, busy_of_idle ht, hc, List.length_singleton]
    omega

theorem afterMarker_answersNew {s u : State} (hs : s.seq.pos ≠ .idle) (hh : u.host = s.host) :
    ∃ new, AnswersNew s (afterMarker u) new := by
  have answered (r : Response) : AnswersNew s (u.respond r) [r] :=
    .answers hs rfl (by rw [State.respond_host_responses, hh]) (by rw [State.respond_host_cmds, hh])
  rcases afterMarker_cases u with ⟨-, e⟩ | ⟨-, -, e⟩ | ⟨-, -, e⟩ <;> rw [e]
  · exact ⟨_, answered _⟩
  · exact ⟨_, answered _⟩
  · exact ⟨_, .goesOn hs nofun hh⟩

/-- A command taken is answered at once or is in progress. -/
theorem CommandTo.answersNew {s t : State} {c : HostCmd} {rest : List HostCmd} (hp : s.seq.pos = .idle)
    (hc : s.host.cmds = c :: rest) (h : CommandTo { s with host := { s.host with cmds := rest } } c t) :
    ∃ new, AnswersNew s t new := by
  have answered {r : Response} (ht : t.seq.pos = .idle) (hresponses : t.host.responses = s.host.responses ++ [r])
      (hcmds : t.host.cmds = rest) : AnswersNew s t [r] := by
    refine ⟨hresponses, le_refl 1, ?_⟩
    rw [busy_of_idle hp, busy_of_idle ht, hc, hcmds, List.length_singleton, List.length_cons]
    omega
  cases h with
  | answers => exact ⟨_, answered rfl rfl rfl⟩
  | starts count =>
    obtain ⟨hpos, hh⟩ : (startRead count { s with host := { s.host with cmds := rest } }).seq.pos ≠ .idle ∧
        (startRead count { s with host := { s.host with cmds := rest } }).host = ⟨rest, s.host.responses⟩ := by
      rcases startRead_cases count { s with host := { s.host with cmds := rest } } with ⟨-, e⟩ | ⟨-, e⟩ <;> rw [e] <;>
        exact ⟨nofun, rfl⟩
    refine ⟨[], by rw [hh, List.append_nil], Nat.zero_le 1, ?_⟩
    rw [busy_of_idle hp, busy_of_ne_idle hpos, hc, hh, List.length_nil, List.length_cons, Nat.zero_add]
  | closes => exact ⟨_, answered rfl rfl rfl⟩
  | resets => exact ⟨_, answered rfl rfl rfl⟩

theorem ControlTo.answersNew {s t : State} (h : ControlTo s t) : ∃ new, AnswersNew s t new := by
  cases h with
  | rests => exact ⟨[], (List.append_nil _).symm, Nat.zero_le 1, by rw [List.length_nil, Nat.zero_add]⟩
  | command c rest hp hc hcmd => exact hcmd.answersNew hp hc
  | waits hp => exact ⟨_, .goesOn hp (by rwa [awaitSource_seq]) (awaitSource_host s)⟩
  | faults k hp hk =>
    exact ⟨_, .answers hp rfl (by rw [raiseFault_host_responses, hk.host]) (by rw [raiseFault_host_cmds, hk.host])⟩
  | header d hp hx => cases hx; exact ⟨_, .goesOn (by rw [hp]; nofun) nofun rfl⟩
  | works hs ht hk => exact ⟨_, .goesOn (Position.ne_idle_of_inBlock hs) (Position.ne_idle_of_inBlock ht) hk.host⟩
  | ends scrc hp => exact afterMarker_answersNew (by rw [hp]; nofun) rfl
  | returns e out hp =>
    obtain ⟨-, hh, hpos⟩ := giveBytes_leaves out { s with exp := e }
    exact ⟨_, .goesOn hp.pos_ne_idle (by rw [hpos]; exact hp.pos_ne_idle) hh⟩
  | activates hdone => exact afterMarker_answersNew (by rw [hdone.1]; nofun) rfl
  | released hp =>
    have hne : s.seq.pos ≠ .idle := by rw [hp]; nofun
    rcases releaseDone_cases s with ⟨-, e⟩ | ⟨-, e⟩ <;> rw [e]
    · exact ⟨_, .goesOn hne nofun rfl⟩
    · exact ⟨_, .answers hne rfl rfl rfl⟩

/-- Settles O57: a command taken is answered or in progress, and an answer ends the one in progress. -/
theorem oneResponsePerCommand : Obligations.OneResponsePerCommand := by
  intro s t h
  obtain ⟨new, hresponses, hone, hunanswered⟩ := (controlTo_of_step h).answersNew
  refine ⟨?_, new, hresponses, hone⟩
  rw [hresponses, List.length_append]
  omega

end Sys2Proof.Machine
end

section
/-! PROOF. The bytes a READ answers (47_stream_control.md R280, R286, R287, R292, R295): the bounds of `ReadBounds` by position,
and what each case of a step leaves of them. -/

namespace Sys2Proof.Machine

/-! ### The bytes of the release pass (46_output_rle.md R272, 47_stream_control.md R286) -/

/-- The bytes gone to the response, as in the release pass. -/
def releaseBytes (out : List Byte) (s : State) : State :=
  { s with
    exp := { s.exp with remaining := s.exp.remaining - out.length }
    seq := { s.seq with data := s.seq.data ++ out, readLeft := s.seq.readLeft - out.length } }

theorem releaseBytes_append (out out' : List Byte) (s : State) :
    releaseBytes (out ++ out') s = releaseBytes out' (releaseBytes out s) := by
  simp [releaseBytes, Nat.sub_sub]

/-- While the block is active the bytes returned are released. -/
theorem giveBytes_of_active {s : State} (h : s.ctrl.phase = .blockActive) (out : List Byte) :
    giveBytes out s = releaseBytes out s := by
  induction out generalizing s with
  | nil => simp [giveBytes, releaseBytes]
  | cons b rest ih =>
    calc giveBytes (b :: rest) s = giveBytes rest (returnByte b s) := rfl
      _ = giveBytes rest (releaseBytes [b] s) := congrArg _ (if_pos h)
      _ = releaseBytes rest (releaseBytes [b] s) := ih h
      _ = releaseBytes (b :: rest) s := (releaseBytes_append [b] rest s).symm

/-! ### The bounds by position -/

/-- What a READ holds while NextMarker or a block is worked on: after a drain the bytes to answer, before one none
(47_stream_control.md R287, R292). -/
structure AnswerHeld (s : State) : Prop where
  drained : s.seq.drained = true → 1 ≤ s.seq.data.length ∧ s.seq.data.length ≤ s.seq.readCount
  fresh : s.seq.drained = false → s.seq.data = [] ∧ 1 ≤ s.seq.readCount

/-- The pre-pass has counted a byte, or stands at its start (46_output_rle.md R271, R273). -/
def CountedOrFresh (s : State) : Prop := 1 ≤ s.seq.expCount ∨ (s.exp.pos = 0 ∧ s.exp.run = 0 ∧ s.exp.rep = 0)

theorem KeepsCommand.answerHeld {s t : State} (h : KeepsCommand s t) (ha : AnswerHeld s) : AnswerHeld t := by
  obtain ⟨hdrained, hfresh⟩ := ha
  constructor <;> simpa only [h.drained, h.data, h.readCount]

theorem ReadBounds.answerHeld {s : State} (h : ReadBounds s) (hb : s.seq.pos.inBlock = true) : AnswerHeld s :=
  ⟨h.drained hb, fun hd => h.fresh (.inr ⟨hb, hd⟩)⟩

/-- The bounds read only these parts of the state. -/
theorem ReadBounds.frame {s t : State} (h : ReadBounds s) (hctrl : t.ctrl = s.ctrl) (hseq : t.seq = s.seq)
    (hexp : t.exp = s.exp) (hsym : t.sym = s.sym) : ReadBounds t := by
  obtain ⟨h1, h2, h3, h4, h5, h6, h7⟩ := h
  constructor <;> simpa only [State.active, hctrl, hseq, hexp, hsym]

/-- Between commands. -/
theorem readBounds_idle {s : State} (hp : s.seq.pos = .idle) (h : s.active = true → 1 ≤ s.exp.remaining) : ReadBounds s where
  emitting hp' := by rw [hp] at hp'; cases hp'
  drained hb := by rw [hp] at hb; cases hb
  fresh h' := by rw [hp] at h'; rcases h' with h' | ⟨h', -⟩ <;> cases h'
  header hp' := by rw [hp] at hp'; cases hp'
  block hb := by rw [hp] at hb; cases hb
  counted hp' := by rw [hp] at hp'; cases hp'
  remaining _ := h

/-- Between commands with no block active. -/
theorem readBounds_inactive {s : State} (hp : s.seq.pos = .idle)
    (h : s.ctrl.phase ≠ .blockActive ∨ s.ctrl.closed = true) : ReadBounds s := by
  refine readBounds_idle hp fun ha => ?_
  obtain ⟨hphase, hclosed⟩ := active_iff.1 ha
  rcases h with h | h
  · exact absurd hphase h
  · rw [hclosed] at h
    cases h

/-- Before the header. -/
theorem readBounds_header {s : State} (hp : s.seq.pos = .header) (hdata : s.seq.data = []) (hcount : 1 ≤ s.seq.readCount)
    (hdrained : s.seq.drained = false) : ReadBounds s where
  emitting hp' := by rw [hp] at hp'; cases hp'
  drained hb := by rw [hp] at hb; cases hb
  fresh _ := ⟨hdata, hcount⟩
  header _ := hdrained
  block hb := by rw [hp] at hb; cases hb
  counted hp' := by rw [hp] at hp'; cases hp'
  remaining hp' := by rw [hp] at hp'; cases hp'

/-- In NextMarker and in a block. -/
theorem readBounds_inBlock {s : State} (hb : s.seq.pos.inBlock = true) (ha : AnswerHeld s)
    (hblock : s.seq.pos.afterBwt = true → 1 ≤ s.sym.n) (hcounted : s.seq.pos = .prepass → CountedOrFresh s) :
    ReadBounds s where
  emitting hp := by rw [hp] at hb; cases hb
  drained _ := ha.drained
  fresh h := by
    rcases h with hp | ⟨-, hd⟩
    · rw [hp] at hb; cases hb
    · exact ha.fresh hd
  header hp := by rw [hp] at hb; cases hb
  block := hblock
  counted := hcounted
  remaining hp := by rw [hp] at hb; cases hb

/-- In the release pass. -/
theorem readBounds_release {s : State} (hp : s.seq.pos = .release)
    (hleft : 1 ≤ s.seq.data.length + s.seq.readLeft ∧ s.seq.data.length + s.seq.readLeft ≤ s.seq.readCount ∧
      s.seq.readLeft ≤ s.exp.remaining) (hdrained : s.seq.drained = false) : ReadBounds s where
  emitting _ := ⟨hleft.1, hleft.2.1, hleft.2.2, hdrained⟩
  drained hb := by rw [hp] at hb; cases hb
  fresh h := by rw [hp] at h; rcases h with h | ⟨h, -⟩ <;> cases h
  header hp' := by rw [hp] at hp'; cases hp'
  block hb := by rw [hp] at hb; cases hb
  counted hp' := by rw [hp] at hp'; cases hp'
  remaining hp' := by rw [hp] at hp'; cases hp'

/-! ### The answer of a step -/

/-- A DATA answer given by the step carries 1 to `count` bytes (47_stream_control.md R295). -/
def AnswerBounded (s t : State) : Prop :=
  ∀ bytes, t.host.responses = s.host.responses ++ [.data bytes] → 1 ≤ bytes.length ∧ bytes.length ≤ s.seq.readCount

theorem answerBounded_of_unanswered {s t : State} (h : t.host.responses = s.host.responses) : AnswerBounded s t :=
  fun _ he => absurd (List.self_eq_append_right.1 (h.symm.trans he)) (List.cons_ne_nil _ _)

theorem answerBounded_of_answer {s t : State} {r : Response} (h : t.host.responses = s.host.responses ++ [r])
    (hr : ∀ bytes, r = .data bytes → 1 ≤ bytes.length ∧ bytes.length ≤ s.seq.readCount) : AnswerBounded s t :=
  fun bytes he => hr bytes (List.cons.inj (List.append_cancel_left (h.symm.trans he))).1

/-- The bounds after a step, and on its answer. -/
def KeepsBounds (s t : State) : Prop := ReadBounds t ∧ AnswerBounded s t

/-! ### The cases of a step -/

/-- NextMarker ends in DONE or with a block that has a byte to release. -/
theorem afterMarker_keepsBounds {s : State} (ha : AnswerHeld s)
    (hphase : s.ctrl.phase = .done ∨ (s.ctrl.phase = .blockActive ∧ 1 ≤ s.exp.remaining)) : KeepsBounds s (afterMarker s) := by
  have idle (r : Response) : ReadBounds (s.respond r) := by
    refine readBounds_idle rfl fun hactive => ?_
    rcases hphase with hdone | ⟨-, hrem⟩
    · cases hdone.symm.trans (active_iff.1 hactive).1
    · exact hrem
  rcases afterMarker_cases s with ⟨hd, e⟩ | ⟨-, -, e⟩ | ⟨hd, hne, e⟩ <;> rw [e]
  · refine ⟨idle _, answerBounded_of_answer rfl ?_⟩
    rintro _ ⟨⟩
    exact ha.drained hd
  · exact ⟨idle _, answerBounded_of_answer rfl nofun⟩
  · obtain ⟨hdata, hcount⟩ := ha.fresh hd
    obtain ⟨-, hrem⟩ := hphase.resolve_left hne
    refine ⟨readBounds_release rfl ?_ hd, answerBounded_of_unanswered rfl⟩
    simp only [startRelease_seq_data, startRelease_seq_readLeft, startRelease_seq_readCount, startRelease_exp, hdata,
      List.length_nil, readAmount]
    omega

/-- A command taken: READ starts with no byte, and an active block has one to release. -/
theorem CommandTo.keepsBounds {s t : State} {c : HostCmd} (hc : CommandTo s c t) (hp : s.seq.pos = .idle)
    (hi : PhaseInv s) (h : ReadBounds s) : KeepsBounds s t := by
  cases hc with
  | answers _ r hr => exact ⟨readBounds_idle rfl (h.remaining hp), answerBounded_of_answer rfl fun bytes he => absurd he (hr bytes)⟩
  | starts count hcount hclosed hfaulted hdone =>
    rcases startRead_cases count s with ⟨-, e⟩ | ⟨hheader, e⟩ <;> rw [e]
    · exact ⟨readBounds_header rfl rfl (Nat.one_le_iff_ne_zero.2 hcount) rfl, answerBounded_of_unanswered rfl⟩
    · have hactive := (hi.readable hp hfaulted hdone).resolve_left hheader
      have hrem := h.remaining hp (active_iff.2 ⟨hactive, hclosed⟩)
      refine ⟨readBounds_release rfl ?_ rfl, answerBounded_of_unanswered rfl⟩
      simp only [List.length_nil, readAmount]
      omega
  | closes => exact ⟨readBounds_inactive rfl (.inr rfl), answerBounded_of_answer rfl nofun⟩
  | resets => exact ⟨readBounds_inactive rfl (.inl nofun), answerBounded_of_answer rfl nofun⟩

/-- The pre-pass counts each byte it returns. -/
theorem prepass_keepsBounds {s : State} {e : Expander} {out : List Byte} (hp : s.seq.pos = .prepass)
    (hphase : s.ctrl.phase ≠ .blockActive) (h : ReadBounds s) (hnone : out = [] → s.exp.run = 4) :
    KeepsBounds s (giveBytes out { s with exp := e }) := by
  have hb : s.seq.pos.inBlock = true := by rw [hp]; rfl
  obtain ⟨hdrained, hfresh⟩ := h.answerHeld hb
  rw [giveBytes_of_not_active (by exact hphase)]
  refine ⟨readBounds_inBlock hb ⟨hdrained, hfresh⟩ h.block fun _ => .inl ?_, answerBounded_of_unanswered rfl⟩
  show 1 ≤ s.seq.expCount + out.length
  rcases h.counted hp with hcounted | ⟨-, hrun, -⟩
  · omega
  · have hout : out ≠ [] := fun h0 => by rw [hrun] at hnone; cases hnone h0
    have := List.length_pos_iff.2 hout
    omega

/-- The release pass moves each byte it returns from the bytes owed to the response. -/
theorem release_keepsBounds {s : State} {e : Expander} {out : List Byte} (hp : s.seq.pos = .release)
    (hl : s.seq.readLeft ≠ 0) (hphase : s.ctrl.phase = .blockActive) (h : ReadBounds s)
    (hrem : e.remaining = s.exp.remaining) (hlen : out.length ≤ 1) :
    KeepsBounds s (giveBytes out { s with exp := e }) := by
  obtain ⟨hlo, hhi, hle, hdrained⟩ := h.emitting hp
  rw [giveBytes_of_active (by exact hphase)]
  refine ⟨readBounds_release hp ?_ hdrained, answerBounded_of_unanswered rfl⟩
  simp only [releaseBytes, List.length_append, hrem]
  omega

/-- A block that is drained has released a byte, and one that is not has one left. -/
theorem releaseDone_keepsBounds {s : State} (hp : s.seq.pos = .release) (hl : s.seq.readLeft = 0) (h : ReadBounds s) :
    KeepsBounds s (releaseDone s) := by
  obtain ⟨hlo, hhi, -, -⟩ := h.emitting hp
  have hdata : 1 ≤ s.seq.data.length ∧ s.seq.data.length ≤ s.seq.readCount := by omega
  rcases releaseDone_cases s with ⟨-, e⟩ | ⟨hleft, e⟩ <;> rw [e]
  · exact ⟨readBounds_inBlock rfl ⟨fun _ => hdata, nofun⟩ nofun nofun, answerBounded_of_unanswered rfl⟩
  · refine ⟨readBounds_idle rfl fun _ => Nat.one_le_iff_ne_zero.2 hleft, answerBounded_of_answer rfl ?_⟩
    rintro _ ⟨⟩
    exact hdata

/-- A block that passes its pre-pass has a byte: it is not empty, and its first byte is output (46_output_rle.md R273). -/
theorem activated_keepsBounds {s : State} (hdone : PrepassDone s) (h : ReadBounds s) :
    KeepsBounds s (afterMarker (activated s)) := by
  obtain ⟨hp, -, hn, -⟩ := hdone
  have hlen : 1 ≤ s.sym.n := h.block (by rw [hp]; rfl)
  have hcount : 1 ≤ s.seq.expCount := by
    rcases h.counted hp with hcounted | ⟨hzero, -⟩
    · exact hcounted
    · omega
  obtain ⟨hdrained, hfresh⟩ := h.answerHeld (by rw [hp]; rfl)
  exact afterMarker_keepsBounds (s := activated s) ⟨hdrained, hfresh⟩ (.inr ⟨rfl, hcount⟩)

theorem ControlTo.keepsBounds {s t : State} (ht : ControlTo s t) (hi : PhaseInv s) (h : ReadBounds s) : KeepsBounds s t := by
  cases ht with
  | rests => exact ⟨h, answerBounded_of_unanswered rfl⟩
  | command c rest hp hc hcmd => exact hcmd.keepsBounds hp (hi.stands rfl rfl) (h.frame rfl rfl rfl rfl)
  | waits =>
    rcases awaitSource_cases s with ⟨-, e⟩ | ⟨_, _, -, e⟩ <;> rw [e] <;>
      exact ⟨h.frame rfl rfl rfl rfl, answerBounded_of_unanswered rfl⟩
  | faults k hp hk =>
    exact ⟨readBounds_inactive rfl (.inl nofun),
      answerBounded_of_answer (r := .fault k.code) (by rw [raiseFault_host_responses, hk.host]) nofun⟩
  | header d hp hx =>
    cases hx
    have hdrained := h.header hp
    refine ⟨readBounds_inBlock rfl ⟨fun hd => ?_, fun _ => h.fresh (.inl hp)⟩ nofun nofun, answerBounded_of_unanswered rfl⟩
    cases hdrained.symm.trans hd
  | works hs ht hk hblock hfresh =>
    refine ⟨readBounds_inBlock ht (hk.answerHeld (h.answerHeld hs)) (fun hafter => ?_) fun hp => .inr (hfresh hp),
      answerBounded_of_unanswered (by rw [hk.host])⟩
    rcases hblock hafter with hn | ⟨hbefore, hn⟩
    · exact hn
    · exact hn ▸ h.block hbefore
  | ends scrc hp =>
    obtain ⟨hdrained, hfresh⟩ := h.answerHeld (by rw [hp]; rfl)
    exact afterMarker_keepsBounds (s := (s.consume (.eos scrc)).setPhase .done) ⟨hdrained, hfresh⟩ (.inl rfl)
  | returns e out hp hrem hlen hnone =>
    obtain ⟨hphase, -⟩ := (phaseInv_running hp.pos_ne_idle).1 hi
    rcases hp with hp | ⟨hp, hl⟩ <;> rw [hp] at hphase
    · exact prepass_keepsBounds hp (by rw [hphase]; nofun) h hnone
    · exact release_keepsBounds hp hl hphase h hrem hlen
  | activates hdone => exact activated_keepsBounds hdone h
  | released hp hl => exact releaseDone_keepsBounds hp hl h

/-- Settles O51: each case of a step keeps the bounds of its position, and answers no DATA but the bytes held. -/
theorem readBoundsKept : Obligations.ReadBoundsKept := fun _ _ hi h hx => (controlTo_of_step hx).keepsBounds hi h

end Sys2Proof.Machine
end

section
/-! PROOF. The release pass of a READ, from its command to the answer or the next marker (47_stream_control.md R287, R292, R295;
46_output_rle.md R272). -/

namespace Sys2Proof.Machine

/-! ### One step of the pass -/

theorem afterMarker_data (s : State) : (afterMarker s).seq.data = s.seq.data := by
  rcases afterMarker_cases s with ⟨-, e⟩ | ⟨-, -, e⟩ | ⟨-, -, e⟩ <;> rw [e] <;> rfl

theorem giveBytes_data_length_le (out : List Byte) (s : State) :
    (giveBytes out s).seq.data.length ≤ s.seq.data.length + out.length := by
  by_cases hphase : s.ctrl.phase = .blockActive
  · rw [giveBytes_of_active hphase]
    exact List.length_append.le
  · rw [giveBytes_of_not_active hphase]
    exact Nat.le_add_right _ _

theorem CommandTo.data_length_le {s t : State} {c : HostCmd} (h : CommandTo s c t) :
    t.seq.data.length ≤ s.seq.data.length + 1 := by
  cases h with
  | answers => exact Nat.le_succ _
  | starts count => rcases startRead_cases count s with ⟨-, e⟩ | ⟨-, e⟩ <;> rw [e] <;> exact Nat.zero_le _
  | closes => exact Nat.le_succ _
  | resets => exact Nat.zero_le _

/-- A step adds at most one byte to the response being built (46_output_rle.md R266). -/
theorem ControlTo.data_length_le {s t : State} (h : ControlTo s t) : t.seq.data.length ≤ s.seq.data.length + 1 := by
  cases h with
  | rests => exact Nat.le_succ _
  | command _ _ _ _ hcmd => exact hcmd.data_length_le
  | waits => rw [awaitSource_seq]; exact Nat.le_succ _
  | faults => exact Nat.zero_le _
  | header d hp hx => cases hx; exact Nat.le_succ _
  | works _ _ hk => rw [hk.data]; exact Nat.le_succ _
  | ends scrc => rw [afterMarker_data]; exact Nat.le_succ _
  | returns e out _ _ hlen => exact (giveBytes_data_length_le out { s with exp := e }).trans (Nat.add_le_add_left hlen _)
  | activates => rw [afterMarker_data]; exact Nat.le_succ _
  | released => rcases releaseDone_cases s with ⟨-, e⟩ | ⟨-, e⟩ <;> rw [e] <;> exact Nat.le_succ _

/-- The pass has gone from `s` to `t`: the next bytes `out` of the expansion are in the response and off the bytes owed, and
nothing else but the expander has changed. -/
structure ReleasedTo (s t : State) (out : List Byte) : Prop where
  state : ∃ e, t = { s with
    exp := e
    seq := { s.seq with data := s.seq.data ++ out, readLeft := s.seq.readLeft - out.length } }
  sound : Sound t
  fits : out.length ≤ s.seq.readLeft
  left : expansionLeft s = (expansionLeft t).map (out ++ ·)

theorem ReleasedTo.refl {s : State} (h : Sound s) : ReleasedTo s s [] where
  state := ⟨s.exp, by rw [List.append_nil]; rfl⟩
  sound := h
  fits := Nat.zero_le _
  left := by simp only [List.nil_append, Option.map_id']

theorem ReleasedTo.trans {s t u : State} {out out' : List Byte} (h : ReleasedTo s t out) (h' : ReleasedTo t u out') :
    ReleasedTo s u (out ++ out') := by
  obtain ⟨⟨e, rfl⟩, -, hfits, hleft⟩ := h
  obtain ⟨⟨e', rfl⟩, hsound, hfits', hleft'⟩ := h'
  dsimp only at hfits'
  refine ⟨⟨e', ?_⟩, hsound, ?_, ?_⟩
  · simp only [List.append_assoc, List.length_append, Nat.sub_sub]
  · rw [List.length_append]
    omega
  · rw [hleft, hleft', Option.map_map]
    simp only [Function.comp_def, List.append_assoc]

/-- While bytes are owed to the READ the block does not end, and a step returns the next ones (46_output_rle.md R272). -/
theorem Sound.release_step {s : State} (h : Sound s) (hp : s.seq.pos = .release) (hl : s.seq.readLeft ≠ 0) :
    ∃ t out, step s = .next t ∧ ReleasedTo s t out ∧ callsLeft t < callsLeft s := by
  obtain ⟨⟨hblock, hready, hleft⟩, hamount⟩ := h.stage hp
  have hphase : s.ctrl.phase = .blockActive := h.phase.release hp
  have hmore : 0 < s.exp.rep ∨ s.exp.pos < s.sym.n := by
    by_contra hend
    have hr : s.exp.rep = 0 := by omega
    have hn : s.exp.pos = s.sym.n := by have := hready.1; omega
    by_cases h4 : s.exp.run = 4
    · rw [expansionLeft_missing hr hn h4] at hleft
      cases hleft
    · rw [expansionLeft_end hr hn h4] at hleft
      have : 0 = s.exp.remaining := Option.some.inj hleft
      omega
  obtain ⟨t, out, hstep, hemits, ⟨e, hgives⟩, hcalls⟩ := step_expands (.inr ⟨hp, hl⟩) hblock hready hmore
  rw [giveBytes_of_active (by exact hphase)] at hgives
  have hone := (controlTo_of_step hstep).data_length_le
  rw [show t.seq.data = s.seq.data ++ out by rw [hgives]; rfl, List.length_append] at hone
  exact ⟨t, out, hstep, ⟨⟨_, hgives⟩, h.release_emits hp hemits, by omega, hemits.left⟩, hcalls⟩

/-! ### The pass -/

/-- The pass runs until every byte owed is in the response: each step leaves fewer calls of the expander. -/
theorem Sound.release_runs {s : State} (h : Sound s) (hp : s.seq.pos = .release) :
    ∃ k t out, (∀ j, Host.Core.run Sys2Proof.core (k + j) s = Host.Core.run Sys2Proof.core j t) ∧ ReleasedTo s t out ∧
      t.seq.readLeft = 0 := by
  induction hcalls : callsLeft s using Nat.strong_induction_on generalizing s with
  | _ calls ih =>
    by_cases hl : s.seq.readLeft = 0
    · exact ⟨0, s, [], fun j => by rw [Nat.zero_add], .refl h, hl⟩
    · obtain ⟨u, out, hstep, hu, hfewer⟩ := h.release_step hp hl
      have hpos : u.seq.pos = .release := by
        obtain ⟨e, rfl⟩ := hu.state
        exact hp
      obtain ⟨k, t, out', hrun, ht, hdone⟩ := ih _ (hcalls ▸ hfewer) hu.sound hpos rfl
      refine ⟨k + 1, t, out ++ out', fun j => ?_, hu.trans ht, hdone⟩
      rw [Nat.add_right_comm, run_next hstep, hrun]

/-- Once every byte owed is released, those are the first of the expansion, and the rest of it is left. -/
theorem ReleasedTo.splits {s t : State} {out total : List Byte} (ht : ReleasedTo s t out) (hp : s.seq.pos = .release)
    (hleft : expansionLeft s = some total) (hdone : t.seq.readLeft = 0) :
    out = total.take s.seq.readLeft ∧ expansionLeft t = some (total.drop s.seq.readLeft) ∧
      t.exp.remaining = total.length - s.seq.readLeft := by
  obtain ⟨⟨e, hstate⟩, hsound, hfits, hout⟩ := ht
  have hpos : t.seq.pos = .release := by rw [hstate]; exact hp
  have hlen : out.length = s.seq.readLeft := by
    have hzero : s.seq.readLeft - out.length = 0 := by rw [hstate] at hdone; exact hdone
    omega
  obtain ⟨rest, hrest, rfl⟩ := Option.map_eq_some_iff.1 (hout.symm.trans hleft)
  obtain ⟨⟨-, -, hremaining⟩, -⟩ := hsound.stage hpos
  rw [hrest] at hremaining
  rw [← hlen]
  refine ⟨(List.take_left' rfl).symm, by rw [hrest, List.drop_left' rfl], ?_⟩
  rw [List.length_append, Nat.add_sub_cancel_left]
  exact (Option.some.inj hremaining).symm

/-- Settles O42: the READ starts the pass, the pass releases the bytes owed, and its end answers or drains. -/
theorem readReleasesNextBytes : Obligations.ReadReleasesNextBytes := by
  intro s count rest total hsound hp hclosed hphase hc hcount hleft
  obtain ⟨-, -, hremaining⟩ := hsound.stage hp (active_iff.2 ⟨hphase, hclosed⟩)
  have hrem : total.length = s.exp.remaining := by
    rw [hleft] at hremaining
    exact Option.some.inj hremaining
  obtain ⟨-, hopen⟩ := readChecksThenStarts count { s with host := { s.host with cmds := rest } } hp
  obtain ⟨-, -, -, hstart⟩ := (hopen hclosed).2 (by omega)
  have hstep := (step_of_command hp hc rfl).trans (hstart hphase)
  obtain ⟨u, hu, hsu⟩ := soundStatesGoOn s hsound
  obtain rfl := Host.Outcome.next.inj (hu.symm.trans hstep)
  obtain ⟨k, t, out, hrun, ht, hdone⟩ := hsu.release_runs rfl
  obtain ⟨hout, hrest, hleftover⟩ := ht.splits rfl hleft hdone
  obtain ⟨⟨e, hstate⟩, -⟩ := ht
  obtain ⟨hdrain, hanswer⟩ := drainFoldsBlockCrc t (by rw [hstate]) hdone
  have run_to {v : State} (hv : step t = .next v) : Host.Core.run Sys2Proof.core (k + 1 + 1) s = .next v := by
    rw [run_next hstep, hrun, run_next hv]
    rfl
  dsimp only at hout hrest hleftover
  rw [← hrem] at hout hrest hleftover
  by_cases hmore : count < total.length
  · rw [Nat.min_eq_left hmore.le] at hout hrest hleftover
    refine ⟨_, _, run_to (hanswer (by omega)), ?_⟩
    subst hstate
    refine ⟨rfl, rfl, rfl, fun _ => ⟨rfl, hphase, ?_, hrest, hleftover, rfl⟩, fun h => absurd hmore (not_lt.2 h)⟩
    rw [← hout]
    rfl
  · rw [Nat.min_eq_right (not_lt.1 hmore), List.take_length] at hout
    rw [Nat.min_eq_right (not_lt.1 hmore), Nat.sub_self] at hleftover
    refine ⟨_, _, run_to (hdrain hleftover), ?_⟩
    subst hstate
    exact ⟨rfl, rfl, rfl, fun h => absurd h hmore, fun _ => ⟨rfl, rfl, rfl, hout, rfl, rfl⟩⟩

end Sys2Proof.Machine
end

section
/-! PROOF. FAULTED and DONE, which only RESET leaves (60_exceptions.md R312, R315; 70_reset_and_hazards.md R352), and the
invariants at reset (70_reset_and_hazards.md R340). -/

namespace Sys2Proof.Machine

/-! ### The machine halted in FAULTED or DONE -/

theorem Position.phase_ne_done (p : Position) : p.phase ≠ .done := by cases p <;> decide

/-- A halted engine is between commands: in a command the phase is the position's, never FAULTED or DONE. -/
theorem PhaseInv.idle_of_halted {s : State} (h : PhaseInv s) (hhalted : s.ctrl.phase = .faulted ∨ s.ctrl.phase = .done) :
    s.seq.pos = .idle := by
  by_contra hp
  have hphase := ((phaseInv_running hp).1 h).1
  rcases hhalted with e | e
  · exact s.seq.pos.phase_ne_faulted (hphase.symm.trans e)
  · exact s.seq.pos.phase_ne_done (hphase.symm.trans e)

/-- A step between commands takes the oldest command; without one it changes nothing (47_stream_control.md R281, R282). -/
theorem step_idle_cases {s t : State} (hp : s.seq.pos = .idle) (h : step s = .next t) :
    t = s ∨ ∃ c rest, s.host.cmds = c :: rest ∧ CommandTo { s with host := { s.host with cmds := rest } } c t := by
  cases hc : s.host.cmds with
  | nil => exact .inl (Host.Outcome.next.inj (h.symm.trans (step_of_stage (StageTo.noCommand hp hc).planned)))
  | cons c rest =>
    refine .inr ⟨c, rest, rfl, ?_⟩
    cases hd : decodeCommand c with
    | none =>
      obtain rfl := Host.Outcome.next.inj (h.symm.trans (step_of_stage (StageTo.unknownCommand c rest hp hc hd).planned))
      exact refuseUnsupported_commandTo c _
    | some i => exact exec_commandTo hd ((step_of_command hp hc hd).symm.trans h)

/-- A halted engine answers every command but RESET without decoding: no READ starts. -/
theorem CommandTo.halted {s t : State} {c : HostCmd} (h : CommandTo s c t)
    (hhalted : s.ctrl.phase = .faulted ∨ s.ctrl.phase = .done) (hreset : ∀ source owns, c ≠ .reset source owns) :
    t.ctrl.phase = s.ctrl.phase ∧ t.ctrl.faultCode = s.ctrl.faultCode ∧ t.reader = s.reader ∧ t.crc = s.crc := by
  cases h with
  | answers => exact ⟨rfl, rfl, rfl, rfl⟩
  | starts _ _ _ hfaulted hdone => exact absurd hhalted (not_or.2 ⟨hfaulted, hdone⟩)
  | closes => exact ⟨rfl, rfl, rfl, rfl⟩
  | resets source owns => exact absurd rfl (hreset source owns)

/-- Settles O56: a halted engine is between commands, and no command but RESET starts anything in it. -/
theorem onlyResetLeavesFaultedAndDone : Obligations.OnlyResetLeavesFaultedAndDone := by
  intro s t hi hhalted hreset hx
  rcases step_idle_cases (hi.idle_of_halted hhalted) hx with rfl | ⟨c, rest, hc, hcmd⟩
  · exact ⟨rfl, rfl, rfl, rfl⟩
  · refine hcmd.halted hhalted ?_
    rintro source owns rfl
    exact hreset source owns rest hc

/-! ### Reset -/

/-- Settles O46: reset is between commands in HEADER with empty memories, and its registers are those of RESET. -/
theorem invariantsAtReset : Obligations.InvariantsAtReset := by
  have hphase : PhaseInv State.reset := (phaseInv_idle rfl).2 ⟨nofun, ⟨nofun, absurd rfl⟩, Nat.zero_le _⟩
  exact ⟨Reader.start_inv _, ⟨.nil, .nil, .nil⟩, sound_of_inactive rfl hphase nofun, readBounds_inactive rfl (.inl nofun),
    RegisterRanges.resetTo _ _ _ _, TablesInv.resetTo _ _ _ _⟩

end Sys2Proof.Machine
end
